-- ==== Sys2Proof/Word.lean ====
section
/-! DEFINITION. The block's data widths (spec/00_scope.md R7): 32-bit registers, 8-bit vectors and destination
identifiers; a core is named by its number (R6, `NCORES`). -/

namespace Sys2Proof

/-- A 32-bit register word (R7). -/
abbrev Word := BitVec 32

/-- A vector, a destination identifier or a register-index byte (R7, R30). -/
abbrev Byte := BitVec 8

/-- A core number, 0..NCORES-1 (spec/92_eei_decisions.md D43). -/
abbrev CoreId := Nat

end Sys2Proof
end

