-- ==== Sys2Proof/Syntax.lean ====
section
/-! DEFINITION. The operations of the block (spec/30_encoding.md R113), one constructor per row of the operation map,
with the types of their operands. -/

namespace Sys2Proof

/-- The seven LVT kinds, in the source's order (R90). -/
inductive Kind where
  | cmci | timer | thermal | perfMon | lint0 | lint1 | error
  deriving DecidableEq, Repr, Inhabited

/-- The six named LVT delivery modes (R93, R130). -/
inductive DeliveryMode where
  | fixed | smi | nmi | init | startUp | extInt
  deriving DecidableEq, Repr, Inhabited

/-- R94. -/
inductive DeliveryStatus where
  | idle | sendPending
  deriving DecidableEq, Repr, Inhabited

/-- R95. -/
inductive Polarity where
  | activeHigh | activeLow
  deriving DecidableEq, Repr, Inhabited

/-- R96. -/
inductive TriggerMode where
  | edge | level
  deriving DecidableEq, Repr, Inhabited

/-- R98. -/
inductive TimerMode where
  | oneShot | periodic | tscDeadline
  deriving DecidableEq, Repr, Inhabited

/-- The delivery modes of the interrupt-command register; they differ from the LVT's (R110). -/
inductive IpiMode where
  | fixed | lowestPriority | smi | nmi | init | startUp
  deriving DecidableEq, Repr, Inhabited

/-- ICR low bit 11 (R110). -/
inductive DestMode where
  | physical | logical
  deriving DecidableEq, Repr, Inhabited

/-- ICR low bit 14 (R110). -/
inductive IpiLevel where
  | deassert | assert
  deriving DecidableEq, Repr, Inhabited

/-- The destination shorthand, ICR low bits 19:18 (R110). -/
inductive Shorthand where
  | noShorthand | selfOnly | allIncludingSelf | allExcludingSelf
  deriving DecidableEq, Repr, Inhabited

/-- An LVT entry: a kind and its raw 32-bit word (spec/40_lvt_codec.md R130). -/
structure Entry where
  kind : Kind
  raw  : Word
  deriving DecidableEq, Repr, Inhabited

/-- The interrupt-command descriptor (R110). -/
structure IpiDescriptor where
  vector       : Byte
  deliveryMode : IpiMode
  destMode     : DestMode
  level        : IpiLevel
  trigger      : TriggerMode
  shorthand    : Shorthand
  destination  : Byte
  deriving DecidableEq, Repr, Inhabited

/-- The forty operations, in selector order (R113). A line is a line index (00_scope.md, glossary), so a number. -/
inductive Instr where
  | lvtDecode (kind : Kind) (raw : Word)
  | lvtEncode (e : Entry)
  | lvtVector (e : Entry)
  | lvtDeliveryMode (e : Entry)
  | lvtDeliveryStatus (raw : Word)
  | lvtPolarity (e : Entry)
  | lvtTriggerMode (e : Entry)
  | lvtMask (e : Entry)
  | lvtTimerMode (e : Entry)
  | lvtSetVector (e : Entry) (v : Byte)
  | lvtSetDeliveryMode (e : Entry) (m : DeliveryMode)
  | lvtSetPolarity (e : Entry) (p : Polarity)
  | lvtSetTriggerMode (e : Entry) (t : TriggerMode)
  | lvtSetMask (e : Entry) (b : Bool)
  | lvtSetTimerMode (e : Entry) (m : TimerMode)
  | lvtNew (kind : Kind)
  | facadeSelect
  | supported
  | initCurrentCpu
  | sendEoi
  | version
  | supportsEoiBroadcastSuppression
  | maxLvtEntries
  | readId
  | setLvt (e : Entry)
  | readLvt (kind : Kind)
  | maskAll
  | writeInterruptCommand (d : IpiDescriptor)
  | lapicRead32 (off : Word)
  | lapicWrite32 (off : Word) (v : Word)
  | iorReadReg (idx : Byte)
  | iorWriteReg (idx : Byte) (v : Word)
  | supportedInterrupts
  | iorInit
  | enable (line : Nat) (dest : Byte)
  | disable (line : Nat)
  | disableAll
  | configure (line : Nat) (vector : Byte) (dest : Byte) (level activeHigh logical mask : Bool)
  | vectorOf (line : Nat)
  | setVector (line : Nat) (v : Byte)
  deriving DecidableEq, Repr, Inhabited

end Sys2Proof
end

