-- ==== Sys2Proof/Config.lean ====
section
/-! DEFINITION. The parameters of the block (spec/00_scope.md R6) as plain data, a reference choice of them, and the
free values `draw()` (R9) as constants with no body. Log entries 3, 5, 17 and 18. -/

namespace Sys2Proof

/-- `DISABLE_POLICY`: which bits `disable` keeps (spec/42_io_router.md R238, D24). -/
inductive DisablePolicy where
  | preserve | rewrite
  deriving DecidableEq, Repr, Inhabited

/-- The word function of one `ARM_WRITES` item (spec/41_local_controller.md R186). `svrEnable` is the default's;
`masked keep flip` maps w to (w & keep) ^ flip; `free n` is any function, uninterpreted (`Config.armFn n`).
Log entry 18. -/
inductive ArmFn where
  | svrEnable
  | masked (keep flip : Word)
  | free (n : Nat)
  deriving DecidableEq, Repr, Inhabited

/-- One item of `ARM_WRITES`: a register offset and the function applied to the word read there (R186). -/
structure ArmWrite where
  off : Word
  fn  : ArmFn
  deriving DecidableEq, Repr, Inhabited

/-- What one core's controller is fixed to be: `APIC_ID(c)`, `LAPIC_VERSION_WORD(c)` (R6), and whether the mapping
service grants this core's two `map` calls (spec/20_memory.md R70; log entry 17). -/
structure CoreParams where
  apicId      : Byte
  versionWord : Word
  lapicMapOk  : Bool
  iorMapOk    : Bool
  deriving DecidableEq, Repr, Inhabited

/-- The `LAPIC_OFF_*` parameters (spec/30_encoding.md R111). -/
structure LapicOffsets where
  id      : Word
  version : Word
  eoi     : Word
  svr     : Word
  cmci    : Word
  icrLo   : Word
  icrHi   : Word
  timer   : Word
  thermal : Word
  perfMon : Word
  lint0   : Word
  lint1   : Word
  error   : Word
  deriving DecidableEq, Repr, Inhabited

/-- The parameters of R6; `NCORES` is the length of `cores`. `logicalDest` is `LOGICAL_DEST_SET` (R104): the cores a
logical destination byte names, none where the byte is not listed (log entry 24). -/
structure Config where
  cores           : List CoreParams
  msrGenPresent   : Bool
  mmioGenPresent  : Bool
  lapicBase       : Nat
  lapicWindowSize : Nat
  off             : LapicOffsets
  iorBase         : Nat
  iorWindowSize   : Nat
  iorRegSelOff    : Word
  iorWinOff       : Word
  iorVerIndex     : Byte
  iorRteBase      : Byte
  iorVersionWord  : Word
  disablePolicy   : DisablePolicy
  armWrites       : List ArmWrite
  spuriousVector  : Byte
  logicalDest     : List (Byte × List CoreId)
  deriving DecidableEq, Repr, Inhabited

/-- The n-th free word: a `draw()` of R9. No body: nothing can be proved of its value (log entry 5). -/
opaque Config.drawWord : Nat → Word

/-- The n-th free delivery mode: the `draw()` of a DeliveryMode of spec/60_exceptions.md R290 (log entry 5). -/
opaque Config.drawDeliveryMode : Nat → DeliveryMode

/-- The n-th free interrupt-command mode, for a raw ICR-low write with a reserved mode code (log entry 14). -/
opaque Config.drawIpiMode : Nat → IpiMode

/-- Whether the n-th interrupt command that follows another of the same core is delivered: R333 leaves open whether one
issued while the first is pending is (log entry 27). -/
opaque Config.drawDelivered : Nat → Bool

/-- The uninterpreted functions of `ArmFn.free` (log entry 18). -/
opaque Config.armFn : Nat → Word → Word

/-- The default offsets of R111. -/
def LapicOffsets.reference : LapicOffsets where
  id := 0x020#32
  version := 0x030#32
  eoi := 0x0B0#32
  svr := 0x0F0#32
  cmci := 0x2F0#32
  icrLo := 0x300#32
  icrHi := 0x310#32
  timer := 0x320#32
  thermal := 0x330#32
  perfMon := 0x340#32
  lint0 := 0x350#32
  lint1 := 0x360#32
  error := 0x370#32

/-- The parameters State.reset is built with: R6's defaults, and for the OPEN ones without a default the values of
Programs B and C of spec/95_test_vectors.md. DESIGN CHOICE, log entry 3: no statement rests on them. -/
def Config.reference : Config where
  cores := [⟨0x00#8, 0x01060015#32, true, true⟩, ⟨0x01#8, 0x01060015#32, true, true⟩]
  msrGenPresent := false
  mmioGenPresent := true
  lapicBase := 0xFEE00000
  lapicWindowSize := 0x1000
  off := LapicOffsets.reference
  iorBase := 0xFEC00000
  iorWindowSize := 0x1000
  iorRegSelOff := 0x00#32
  iorWinOff := 0x10#32
  iorVerIndex := 0x01#8
  iorRteBase := 0x10#8
  iorVersionWord := 0x00170011#32
  disablePolicy := .preserve
  armWrites := [⟨0x0F0#32, .svrEnable⟩]
  spuriousVector := 0xFF#8
  logicalDest := []

end Sys2Proof
end

