-- ==== Sys2Proof/WellFormed.lean ====
section
/-! DEFINITION. Which LVT entries are well-formed (spec/40_lvt_codec.md R130, R133), and which operations a request can
carry: a line number fits the request's four bytes (log entry 2). An operation takes any entry, well-formed or not: the
setters are stated for every word (spec/95_test_vectors.md P2, P3; log entry 19). -/

namespace Sys2Proof

/-- The kinds that have the delivery-mode field (spec/30_encoding.md R90). -/
def Kind.hasDeliveryMode : Kind → Bool
  | .cmci => true
  | .timer => false
  | .thermal => true
  | .perfMon => true
  | .lint0 => true
  | .lint1 => true
  | .error => false

/-- R130: the word decodes, that is, no supported enumerant field holds a reserved code (R93: 0b001, 0b011; R98: 0b11). -/
def Entry.wf (e : Entry) : Bool :=
  (!e.kind.hasDeliveryMode || (e.raw.extractLsb' 8 3 != 1#3 && e.raw.extractLsb' 8 3 != 3#3)) &&
  (e.kind != .timer || e.raw.extractLsb' 17 2 != 3#2)

/-- The largest line number a request can carry, plus one (log entry 2). -/
def lineBound : Nat := 4294967296

/-- The request can carry every operand (log entry 2). -/
def Instr.wf : Instr → Bool
  | .lvtDecode _ _ => true
  | .lvtEncode _ => true
  | .lvtVector _ => true
  | .lvtDeliveryMode _ => true
  | .lvtDeliveryStatus _ => true
  | .lvtPolarity _ => true
  | .lvtTriggerMode _ => true
  | .lvtMask _ => true
  | .lvtTimerMode _ => true
  | .lvtSetVector _ _ => true
  | .lvtSetDeliveryMode _ _ => true
  | .lvtSetPolarity _ _ => true
  | .lvtSetTriggerMode _ _ => true
  | .lvtSetMask _ _ => true
  | .lvtSetTimerMode _ _ => true
  | .lvtNew _ => true
  | .facadeSelect => true
  | .supported => true
  | .initCurrentCpu => true
  | .sendEoi => true
  | .version => true
  | .supportsEoiBroadcastSuppression => true
  | .maxLvtEntries => true
  | .readId => true
  | .setLvt _ => true
  | .readLvt _ => true
  | .maskAll => true
  | .writeInterruptCommand _ => true
  | .lapicRead32 _ => true
  | .lapicWrite32 _ _ => true
  | .iorReadReg _ => true
  | .iorWriteReg _ _ => true
  | .supportedInterrupts => true
  | .iorInit => true
  | .enable l _ => decide (l < lineBound)
  | .disable l => decide (l < lineBound)
  | .disableAll => true
  | .configure l _ _ _ _ _ _ => decide (l < lineBound)
  | .vectorOf l => decide (l < lineBound)
  | .setVector l _ => decide (l < lineBound)

end Sys2Proof
end

