-- ==== Sys2Proof/Machine/Flags.lean ====
section
/-! DEFINITION. Bit-field primitives (spec/00_scope.md R9), the flag bits of a redirection entry's low register
(spec/30_encoding.md R101), the read-back masks (spec/10_state.md R26, R32) and the vector range
(spec/42_io_router.md R231). The block has no arithmetic condition codes (R34). -/

namespace Sys2Proof.Machine

/-- `bit(i)`: the word 1 << i (R9). -/
def bitWord (i : Nat) : Word := 1#32 <<< i

/-- `w[i]` (R8). -/
def bitOf (w : Word) (i : Nat) : Bool := w.getLsbD i

/-- The bits `hi..lo` of a word, all ones (helper of R9's `setbits`). -/
def fieldMask (hi lo : Nat) : Word := (BitVec.allOnes 32 >>> (31 - (hi - lo))) <<< lo

/-- `setbits(w, hi, lo, v)`: w with bits hi..lo replaced by the low bits of v, every other bit unchanged (R9). -/
def setbits (w : Word) (hi lo : Nat) (v : Word) : Word :=
  (w &&& ~~~fieldMask hi lo) ||| ((v <<< lo) &&& fieldMask hi lo)

/-- `FLAG_DISABLED`, the mask bit (R101). -/
def flagDisabled : Word := bitWord 16

/-- `FLAG_LEVEL`, trigger = Level (R101). -/
def flagLevel : Word := bitWord 15

/-- `FLAG_ACTIVELOW`, polarity = active-low (R101). -/
def flagActiveLow : Word := bitWord 13

/-- `FLAG_LOGICAL`, dest-mode = logical (R101). -/
def flagLogical : Word := bitWord 11

/-- The flags `configure` composes from its Booleans, m already forced by the vector (R240). -/
def configureFlags (level activeHigh logical m : Bool) : Word :=
  (if level then flagLevel else 0#32) ||| (if activeHigh then 0#32 else flagActiveLow) |||
    (if logical then flagLogical else 0#32) ||| (if m then flagDisabled else 0#32)

/-- A vector is valid when 0x20 ≤ v ≤ 0xEF, both ends included (R231, R10). -/
def validVector (v : Byte) : Bool := decide (0x20 ≤ v.toNat) && decide (v.toNat ≤ 0xEF)

/-- The pin kinds LINT0 and LINT1 (R90). -/
def isPin : Kind → Bool
  | .cmci => false
  | .timer => false
  | .thermal => false
  | .perfMon => false
  | .lint0 => true
  | .lint1 => true
  | .error => false

/-- `KIND_MASK(k)`: the bits a read of an LVT register returns as stored (R26). -/
def kindMask (k : Kind) : Word :=
  0x000100FF#32 ||| (if k.hasDeliveryMode then 0x00000700#32 else 0#32) |||
    (if isPin k then 0x0000A000#32 else 0#32) ||| (if k = .timer then 0x00060000#32 else 0#32)

/-- `RTE_LO_MASK` (R32). -/
def rteLoMask : Word := 0x0001AFFF#32

/-- `RTE_HI_MASK` (R32). -/
def rteHiMask : Word := 0xFF000000#32

/-- The stored bits of ICR low: all but the read-only delivery status, bit 12 (R25, R195; log entry 13). -/
def icrLoMask : Word := ~~~bitWord 12

/-- The stored bits of the index register: the low byte (R30; log entry 12). -/
def indexMask : Word := 0x000000FF#32

/-- A read: the stored bits under the mask, the drawn ones elsewhere (R26, R32). -/
def readBack (mask stored drawn : Word) : Word := (stored &&& mask) ||| (drawn &&& ~~~mask)

end Sys2Proof.Machine
end

