-- ==== Sys2Proof/Machine/Operands.lean ====
section
/-! DEFINITION. Reading and building the register words: enumerant codes (spec/30_encoding.md R93, R98, R110), the
redirection-entry words (R101, R103), the interrupt-command words (R110), version and identifier fields (R105, R106,
R107), line addressing (spec/42_io_router.md R233) and the register offsets (R111). -/

namespace Sys2Proof.Machine

/-- `w[7:0]`, the vector field of every layout (R91, R100, R110). -/
def vectorField (w : Word) : Byte := w.extractLsb' 0 8

/-- `w[10:8]`, the delivery-mode field (R91, R100, R110). -/
def modeField (w : Word) : BitVec 3 := w.extractLsb' 8 3

/-- `w[18:17]`, the timer-mode field (R98). -/
def timerField (w : Word) : BitVec 2 := w.extractLsb' 17 2

/-- `w[31:24]`, the destination or identifier byte (R103, R107, R110). -/
def topByte (w : Word) : Byte := w.extractLsb' 24 8

/-- `zext_9(w[23:16]) + 1`: the count of a version register, 1..256 (R105, R106; R190, R232). -/
def countField (w : Word) : Nat := (w.extractLsb' 16 8).toNat + 1

/-! ### Enumerant codes -/

/-- `dm_code` (R131). -/
def dmCode : DeliveryMode → BitVec 3
  | .fixed => 0#3
  | .smi => 2#3
  | .nmi => 4#3
  | .init => 5#3
  | .startUp => 6#3
  | .extInt => 7#3

/-- `dm_from_bits`; none is InvalidArgument, on the reserved codes 0b001 and 0b011 (R131). -/
def dmFromBits (b : BitVec 3) : Option DeliveryMode :=
  if b = 0#3 then some .fixed
  else if b = 2#3 then some .smi
  else if b = 4#3 then some .nmi
  else if b = 5#3 then some .init
  else if b = 6#3 then some .startUp
  else if b = 7#3 then some .extInt
  else none

/-- `tm_code` (R132). -/
def tmCode : TimerMode → BitVec 2
  | .oneShot => 0#2
  | .periodic => 1#2
  | .tscDeadline => 2#2

/-- `tm_from_bits`; none is InvalidArgument, on the reserved code 0b11 (R132). -/
def tmFromBits (b : BitVec 2) : Option TimerMode :=
  if b = 0#2 then some .oneShot
  else if b = 1#2 then some .periodic
  else if b = 2#2 then some .tscDeadline
  else none

/-- The delivery-mode codes of ICR low (R110). -/
def ipiModeCode : IpiMode → BitVec 3
  | .fixed => 0#3
  | .lowestPriority => 1#3
  | .smi => 2#3
  | .nmi => 4#3
  | .init => 5#3
  | .startUp => 6#3

/-- The mode of an ICR-low word; none on the reserved codes 0b011 and 0b111 (R110). -/
def ipiModeFromBits (b : BitVec 3) : Option IpiMode :=
  if b = 0#3 then some .fixed
  else if b = 1#3 then some .lowestPriority
  else if b = 2#3 then some .smi
  else if b = 4#3 then some .nmi
  else if b = 5#3 then some .init
  else if b = 6#3 then some .startUp
  else none

/-- The destination-shorthand codes (R110). -/
def shorthandCode : Shorthand → BitVec 2
  | .noShorthand => 0#2
  | .selfOnly => 1#2
  | .allIncludingSelf => 2#2
  | .allExcludingSelf => 3#2

/-- The shorthand of a two-bit code (R110). -/
def shorthandFromBits (b : BitVec 2) : Shorthand :=
  if b = 0#2 then .noShorthand
  else if b = 1#2 then .selfOnly
  else if b = 2#2 then .allIncludingSelf
  else .allExcludingSelf

/-- 0 edge, 1 level (R96, R110). -/
def triggerOfBit (b : Bool) : TriggerMode := if b then .level else .edge

/-! ### Composed words -/

/-- `rte_lo_word(vector, flags)` (R101). -/
def rteLoWord (v : Byte) (flags : Word) : Word := v.setWidth 32 ||| flags

/-- `rte_hi_word(dest)` (R103). -/
def rteHiWord (dest : Byte) : Word := dest.setWidth 32 <<< 24

/-- The word `set_vector` writes, from the word read: the vector replaced, and the mask bit set if the old vector was
invalid (R242). -/
def setVectorWord (w : Word) (v : Byte) : Word :=
  setbits (if validVector (vectorField w) then w else w ||| flagDisabled) 7 0 (v.setWidth 32)

/-- `icr_lo(d)` (R110). -/
def icrLoWord (d : IpiDescriptor) : Word :=
  d.vector.setWidth 32 ||| ((ipiModeCode d.deliveryMode).setWidth 32 <<< 8) |||
    (if d.destMode = .logical then bitWord 11 else 0#32) ||| (if d.level = .assert then bitWord 14 else 0#32) |||
    (if d.trigger = .level then bitWord 15 else 0#32) ||| ((shorthandCode d.shorthand).setWidth 32 <<< 18)

/-- `icr_hi(d)` (R110). -/
def icrHiWord (d : IpiDescriptor) : Word := d.destination.setWidth 32 <<< 24

/-! ### Parameters derived from Config -/

/-- `N`, the supported-interrupt-count (R6, R105). -/
def numLines (cfg : Config) : Nat := countField cfg.iorVersionWord

/-- `LINES_ADDRESSABLE` (R233). -/
def linesAddressable (cfg : Config) : Nat := (256 - cfg.iorRteBase.toNat) / 2

/-- `lo_index(l)` (R233). -/
def loIndex (cfg : Config) (l : Nat) : Byte := BitVec.ofNat 8 (cfg.iorRteBase.toNat + 2 * l)

/-- `hi_index(l)` (R233). -/
def hiIndex (cfg : Config) (l : Nat) : Byte := BitVec.ofNat 8 (cfg.iorRteBase.toNat + 2 * l + 1)

/-- The parameters of core c; a core that does not exist has none, and no request of such a core is ever performed. -/
def coreParams (cfg : Config) (c : CoreId) : CoreParams := cfg.cores.getD c default

/-- `APIC_ID(c)` (R6). -/
def apicId (cfg : Config) (c : CoreId) : Byte := (coreParams cfg c).apicId

/-- `LAPIC_VERSION_WORD(c)` (R6). -/
def lapicVersionWord (cfg : Config) (c : CoreId) : Word := (coreParams cfg c).versionWord

/-- The CMCI register exists on core c only if `max_lvt_entries()` there is at least 7; the six others always exist
(spec/10_state.md R27). -/
def lvtPresent (cfg : Config) (c : CoreId) (k : Kind) : Bool :=
  k != .cmci || decide (7 ≤ countField (lapicVersionWord cfg c))

/-- `{ c' | APIC_ID(c') = dest }`, in core order (R291, R292). -/
def physicalTargets (cfg : Config) (dest : Byte) : List CoreId :=
  (List.range cfg.cores.length).filter fun c => apicId cfg c == dest

/-- `LOGICAL_DEST_SET(dest)` (R104; log entry 24). -/
def logicalTargets (cfg : Config) (dest : Byte) : List CoreId :=
  match cfg.logicalDest.find? fun p => p.1 == dest with
  | some p => p.2
  | none => []

/-- The targets of an interrupt command of core c (R292). -/
def ipiTargets (cfg : Config) (c : CoreId) (sh : Shorthand) (logical : Bool) (dest : Byte) : List CoreId :=
  match sh with
  | .noShorthand => if logical then logicalTargets cfg dest else physicalTargets cfg dest
  | .selfOnly => [c]
  | .allIncludingSelf => List.range cfg.cores.length
  | .allExcludingSelf => (List.range cfg.cores.length).filter fun c' => c' != c

/-! ### Registers and where they are -/

/-- The registers of a local-controller window (R111). -/
inductive LapicReg where
  | id | version | eoi | svr | icrLo | icrHi
  | lvt (k : Kind)
  deriving DecidableEq, Repr, Inhabited

/-- `LVT_OFF(k)` (R111). -/
def lvtOffset (cfg : Config) : Kind → Word
  | .cmci => cfg.off.cmci
  | .timer => cfg.off.timer
  | .thermal => cfg.off.thermal
  | .perfMon => cfg.off.perfMon
  | .lint0 => cfg.off.lint0
  | .lint1 => cfg.off.lint1
  | .error => cfg.off.error

/-- The offset of a local-controller register (R111). -/
def lapicOffset (cfg : Config) : LapicReg → Word
  | .id => cfg.off.id
  | .version => cfg.off.version
  | .eoi => cfg.off.eoi
  | .svr => cfg.off.svr
  | .icrLo => cfg.off.icrLo
  | .icrHi => cfg.off.icrHi
  | .lvt k => lvtOffset cfg k

/-- The thirteen registers of R111, in the order of its table. -/
def lapicRegs : List LapicReg :=
  [.id, .version, .eoi, .svr, .lvt .cmci, .icrLo, .icrHi, .lvt .timer, .lvt .thermal, .lvt .perfMon, .lvt .lint0,
   .lvt .lint1, .lvt .error]

/-- The register at an offset, if the offset is one of R111 (spec/20_memory.md R61). -/
def lapicRegAt (cfg : Config) (off : Word) : Option LapicReg :=
  lapicRegs.find? fun r => lapicOffset cfg r == off

/-- The router's internal registers (spec/20_memory.md R63). -/
inductive IorReg where
  | version
  | lo (l : Nat)
  | hi (l : Nat)
  deriving DecidableEq, Repr, Inhabited

/-- The register at an index; none for an index the spec gives no meaning (R63). -/
def iorRegAt (cfg : Config) (idx : Byte) : Option IorReg :=
  if idx = cfg.iorVerIndex then some .version
  else if cfg.iorRteBase.toNat ≤ idx.toNat then
    let k := idx.toNat - cfg.iorRteBase.toNat
    if k / 2 < numLines cfg then some (if k % 2 = 0 then .lo (k / 2) else .hi (k / 2)) else none
  else none

/-- The word an `ARM_WRITES` item writes, from the word read (R186; log entry 18). -/
def armWord (cfg : Config) : ArmFn → Word → Word
  | .svrEnable, w => setbits (setbits w 8 8 1#32) 7 0 (cfg.spuriousVector.setWidth 32)
  | .masked keep flip, w => (w &&& keep) ^^^ flip
  | .free n, w => Config.armFn n w

end Sys2Proof.Machine
end

