-- ==== Sys2Proof/Machine/Codec.lean ====
section
/-! DEFINITION. The LVT entry codec as pure functions (spec/40_lvt_codec.md R133 to R148). none is InvalidArgument in
`lvtDecode` and the setters, and "not applicable" in a getter. The operations that return these values are in
LvtCodec.lean. -/

namespace Sys2Proof.Machine

/-- R133: fails exactly when a supported enumerant field holds a reserved code; keeps all 32 bits. -/
def lvtDecode (k : Kind) (raw : Word) : Option Entry :=
  if k.hasDeliveryMode && (dmFromBits (modeField raw)).isNone then none
  else if k = .timer && (tmFromBits (timerField raw)).isNone then none
  else some ⟨k, raw⟩

/-- R134. -/
def lvtEncode (e : Entry) : Word := e.raw

/-- R135. -/
def lvtNew (k : Kind) : Entry := ⟨k, 0#32⟩

/-- R136. -/
def lvtVector (e : Entry) : Byte := vectorField e.raw

/-- R137: none where the kind has no such field. The outer Option is that, the inner one the conversion's
InvalidArgument, on an ill-formed entry (R131; log entry 19). -/
def lvtDeliveryMode (e : Entry) : Option (Option DeliveryMode) :=
  if e.kind.hasDeliveryMode then some (dmFromBits (modeField e.raw)) else none

/-- R138: total on words. -/
def lvtDeliveryStatus (w : Word) : DeliveryStatus := if bitOf w 12 then .sendPending else .idle

/-- R139. -/
def lvtPolarity (e : Entry) : Option Polarity :=
  if isPin e.kind then some (if bitOf e.raw 13 then .activeLow else .activeHigh) else none

/-- R140. -/
def lvtTriggerMode (e : Entry) : Option TriggerMode :=
  if isPin e.kind then some (triggerOfBit (bitOf e.raw 15)) else none

/-- R141. -/
def lvtMask (e : Entry) : Bool := bitOf e.raw 16

/-- R142, with the two Options of `lvtDeliveryMode`. -/
def lvtTimerMode (e : Entry) : Option (Option TimerMode) :=
  if e.kind = .timer then some (tmFromBits (timerField e.raw)) else none

/-- R143. -/
def lvtSetVector (e : Entry) (v : Byte) : Entry := ⟨e.kind, setbits e.raw 7 0 (v.setWidth 32)⟩

/-- R144. -/
def lvtSetDeliveryMode (e : Entry) (m : DeliveryMode) : Option Entry :=
  if e.kind.hasDeliveryMode then some ⟨e.kind, setbits e.raw 10 8 ((dmCode m).setWidth 32)⟩ else none

/-- R145. -/
def lvtSetPolarity (e : Entry) (p : Polarity) : Option Entry :=
  if isPin e.kind then some ⟨e.kind, setbits e.raw 13 13 (if p = .activeLow then 1#32 else 0#32)⟩ else none

/-- R146. -/
def lvtSetTriggerMode (e : Entry) (t : TriggerMode) : Option Entry :=
  if isPin e.kind then some ⟨e.kind, setbits e.raw 15 15 (if t = .level then 1#32 else 0#32)⟩ else none

/-- R147. -/
def lvtSetMask (e : Entry) (b : Bool) : Entry := ⟨e.kind, setbits e.raw 16 16 (if b then 1#32 else 0#32)⟩

/-- R148. -/
def lvtSetTimerMode (e : Entry) (m : TimerMode) : Option Entry :=
  if e.kind = .timer then some ⟨e.kind, setbits e.raw 18 17 ((tmCode m).setWidth 32)⟩ else none

end Sys2Proof.Machine
end

