-- ==== Sys2Proof/Decode.lean ====
section
/-! DEFINITION. The decoder of a request (total, every rejection named) and after it the encoder. A request is twelve
bytes: the 8-bit selector of spec/30_encoding.md R113, then the operands in the order of R113's operand list, each as
whole bytes (a word little-endian, spec/20_memory.md R66), then zero bytes. The operand layout is the model's: the spec
passes operands as call arguments (R114). Log entry 2. -/

namespace Sys2Proof

/-- Why twelve bytes are no request. -/
inductive DecodeError where
  /-- Not twelve bytes. -/
  | badLength
  /-- No row of R113 has this selector. -/
  | unknownSelector
  /-- An operand byte is no code of its type. -/
  | badOperand
  /-- A byte after the operands is not zero. -/
  | unusedByteNotZero
  deriving DecidableEq, Repr, Inhabited

/-- The operations without their operands (R113). -/
inductive Opcode where
  | lvtDecode | lvtEncode | lvtVector | lvtDeliveryMode | lvtDeliveryStatus | lvtPolarity | lvtTriggerMode | lvtMask
  | lvtTimerMode | lvtSetVector | lvtSetDeliveryMode | lvtSetPolarity | lvtSetTriggerMode | lvtSetMask
  | lvtSetTimerMode | lvtNew | facadeSelect | supported | initCurrentCpu | sendEoi | version
  | supportsEoiBroadcastSuppression | maxLvtEntries | readId | setLvt | readLvt | maskAll | writeInterruptCommand
  | lapicRead32 | lapicWrite32 | iorReadReg | iorWriteReg | supportedInterrupts | iorInit | enable | disable
  | disableAll | configure | vectorOf | setVector
  deriving DecidableEq, Repr, Inhabited

/-- The selector column of R113. -/
def Opcode.selector : Opcode → Byte
  | .lvtDecode => 0x00#8
  | .lvtEncode => 0x01#8
  | .lvtVector => 0x02#8
  | .lvtDeliveryMode => 0x03#8
  | .lvtDeliveryStatus => 0x04#8
  | .lvtPolarity => 0x05#8
  | .lvtTriggerMode => 0x06#8
  | .lvtMask => 0x07#8
  | .lvtTimerMode => 0x08#8
  | .lvtSetVector => 0x09#8
  | .lvtSetDeliveryMode => 0x0A#8
  | .lvtSetPolarity => 0x0B#8
  | .lvtSetTriggerMode => 0x0C#8
  | .lvtSetMask => 0x0D#8
  | .lvtSetTimerMode => 0x0E#8
  | .lvtNew => 0x0F#8
  | .facadeSelect => 0x10#8
  | .supported => 0x11#8
  | .initCurrentCpu => 0x12#8
  | .sendEoi => 0x13#8
  | .version => 0x14#8
  | .supportsEoiBroadcastSuppression => 0x15#8
  | .maxLvtEntries => 0x16#8
  | .readId => 0x17#8
  | .setLvt => 0x18#8
  | .readLvt => 0x19#8
  | .maskAll => 0x1A#8
  | .writeInterruptCommand => 0x1B#8
  | .lapicRead32 => 0x1C#8
  | .lapicWrite32 => 0x1D#8
  | .iorReadReg => 0x20#8
  | .iorWriteReg => 0x21#8
  | .supportedInterrupts => 0x22#8
  | .iorInit => 0x23#8
  | .enable => 0x24#8
  | .disable => 0x25#8
  | .disableAll => 0x26#8
  | .configure => 0x27#8
  | .vectorOf => 0x28#8
  | .setVector => 0x29#8

def Opcode.codec : List Opcode :=
  [.lvtDecode, .lvtEncode, .lvtVector, .lvtDeliveryMode, .lvtDeliveryStatus, .lvtPolarity, .lvtTriggerMode, .lvtMask,
   .lvtTimerMode, .lvtSetVector, .lvtSetDeliveryMode, .lvtSetPolarity, .lvtSetTriggerMode, .lvtSetMask,
   .lvtSetTimerMode, .lvtNew]

def Opcode.localController : List Opcode :=
  [.facadeSelect, .supported, .initCurrentCpu, .sendEoi, .version, .supportsEoiBroadcastSuppression, .maxLvtEntries,
   .readId, .setLvt, .readLvt, .maskAll, .writeInterruptCommand, .lapicRead32, .lapicWrite32]

def Opcode.router : List Opcode :=
  [.iorReadReg, .iorWriteReg, .supportedInterrupts, .iorInit, .enable, .disable, .disableAll, .configure, .vectorOf,
   .setVector]

def Opcode.all : List Opcode := Opcode.codec ++ Opcode.localController ++ Opcode.router

def Opcode.ofSelector (b : Byte) : Option Opcode :=
  Opcode.all.find? fun op => op.selector == b

/-! ### Operand codes -/

/-- The kinds numbered in the order of R90 (log entry 2). -/
def Kind.code : Kind → Byte
  | .cmci => 0#8
  | .timer => 1#8
  | .thermal => 2#8
  | .perfMon => 3#8
  | .lint0 => 4#8
  | .lint1 => 5#8
  | .error => 6#8

def Kind.all : List Kind := [.cmci, .timer, .thermal, .perfMon, .lint0, .lint1, .error]

/-- The code of R93. -/
def DeliveryMode.byte : DeliveryMode → Byte
  | .fixed => 0#8
  | .smi => 2#8
  | .nmi => 4#8
  | .init => 5#8
  | .startUp => 6#8
  | .extInt => 7#8

def DeliveryMode.all : List DeliveryMode := [.fixed, .smi, .nmi, .init, .startUp, .extInt]

/-- The bit value of R95. -/
def Polarity.byte : Polarity → Byte
  | .activeHigh => 0#8
  | .activeLow => 1#8

def Polarity.all : List Polarity := [.activeHigh, .activeLow]

/-- The bit value of R96. -/
def TriggerMode.byte : TriggerMode → Byte
  | .edge => 0#8
  | .level => 1#8

def TriggerMode.all : List TriggerMode := [.edge, .level]

/-- The code of R98. -/
def TimerMode.byte : TimerMode → Byte
  | .oneShot => 0#8
  | .periodic => 1#8
  | .tscDeadline => 2#8

def TimerMode.all : List TimerMode := [.oneShot, .periodic, .tscDeadline]

/-- The code of R110. -/
def IpiMode.byte : IpiMode → Byte
  | .fixed => 0#8
  | .lowestPriority => 1#8
  | .smi => 2#8
  | .nmi => 4#8
  | .init => 5#8
  | .startUp => 6#8

def IpiMode.all : List IpiMode := [.fixed, .lowestPriority, .smi, .nmi, .init, .startUp]

/-- The bit value of R110. -/
def DestMode.byte : DestMode → Byte
  | .physical => 0#8
  | .logical => 1#8

def DestMode.all : List DestMode := [.physical, .logical]

/-- The bit value of R110. -/
def IpiLevel.byte : IpiLevel → Byte
  | .deassert => 0#8
  | .assert => 1#8

def IpiLevel.all : List IpiLevel := [.deassert, .assert]

/-- The code of R110. -/
def Shorthand.byte : Shorthand → Byte
  | .noShorthand => 0#8
  | .selfOnly => 1#8
  | .allIncludingSelf => 2#8
  | .allExcludingSelf => 3#8

def Shorthand.all : List Shorthand := [.noShorthand, .selfOnly, .allIncludingSelf, .allExcludingSelf]

/-- A Boolean operand: 0 or 1 (log entry 2). -/
def boolByte : Bool → Byte
  | false => 0#8
  | true => 1#8

/-! ### Reading operands off the front of a byte list -/

/-- A parsed operand and the bytes after it. -/
abbrev Parse (α : Type) := Except DecodeError (α × List Byte)

/-- A second operand after a first. -/
def thenTake {α β : Type} (p : Parse α) (f : α → List Byte → Parse β) : Parse β :=
  match p with
  | .ok (a, rest) => f a rest
  | .error e => .error e

def takeByte : List Byte → Parse Byte
  | b :: rest => .ok (b, rest)
  | [] => .error .badOperand

/-- Four bytes, the lowest first (R66). -/
def takeWord : List Byte → Parse Word
  | b0 :: b1 :: b2 :: b3 :: rest => .ok (b3 ++ b2 ++ b1 ++ b0, rest)
  | _ => .error .badOperand

/-- One byte that must be the code of one of `all`. -/
def takeCode {α : Type} (all : List α) (code : α → Byte) : List Byte → Parse α
  | b :: rest =>
    match all.find? fun x => code x == b with
    | some x => .ok (x, rest)
    | none => .error .badOperand
  | [] => .error .badOperand

def takeKind : List Byte → Parse Kind := takeCode Kind.all Kind.code

def takeBool : List Byte → Parse Bool := takeCode [false, true] boolByte

def takeEntry (bs : List Byte) : Parse Entry :=
  thenTake (takeKind bs) fun k bs =>
  thenTake (takeWord bs) fun w bs =>
  .ok (⟨k, w⟩, bs)

def takeDescriptor (bs : List Byte) : Parse IpiDescriptor :=
  thenTake (takeByte bs) fun v bs =>
  thenTake (takeCode IpiMode.all IpiMode.byte bs) fun m bs =>
  thenTake (takeCode DestMode.all DestMode.byte bs) fun dm bs =>
  thenTake (takeCode IpiLevel.all IpiLevel.byte bs) fun lv bs =>
  thenTake (takeCode TriggerMode.all TriggerMode.byte bs) fun tr bs =>
  thenTake (takeCode Shorthand.all Shorthand.byte bs) fun sh bs =>
  thenTake (takeByte bs) fun d bs =>
  .ok (⟨v, m, dm, lv, tr, sh, d⟩, bs)

/-- A line number: a word, read unsigned. -/
def takeLine (bs : List Byte) : Parse Nat :=
  thenTake (takeWord bs) fun w bs =>
  .ok (w.toNat, bs)

/-- An operation with one entry operand. -/
def takeOnEntry (f : Entry → Instr) (bs : List Byte) : Parse Instr :=
  thenTake (takeEntry bs) fun e bs =>
  .ok (f e, bs)

/-- An operation with an entry operand and a second one. -/
def takeOnEntryAnd {α : Type} (take : List Byte → Parse α) (f : Entry → α → Instr) (bs : List Byte) : Parse Instr :=
  thenTake (takeEntry bs) fun e bs =>
  thenTake (take bs) fun a bs =>
  .ok (f e a, bs)

/-- An operation with one operand. -/
def takeOne {α : Type} (take : List Byte → Parse α) (f : α → Instr) (bs : List Byte) : Parse Instr :=
  thenTake (take bs) fun a bs =>
  .ok (f a, bs)

/-- An operation with two operands. -/
def takeTwo {α β : Type} (ta : List Byte → Parse α) (tb : List Byte → Parse β) (f : α → β → Instr) (bs : List Byte) :
    Parse Instr :=
  thenTake (ta bs) fun a bs =>
  thenTake (tb bs) fun b bs =>
  .ok (f a b, bs)

def takeConfigure (bs : List Byte) : Parse Instr :=
  thenTake (takeLine bs) fun l bs =>
  thenTake (takeByte bs) fun v bs =>
  thenTake (takeByte bs) fun d bs =>
  thenTake (takeBool bs) fun level bs =>
  thenTake (takeBool bs) fun activeHigh bs =>
  thenTake (takeBool bs) fun logical bs =>
  thenTake (takeBool bs) fun mask bs =>
  .ok (.configure l v d level activeHigh logical mask, bs)

/-- The operands of one operation, in the order of the operand list of spec/opcode_table.json. -/
def takeOperands (op : Opcode) (bs : List Byte) : Parse Instr :=
  match op with
  | .lvtDecode => takeTwo takeKind takeWord .lvtDecode bs
  | .lvtEncode => takeOnEntry .lvtEncode bs
  | .lvtVector => takeOnEntry .lvtVector bs
  | .lvtDeliveryMode => takeOnEntry .lvtDeliveryMode bs
  | .lvtDeliveryStatus => takeOne takeWord .lvtDeliveryStatus bs
  | .lvtPolarity => takeOnEntry .lvtPolarity bs
  | .lvtTriggerMode => takeOnEntry .lvtTriggerMode bs
  | .lvtMask => takeOnEntry .lvtMask bs
  | .lvtTimerMode => takeOnEntry .lvtTimerMode bs
  | .lvtSetVector => takeOnEntryAnd takeByte .lvtSetVector bs
  | .lvtSetDeliveryMode => takeOnEntryAnd (takeCode DeliveryMode.all DeliveryMode.byte) .lvtSetDeliveryMode bs
  | .lvtSetPolarity => takeOnEntryAnd (takeCode Polarity.all Polarity.byte) .lvtSetPolarity bs
  | .lvtSetTriggerMode => takeOnEntryAnd (takeCode TriggerMode.all TriggerMode.byte) .lvtSetTriggerMode bs
  | .lvtSetMask => takeOnEntryAnd takeBool .lvtSetMask bs
  | .lvtSetTimerMode => takeOnEntryAnd (takeCode TimerMode.all TimerMode.byte) .lvtSetTimerMode bs
  | .lvtNew => takeOne takeKind .lvtNew bs
  | .facadeSelect => .ok (.facadeSelect, bs)
  | .supported => .ok (.supported, bs)
  | .initCurrentCpu => .ok (.initCurrentCpu, bs)
  | .sendEoi => .ok (.sendEoi, bs)
  | .version => .ok (.version, bs)
  | .supportsEoiBroadcastSuppression => .ok (.supportsEoiBroadcastSuppression, bs)
  | .maxLvtEntries => .ok (.maxLvtEntries, bs)
  | .readId => .ok (.readId, bs)
  | .setLvt => takeOnEntry .setLvt bs
  | .readLvt => takeOne takeKind .readLvt bs
  | .maskAll => .ok (.maskAll, bs)
  | .writeInterruptCommand => takeOne takeDescriptor .writeInterruptCommand bs
  | .lapicRead32 => takeOne takeWord .lapicRead32 bs
  | .lapicWrite32 => takeTwo takeWord takeWord .lapicWrite32 bs
  | .iorReadReg => takeOne takeByte .iorReadReg bs
  | .iorWriteReg => takeTwo takeByte takeWord .iorWriteReg bs
  | .supportedInterrupts => .ok (.supportedInterrupts, bs)
  | .iorInit => .ok (.iorInit, bs)
  | .enable => takeTwo takeLine takeByte .enable bs
  | .disable => takeOne takeLine .disable bs
  | .disableAll => .ok (.disableAll, bs)
  | .configure => takeConfigure bs
  | .vectorOf => takeOne takeLine .vectorOf bs
  | .setVector => takeTwo takeLine takeByte .setVector bs

/-- The bytes of every request. -/
def requestLength : Nat := 12

/-- The decoder: selector, operands, then only zero bytes. -/
def decode (bs : List Byte) : Except DecodeError Instr :=
  if bs.length ≠ requestLength then .error .badLength
  else
    match bs with
    | [] => .error .badLength
    | sel :: operands =>
      match Opcode.ofSelector sel with
      | none => .error .unknownSelector
      | some op =>
        match takeOperands op operands with
        | .error e => .error e
        | .ok (i, rest) =>
          if rest.all (· == 0#8) then .ok i else .error .unusedByteNotZero

/-- The host's numbering: byte k of the request is bits 8k+7..8k of w; bytes at and above nbits are zero. -/
def tableBytes (nbits w : Nat) : List Byte :=
  (List.range requestLength).map fun k => if 8 * k < nbits then BitVec.ofNat 8 (w >>> (8 * k)) else 0#8

def decodeTableWord (nbits w : Nat) : Option Instr :=
  match decode (tableBytes nbits w) with
  | .ok i => some i
  | .error _ => none

/-! ### The encoder -/

def Instr.opcode : Instr → Opcode
  | .lvtDecode _ _ => .lvtDecode
  | .lvtEncode _ => .lvtEncode
  | .lvtVector _ => .lvtVector
  | .lvtDeliveryMode _ => .lvtDeliveryMode
  | .lvtDeliveryStatus _ => .lvtDeliveryStatus
  | .lvtPolarity _ => .lvtPolarity
  | .lvtTriggerMode _ => .lvtTriggerMode
  | .lvtMask _ => .lvtMask
  | .lvtTimerMode _ => .lvtTimerMode
  | .lvtSetVector _ _ => .lvtSetVector
  | .lvtSetDeliveryMode _ _ => .lvtSetDeliveryMode
  | .lvtSetPolarity _ _ => .lvtSetPolarity
  | .lvtSetTriggerMode _ _ => .lvtSetTriggerMode
  | .lvtSetMask _ _ => .lvtSetMask
  | .lvtSetTimerMode _ _ => .lvtSetTimerMode
  | .lvtNew _ => .lvtNew
  | .facadeSelect => .facadeSelect
  | .supported => .supported
  | .initCurrentCpu => .initCurrentCpu
  | .sendEoi => .sendEoi
  | .version => .version
  | .supportsEoiBroadcastSuppression => .supportsEoiBroadcastSuppression
  | .maxLvtEntries => .maxLvtEntries
  | .readId => .readId
  | .setLvt _ => .setLvt
  | .readLvt _ => .readLvt
  | .maskAll => .maskAll
  | .writeInterruptCommand _ => .writeInterruptCommand
  | .lapicRead32 _ => .lapicRead32
  | .lapicWrite32 _ _ => .lapicWrite32
  | .iorReadReg _ => .iorReadReg
  | .iorWriteReg _ _ => .iorWriteReg
  | .supportedInterrupts => .supportedInterrupts
  | .iorInit => .iorInit
  | .enable _ _ => .enable
  | .disable _ => .disable
  | .disableAll => .disableAll
  | .configure _ _ _ _ _ _ _ => .configure
  | .vectorOf _ => .vectorOf
  | .setVector _ _ => .setVector

/-- Four bytes, the lowest first (R66). -/
def wordBytes (w : Word) : List Byte :=
  [w.extractLsb' 0 8, w.extractLsb' 8 8, w.extractLsb' 16 8, w.extractLsb' 24 8]

def entryBytes (e : Entry) : List Byte := e.kind.code :: wordBytes e.raw

def lineBytes (l : Nat) : List Byte := wordBytes (BitVec.ofNat 32 l)

def descriptorBytes (d : IpiDescriptor) : List Byte :=
  [d.vector, d.deliveryMode.byte, d.destMode.byte, d.level.byte, d.trigger.byte, d.shorthand.byte, d.destination]

def Instr.operandBytes : Instr → List Byte
  | .lvtDecode k raw => k.code :: wordBytes raw
  | .lvtEncode e => entryBytes e
  | .lvtVector e => entryBytes e
  | .lvtDeliveryMode e => entryBytes e
  | .lvtDeliveryStatus raw => wordBytes raw
  | .lvtPolarity e => entryBytes e
  | .lvtTriggerMode e => entryBytes e
  | .lvtMask e => entryBytes e
  | .lvtTimerMode e => entryBytes e
  | .lvtSetVector e v => entryBytes e ++ [v]
  | .lvtSetDeliveryMode e m => entryBytes e ++ [m.byte]
  | .lvtSetPolarity e p => entryBytes e ++ [p.byte]
  | .lvtSetTriggerMode e t => entryBytes e ++ [t.byte]
  | .lvtSetMask e b => entryBytes e ++ [boolByte b]
  | .lvtSetTimerMode e m => entryBytes e ++ [m.byte]
  | .lvtNew k => [k.code]
  | .facadeSelect => []
  | .supported => []
  | .initCurrentCpu => []
  | .sendEoi => []
  | .version => []
  | .supportsEoiBroadcastSuppression => []
  | .maxLvtEntries => []
  | .readId => []
  | .setLvt e => entryBytes e
  | .readLvt k => [k.code]
  | .maskAll => []
  | .writeInterruptCommand d => descriptorBytes d
  | .lapicRead32 off => wordBytes off
  | .lapicWrite32 off v => wordBytes off ++ wordBytes v
  | .iorReadReg idx => [idx]
  | .iorWriteReg idx v => idx :: wordBytes v
  | .supportedInterrupts => []
  | .iorInit => []
  | .enable l d => lineBytes l ++ [d]
  | .disable l => lineBytes l
  | .disableAll => []
  | .configure l v d level activeHigh logical mask =>
    lineBytes l ++ [v, d, boolByte level, boolByte activeHigh, boolByte logical, boolByte mask]
  | .vectorOf l => lineBytes l
  | .setVector l v => lineBytes l ++ [v]

/-- The twelve bytes of a request. -/
def encode (i : Instr) : List Byte :=
  let body := i.opcode.selector :: i.operandBytes
  body ++ List.replicate (requestLength - body.length) 0#8

end Sys2Proof
end

