-- ==== Sys2Proof/Machine/State.lean ====
section
/-! DEFINITION. The state of the machine as plain data: the block (the registers, flags, lock and history of
spec/10_state.md), the agents of the calling cores (spec/60_exceptions.md R284, R299), and what the model's schedule
holds (log entry 1). INVENTORY.md lists every field with its rule and reset value. -/

namespace Sys2Proof.Machine

/-! ### Reasons -/

/-- The spec's faults (R281, R282, R283). A fault is RECORDED in the calling core's status and stops that core only
(R284); it is no outcome of the whole machine. -/
inductive FaultReason where
  /-- Neither generation present (R180), or a mapping failed (R70). -/
  | unsupportedConfiguration
  /-- A one-time operation twice, or an operation before its prerequisite (R282). -/
  | orderingViolation
  /-- A router operation on a line outside 0..min(N, LINES_ADDRESSABLE)-1 (R233, R116). -/
  | invalidLine
  /-- An access to the CMCI register of a controller without it (R27). -/
  | absentRegister
  /-- `read_lvt` read a word that does not decode (R193). -/
  | invalidReadback
  deriving DecidableEq, Repr, Inhabited

/-- The spec's refusals (R283). A refusal is RECORDED: it sets the state-wide refused mark (R284) and, in this model,
stops the calling core (log entry 6). -/
inductive RefusalReason where
  /-- An access not 32 bits wide or not aligned to 4 (R65). -/
  | unsupportedAccess
  /-- A window offset with no register (R61, R62). -/
  | unmappedOffset
  /-- A data-register access at an index with no register (R63). -/
  | unmappedIndex
  /-- N > LINES_ADDRESSABLE at `ior_init` (R233). -/
  | unaddressableLines
  /-- A Local Controller Interface operation under Selected(MSR) (R181). -/
  | outOfScopeBackend
  deriving DecidableEq, Repr, Inhabited

/-- The machine's own faults: none of the spec's, which are recorded in State (FaultReason). -/
inductive Fault where
  /-- Raised by every operation when the core it is performed for does not exist, is inside another operation or was
  stopped. Safe: the spec gives such a core no step (R284), and `step` never performs an operation for one. -/
  | callerNotReady
  deriving DecidableEq, Repr, Inhabited

/-- Why a step has no meaning. -/
inductive Refusal where
  /-- Raised by exec for an instruction with no meaning yet; no arm does. Safe. -/
  | notModelled (mnemonic : String)
  /-- Raised by step: the bytes of a request are no operation of the map (R113). Safe. -/
  | undecodable (why : DecodeError)
  /-- Raised by step: a raw access outside both windows is no access to the block (R60). Safe. -/
  | outsideBlock
  deriving DecidableEq, Repr, Inhabited

/-! ### What operations return and what the block records -/

/-- What an operation returns to its caller (R113, result column); `invalidArgument` is R280. -/
inductive Value where
  | unit
  | bool (b : Bool)
  | byte (v : Byte)
  | count (n : Nat)
  | word (w : Word)
  | entry (e : Entry)
  | deliveryMode (m : Option DeliveryMode)
  | deliveryStatus (s : DeliveryStatus)
  | polarity (p : Option Polarity)
  | triggerMode (t : Option TriggerMode)
  | timerMode (m : Option TimerMode)
  | invalidArgument
  deriving DecidableEq, Repr, Inhabited

/-- The source tag of a delivery (R289). -/
inductive Source where
  | lvt (c : CoreId) (k : Kind)
  | line (l : Nat)
  | ipi (c : CoreId)
  deriving DecidableEq, Repr, Inhabited

/-- The delivery mode of an event: an LVT's (R290), an interrupt command's (R292), or `Other(b)` of a redirection entry
(R291). -/
inductive EventMode where
  | fixed | lowestPriority | smi | nmi | init | startUp | extInt
  | other (b : BitVec 3)
  deriving DecidableEq, Repr, Inhabited

/-- The events of the block's history (R289, R293). -/
inductive Event where
  | deliver (source : Source) (targets : List CoreId) (vector : Byte) (mode : EventMode) (trigger : TriggerMode)
  | eoi (c : CoreId)
  deriving DecidableEq, Repr, Inhabited

/-! ### The block -/

/-- The seven stored LVT words of one core (R26). -/
structure LvtRegs where
  cmci    : Word
  timer   : Word
  thermal : Word
  perfMon : Word
  lint0   : Word
  lint1   : Word
  error   : Word
  deriving DecidableEq, Repr, Inhabited

/-- One core's local-controller register file and init flag (R23, R25). -/
structure Lapic where
  inited     : Bool
  idReserved : BitVec 24
  svr        : Word
  icrLo      : Word
  icrHi      : Word
  lvt        : LvtRegs
  deriving DecidableEq, Repr, Inhabited

/-- The two stored words of one redirection entry (R32). -/
structure Rte where
  lo : Word
  hi : Word
  deriving DecidableEq, Repr, Inhabited

/-- The Enable-Type flag (R21). -/
inductive EnableType where
  | unselected | mmio | msr
  deriving DecidableEq, Repr, Inhabited

/-- The Facade once-state (R22). -/
inductive OnceState where
  | notRun | completed
  deriving DecidableEq, Repr, Inhabited

/-- The device lock (R33). -/
inductive LockState where
  | free
  | held (c : CoreId)
  deriving DecidableEq, Repr, Inhabited

/-- The block: its parameters, which no step changes (log entry 3), and every state element of spec/10_state.md.
`iorRunner` is the run-once primitive's record of a running `ior_init` (R74); `drawCount` counts the free values taken
(the model's own, log entry 5). -/
structure Block where
  cfg        : Config
  enableType : EnableType
  facadeOnce : OnceState
  lapics     : List Lapic
  iorInited  : Bool
  iorRunner  : Option CoreId
  iorIndex   : Byte
  rtes       : List Rte
  iorLock    : LockState
  history    : List Event
  drawCount  : Nat
  deriving DecidableEq, Repr, Inhabited

/-! ### The operations as sequences of single actions -/

/-- One raw 32-bit or other access to a window (R64, R65): address, width in bytes, and the word written, none for a
read. -/
structure Access where
  addr  : Nat
  width : Nat
  value : Option Word
  deriving DecidableEq, Repr, Inhabited

/-- The word a write writes, given the word last read (the pseudocode's local `w`). -/
inductive Src where
  /-- A word fixed by the arguments. -/
  | const (w : Word)
  /-- `w | bit(16)` (R194, R238). -/
  | setMaskBit
  /-- `rte_lo_word(w[7:0], flags)` (R237, R238). -/
  | vectorWith (flags : Word)
  /-- The word of `set_vector` (R242). -/
  | replaceVector (v : Byte)
  /-- `f(w)` for an `ARM_WRITES` item (R186). -/
  | arm (f : ArmFn)
  deriving DecidableEq, Repr, Inhabited

/-- What an operation returns, given the word last read. -/
inductive Ret where
  /-- A value fixed by the arguments and parameters. -/
  | const (v : Value)
  /-- The word itself (R183, R230). -/
  | word
  /-- `w[7:0]` (R188, R241). -/
  | lowByte
  /-- `w[31:24]` (R191). -/
  | topByte
  /-- `w[24] == 1` (R189). -/
  | suppression
  /-- `zext_9(w[23:16]) + 1` (R190, R232). -/
  | count
  /-- `Entry{k, w}` (R193). -/
  | entry (k : Kind)
  deriving DecidableEq, Repr, Inhabited

/-- The single actions of the pseudocode of spec/41_local_controller.md and spec/42_io_router.md. Each is one atomic
transition (spec/20_memory.md R67); an operation is a list of them. -/
inductive Micro where
  /-- `dispatch` (R181). -/
  | dispatch
  /-- The per-core prerequisite (R182). -/
  | requireInited
  /-- `if lapic_inited[c]: fault OrderingViolation` (R186). -/
  | requireNotInited
  /-- Map the local-controller window (R186, R70). -/
  | mapLapic
  /-- `lapic_inited[c] <- true` (R186). -/
  | markInited
  /-- The whole of `facade_select` (R180). -/
  | facadeSelect
  /-- `if k == CMCI and max_lvt_entries() < 7: fault AbsentRegister` (R192, R193). -/
  | requireLvt (k : Kind)
  /-- `w <- lapic_read32(off)` (R183). -/
  | lapicRead (off : Word)
  /-- `lapic_write32(off, …)` (R183). -/
  | lapicWrite (off : Word) (src : Src)
  /-- `fault InvalidReadback` unless w decodes in kind k (R193). -/
  | requireDecodes (k : Kind)
  /-- `if not ior_inited: fault OrderingViolation` (R235). -/
  | requireIorInited
  /-- Entry of `ior_init`'s run-once (R74, R234). -/
  | iorOnce
  /-- Map the router window (R234, R70). -/
  | mapIor
  /-- `if n > LINES_ADDRESSABLE: refuse UnaddressableLines` (R234). -/
  | requireAddressable
  /-- `ior_inited <- true`, and the run-once is complete (R234, R74). -/
  | iorDone
  /-- `lock(IOR)` (R72). -/
  | lock
  /-- `unlock(IOR)` (R72). -/
  | unlock
  /-- `check_line(l)` (R233). -/
  | requireLine (l : Nat)
  /-- `MemWrite(IOR_BASE + IOREGSEL_OFF, 4, zext_32(idx))` (R230). -/
  | indexWrite (idx : Byte)
  /-- `w <- MemRead(IOR_BASE + IOWIN_OFF, 4)` (R230). -/
  | dataRead
  /-- `MemWrite(IOR_BASE + IOWIN_OFF, 4, …)` (R230). -/
  | dataWrite (src : Src)
  /-- A raw access to a window (R64, R65). -/
  | access (a : Access)
  deriving DecidableEq, Repr, Inhabited

/-- An operation: its actions in order, and what it returns. -/
structure Prog where
  body : List Micro
  ret  : Ret
  deriving DecidableEq, Repr, Inhabited

/-! ### The agents and the schedule -/

/-- What a core performs: an operation of the map or one raw access. -/
inductive Work where
  | call (i : Instr)
  | access (a : Access)
  deriving DecidableEq, Repr, Inhabited

/-- A core's agent (R284, R72, R74): idle; inside an operation, with the word last read, the actions left and what it
will return; stopped by a recorded fault or a recorded refusal, with the work that raised it. -/
inductive Status where
  | idle
  | running (work : Work) (w : Word) (rest : List Micro) (ret : Ret)
  | faulted (reason : FaultReason) (work : Work)
  | refused (reason : RefusalReason) (work : Work)
  deriving DecidableEq, Repr, Inhabited

/-- A request of a core's program: the twelve bytes of an operation (Decode.lean), or a raw access. -/
inductive Request where
  | op (bytes : List Byte)
  | access (a : Access)
  deriving DecidableEq, Repr, Inhabited

/-- One core: its agent, the requests it has still to make in program order, and the value its last completed operation
returned. -/
structure Agent where
  status  : Status
  program : List Request
  result  : Option Value
  deriving DecidableEq, Repr, Inhabited

/-- Who moves next (log entry 1): a core performs its next request, or the rest of the one it is inside, as far as it
can without waiting; a core performs one single action; a local event (R290); a line assertion (R291). -/
inductive Turn where
  | op (c : CoreId)
  | micro (c : CoreId)
  | localEvent (c : CoreId) (k : Kind)
  | lineAssert (l : Nat)
  deriving DecidableEq, Repr, Inhabited

/-- The machine. `refusedMark` is R284's; `caller` is the core the step acts for and `turns` the schedule (the model's
own, log entry 1). -/
structure State where
  block       : Block
  agents      : List Agent
  refusedMark : Bool
  caller      : CoreId
  turns       : List Turn
  deriving DecidableEq, Repr, Inhabited

/-! ### Reset -/

/-- What R320 leaves unspecified at reset, for one core's controller. -/
structure LapicContents where
  idReserved : BitVec 24
  svr        : Word
  icrLo      : Word
  icrHi      : Word
  lvt        : LvtRegs
  deriving DecidableEq, Repr, Inhabited

/-- What R320 leaves unspecified at reset: every controller's contents, every entry, the index register; and where the
free values start. -/
structure PowerOn where
  lapics    : List LapicContents
  rtes      : List Rte
  index     : Byte
  drawCount : Nat
  deriving DecidableEq, Repr, Inhabited

/-- A local controller after reset with the given unspecified contents (R320). -/
def Lapic.powerOn (u : LapicContents) : Lapic :=
  { inited := false, idReserved := u.idReserved, svr := u.svr, icrLo := u.icrLo, icrHi := u.icrHi, lvt := u.lvt }

/-- The block after reset, for any parameters and any unspecified contents (R320). -/
def Block.powerOn (cfg : Config) (u : PowerOn) : Block :=
  { cfg := cfg
    enableType := .unselected
    facadeOnce := .notRun
    lapics := (List.range cfg.cores.length).map fun c => Lapic.powerOn (u.lapics.getD c default)
    iorInited := false
    iorRunner := none
    iorIndex := u.index
    rtes := (List.range (numLines cfg)).map fun l => u.rtes.getD l default
    iorLock := .free
    history := []
    drawCount := u.drawCount }

/-- The machine after reset, for any parameters and any unspecified contents (R320): no agent inside an operation,
nothing recorded, nothing scheduled (R321). -/
def State.powerOn (cfg : Config) (u : PowerOn) : State :=
  { block := Block.powerOn cfg u
    agents := (List.range cfg.cores.length).map fun _ => { status := .idle, program := [], result := none }
    refusedMark := false
    caller := 0
    turns := [] }

/-- The one reset state the host runs from: the reference parameters (log entry 3) and every unspecified register zero
(DESIGN CHOICE, log entry 4). -/
def State.reset : State :=
  State.powerOn Config.reference { lapics := [], rtes := [], index := 0#8, drawCount := 0 }

end Sys2Proof.Machine
end

