-- ==== Sys2Proof/Machine/Ops.lean ====
section
/-! DEFINITION. The named operations over the block and the agents: register reads and writes, the window accesses, the
lock and the run-once, the single actions of an operation, running an operation, recording a fault or a refusal (the
block's one kind of exception, spec/60_exceptions.md R284, R287), and the deliveries (R290 to R293). -/

namespace Sys2Proof.Machine

/-! ### Fields by name -/

/-- Core c's controller; a core that does not exist has the default one, and no request of such a core is performed. -/
def Block.lapic (b : Block) (c : CoreId) : Lapic := b.lapics.getD c default

def Block.setLapic (b : Block) (c : CoreId) (l : Lapic) : Block := { b with lapics := b.lapics.set c l }

/-- Line l's entry; a line that does not exist has the default one, and no operation reaches it. -/
def Block.rte (b : Block) (l : Nat) : Rte := b.rtes.getD l default

def Block.setRte (b : Block) (l : Nat) (e : Rte) : Block := { b with rtes := b.rtes.set l e }

def LvtRegs.get (r : LvtRegs) : Kind → Word
  | .cmci => r.cmci
  | .timer => r.timer
  | .thermal => r.thermal
  | .perfMon => r.perfMon
  | .lint0 => r.lint0
  | .lint1 => r.lint1
  | .error => r.error

def LvtRegs.put (r : LvtRegs) (k : Kind) (w : Word) : LvtRegs :=
  match k with
  | .cmci => { r with cmci := w }
  | .timer => { r with timer := w }
  | .thermal => { r with thermal := w }
  | .perfMon => { r with perfMon := w }
  | .lint0 => { r with lint0 := w }
  | .lint1 => { r with lint1 := w }
  | .error => { r with error := w }

/-- `stored[k]` of core c (R26). -/
def Block.lvt (b : Block) (c : CoreId) (k : Kind) : Word := (b.lapic c).lvt.get k

def Block.setLvt (b : Block) (c : CoreId) (k : Kind) (w : Word) : Block :=
  b.setLapic c { b.lapic c with lvt := (b.lapic c).lvt.put k w }

/-- Appends to the event history (R289). -/
def Block.record (b : Block) (e : Event) : Block := { b with history := b.history ++ [e] }

/-- The next free word (R9). -/
def Block.drawn (b : Block) : Word := Config.drawWord b.drawCount

/-- One free value has been taken. -/
def Block.drew (b : Block) : Block := { b with drawCount := b.drawCount + 1 }

/-! ### The outcome of one action -/

/-- One action happened with a result, or waits (R72, R74), or faults or is refused (R283). -/
inductive Res (α : Type) where
  | ok (a : α) (b : Block)
  | wait
  | fault (r : FaultReason)
  | refuse (r : RefusalReason)
  deriving DecidableEq, Repr, Inhabited

/-- The result of a write, which leaves the operation's local word as it is. -/
def Res.keeping (w : Word) : Res Unit → Res Word
  | .ok _ b => .ok w b
  | .wait => .wait
  | .fault r => .fault r
  | .refuse r => .refuse r

/-! ### Deliveries -/

/-- The event's mode for an LVT delivery mode (R290). -/
def EventMode.ofDelivery : DeliveryMode → EventMode
  | .fixed => .fixed
  | .smi => .smi
  | .nmi => .nmi
  | .init => .init
  | .startUp => .startUp
  | .extInt => .extInt

/-- The event's mode for an interrupt command (R292). -/
def EventMode.ofIpi : IpiMode → EventMode
  | .fixed => .fixed
  | .lowestPriority => .lowestPriority
  | .smi => .smi
  | .nmi => .nmi
  | .init => .init
  | .startUp => .startUp

/-- `rte_mode` (R291). -/
def rteMode (b : BitVec 3) : EventMode := if b = 0#3 then .fixed else .other b

/-- The delivery mode of a local delivery, and the block after the draw a reserved code takes (R290). -/
def Block.localMode (b : Block) (k : Kind) (w : Word) : EventMode × Block :=
  if k.hasDeliveryMode then
    match dmFromBits (modeField w) with
    | some m => (.ofDelivery m, b)
    | none => (.ofDelivery (Config.drawDeliveryMode b.drawCount), b.drew)
  else (.fixed, b)

/-- The trigger of a local delivery (R290). -/
def localTrigger (k : Kind) (w : Word) : TriggerMode := if isPin k then triggerOfBit (bitOf w 15) else .edge

/-- `local_event(c, k)` (R290): a masked source delivers nothing now (log entry 15), nor does a CMCI source whose
register does not exist (R27; log entry 16). -/
def Block.localEvent (b : Block) (c : CoreId) (k : Kind) : Block :=
  let w := b.lvt c k
  if !lvtPresent b.cfg c k || bitOf w 16 then b
  else (b.localMode k w).2.record
    (.deliver (.lvt c k) [c] (vectorField w) (b.localMode k w).1 (localTrigger k w))

/-- The targets of a line's entry (R291). -/
def lineTargets (cfg : Config) (e : Rte) : List CoreId :=
  if bitOf e.lo 11 then logicalTargets cfg (topByte e.hi) else physicalTargets cfg (topByte e.hi)

/-- `line_assert(l)` (R291): a masked line delivers nothing now (log entry 15). -/
def Block.lineAssert (b : Block) (l : Nat) : Block :=
  let e := b.rte l
  if bitOf e.lo 16 then b
  else b.record (.deliver (.line l) (lineTargets b.cfg e) (vectorField e.lo) (rteMode (modeField e.lo))
    (triggerOfBit (bitOf e.lo 15)))

/-- The mode of the interrupt command in an ICR-low word, and the block after the draw a reserved code takes (R110,
R292; log entry 14). -/
def Block.ipiMode (b : Block) (lo : Word) : EventMode × Block :=
  match ipiModeFromBits (modeField lo) with
  | some m => (.ofIpi m, b)
  | none => (.ofIpi (Config.drawIpiMode b.drawCount), b.drew)

/-- The delivery of an interrupt command of core c (R292). -/
def Event.isCommandOf (c : CoreId) : Event → Bool
  | .deliver (.ipi c') _ _ _ _ => c' == c
  | .deliver (.lvt _ _) _ _ _ _ => false
  | .deliver (.line _) _ _ _ _ => false
  | .eoi _ => false

/-- Core c has issued an interrupt command before. -/
def Block.commanded (b : Block) (c : CoreId) : Bool := b.history.any (Event.isCommandOf c)

/-- The delivery of an interrupt command of core c: the core's first is recorded (R292); an earlier one may still be
pending, and then R333 leaves open whether this one is delivered, so a free value decides (log entry 27). -/
def Block.recordCommand (b : Block) (c : CoreId) (e : Event) : Block :=
  if b.commanded c then (if Config.drawDelivered b.drawCount then b.drew.record e else b.drew) else b.record e

/-- The effect of an ICR-low write of core c: the word is stored and the command it and ICR high describe is issued
(R195, R292). -/
def Block.issueCommand (b : Block) (c : CoreId) (lo : Word) : Block :=
  let stored := b.setLapic c { b.lapic c with icrLo := lo }
  (stored.ipiMode lo).2.recordCommand c
    (.deliver (.ipi c)
      (ipiTargets b.cfg c (shorthandFromBits (lo.extractLsb' 18 2)) (bitOf lo 11) (topByte (b.lapic c).icrHi))
      (vectorField lo) (stored.ipiMode lo).1 (triggerOfBit (bitOf lo 15)))

/-! ### Local-controller registers -/

/-- A read of a register of core c's controller (R25, R26, R27). -/
def readLapicReg (c : CoreId) (r : LapicReg) (b : Block) : Res Word :=
  match r with
  | .id => .ok (apicId b.cfg c ++ (b.lapic c).idReserved) b
  | .version => .ok (lapicVersionWord b.cfg c) b
  | .eoi => .ok b.drawn b.drew
  | .svr => .ok (b.lapic c).svr b
  | .icrLo => .ok (readBack icrLoMask (b.lapic c).icrLo b.drawn) b.drew
  | .icrHi => .ok (b.lapic c).icrHi b
  | .lvt k =>
    if lvtPresent b.cfg c k then .ok (readBack (kindMask k) (b.lvt c k) b.drawn) b.drew else .fault .absentRegister

/-- A write of a register of core c's controller: ID and Version ignore it (R183), EOI signals end of interrupt (R187),
ICR low issues the command (R195), the others store the word. -/
def writeLapicReg (c : CoreId) (r : LapicReg) (v : Word) (b : Block) : Res Unit :=
  match r with
  | .id => .ok () b
  | .version => .ok () b
  | .eoi => .ok () (b.record (.eoi c))
  | .svr => .ok () (b.setLapic c { b.lapic c with svr := v })
  | .icrLo => .ok () (b.issueCommand c v)
  | .icrHi => .ok () (b.setLapic c { b.lapic c with icrHi := v })
  | .lvt k => if lvtPresent b.cfg c k then .ok () (b.setLvt c k v) else .fault .absentRegister

/-- The register a 32-bit access of the local-controller window reaches, or the refusal (R61, R65). -/
def lapicTarget (cfg : Config) (off : Word) : Except RefusalReason LapicReg :=
  if (cfg.lapicBase + off.toNat) % 4 ≠ 0 then .error .unsupportedAccess
  else
    match lapicRegAt cfg off with
    | some r => .ok r
    | none => .error .unmappedOffset

/-- `lapic_read32(off)` by core c (R183). -/
def lapicRead32 (c : CoreId) (off : Word) (b : Block) : Res Word :=
  match lapicTarget b.cfg off with
  | .ok r => readLapicReg c r b
  | .error e => .refuse e

/-- `lapic_write32(off, v)` by core c (R183). -/
def lapicWrite32 (c : CoreId) (off : Word) (v : Word) (b : Block) : Res Unit :=
  match lapicTarget b.cfg off with
  | .ok r => writeLapicReg c r v b
  | .error e => .refuse e

/-! ### The router's registers -/

/-- A write of the index register stores the low byte (R62). -/
def indexWrite (v : Word) (b : Block) : Block := { b with iorIndex := vectorField v }

/-- A read of the index register: its byte, drawn bits above it (R30, R64; log entry 12). -/
def indexRead (b : Block) : Res Word := .ok (readBack indexMask (b.iorIndex.setWidth 32) b.drawn) b.drew

/-- A read of the data register: `ior.reg[ior_index]` (R31, R32, R63). -/
def dataRead (b : Block) : Res Word :=
  match iorRegAt b.cfg b.iorIndex with
  | some .version => .ok b.cfg.iorVersionWord b
  | some (.lo l) => .ok (readBack rteLoMask (b.rte l).lo b.drawn) b.drew
  | some (.hi l) => .ok (readBack rteHiMask (b.rte l).hi b.drawn) b.drew
  | none => .refuse .unmappedIndex

/-- A write of the data register; the version register ignores it (R31, R32, R63). -/
def dataWrite (v : Word) (b : Block) : Res Unit :=
  match iorRegAt b.cfg b.iorIndex with
  | some .version => .ok () b
  | some (.lo l) => .ok () (b.setRte l { b.rte l with lo := v })
  | some (.hi l) => .ok () (b.setRte l { b.rte l with hi := v })
  | none => .refuse .unmappedIndex

/-! ### Raw window accesses -/

/-- The address lies in the local-controller window (R61). -/
def inLapicWindow (cfg : Config) (addr : Nat) : Bool :=
  decide (cfg.lapicBase ≤ addr) && decide (addr < cfg.lapicBase + cfg.lapicWindowSize)

/-- The address lies in the router window (R62). -/
def inIorWindow (cfg : Config) (addr : Nat) : Bool :=
  decide (cfg.iorBase ≤ addr) && decide (addr < cfg.iorBase + cfg.iorWindowSize)

/-- Another core holds the device lock (R72). -/
def Block.lockedOut (b : Block) (c : CoreId) : Bool :=
  match b.iorLock with
  | .free => false
  | .held c' => c' != c

/-- A 32-bit access of the router window at an offset (R62). -/
def iorWindowAccess (off : Nat) (value : Option Word) (b : Block) : Res Word :=
  if off = b.cfg.iorRegSelOff.toNat then
    match value with
    | some v => .ok v (indexWrite v b)
    | none => indexRead b
  else if off = b.cfg.iorWinOff.toNat then
    match value with
    | some v => (dataWrite v b).keeping v
    | none => dataRead b
  else .refuse .unmappedOffset

/-- A raw access by core c (R61 to R65). A router-window access waits while another core holds the lock (R72). Log
entry 11. -/
def rawAccess (c : CoreId) (a : Access) (b : Block) : Res Word :=
  if a.width ≠ 4 ∨ a.addr % 4 ≠ 0 then .refuse .unsupportedAccess
  else if inLapicWindow b.cfg a.addr then
    let off : Word := BitVec.ofNat 32 (a.addr - b.cfg.lapicBase)
    match a.value with
    | some v => (lapicWrite32 c off v b).keeping v
    | none => lapicRead32 c off b
  else if inIorWindow b.cfg a.addr then
    if b.lockedOut c then .wait else iorWindowAccess (a.addr - b.cfg.iorBase) a.value b
  else .refuse .unmappedOffset

/-! ### Source words and return values -/

/-- The word a write writes, from the word last read. -/
def Src.eval (cfg : Config) (w : Word) : Src → Word
  | .const v => v
  | .setMaskBit => w ||| flagDisabled
  | .vectorWith flags => rteLoWord (vectorField w) flags
  | .replaceVector v => setVectorWord w v
  | .arm f => armWord cfg f w

/-- What an operation returns, from the word last read. -/
def Ret.value (w : Word) : Ret → Value
  | .const v => v
  | .word => .word w
  | .lowByte => .byte (vectorField w)
  | .topByte => .byte (Machine.topByte w)
  | .suppression => .bool (bitOf w 24)
  | .count => .count (countField w)
  | .entry k => .entry ⟨k, w⟩

/-! ### The single actions -/

/-- `dispatch` (R181): the operation goes on only under Selected(MMIO). -/
def dispatchTo (w : Word) (b : Block) : Res Word :=
  match b.enableType with
  | .unselected => .fault .orderingViolation
  | .msr => .refuse .outOfScopeBackend
  | .mmio => .ok w b

/-- `facade_select` (R180): one transition, so no second caller can arrive while it runs (R74; log entry 21). -/
def facadeSelect (w : Word) (b : Block) : Res Word :=
  match b.facadeOnce with
  | .completed => .fault .orderingViolation
  | .notRun =>
    if b.cfg.msrGenPresent then .ok w { b with enableType := .msr, facadeOnce := .completed }
    else if b.cfg.mmioGenPresent then .ok w { b with enableType := .mmio, facadeOnce := .completed }
    else .fault .unsupportedConfiguration

/-- The entry of `ior_init`'s run-once (R74): a caller after completion faults, a caller while another core runs it
waits, and otherwise the caller is the one that runs it. That a waiting or later caller is the one also where the run before
it ended in a fault or a refusal, and so never completed, is the model's choice (log entry 30). -/
def iorOnce (c : CoreId) (w : Word) (b : Block) : Res Word :=
  if b.iorInited then .fault .orderingViolation
  else
    match b.iorRunner with
    | none => .ok w { b with iorRunner := some c }
    | some _ => .wait

/-- `lock(IOR)` (R72). -/
def lockIor (c : CoreId) (w : Word) (b : Block) : Res Word :=
  match b.iorLock with
  | .free => .ok w { b with iorLock := .held c }
  | .held _ => .wait

/-- A check that faults where the condition does not hold. -/
def checkOr (ok : Bool) (r : FaultReason) (w : Word) (b : Block) : Res Word := if ok then .ok w b else .fault r

/-- One action of core c's operation; w is the word last read. -/
def microStep (c : CoreId) (m : Micro) (w : Word) (b : Block) : Res Word :=
  match m with
  | .dispatch => dispatchTo w b
  | .requireInited => checkOr (b.lapic c).inited .orderingViolation w b
  | .requireNotInited => checkOr (!(b.lapic c).inited) .orderingViolation w b
  | .mapLapic => checkOr (coreParams b.cfg c).lapicMapOk .unsupportedConfiguration w b
  | .markInited => .ok w (b.setLapic c { b.lapic c with inited := true })
  | .facadeSelect => facadeSelect w b
  | .requireLvt k => checkOr (lvtPresent b.cfg c k) .absentRegister w b
  | .lapicRead off => lapicRead32 c off b
  | .lapicWrite off src => (lapicWrite32 c off (src.eval b.cfg w) b).keeping w
  | .requireDecodes k => checkOr (lvtDecode k w).isSome .invalidReadback w b
  | .requireIorInited => checkOr b.iorInited .orderingViolation w b
  | .iorOnce => iorOnce c w b
  | .mapIor => checkOr (coreParams b.cfg c).iorMapOk .unsupportedConfiguration w b
  | .requireAddressable =>
    if countField w ≤ linesAddressable b.cfg then .ok w b else .refuse .unaddressableLines
  | .iorDone => .ok w { b with iorInited := true, iorRunner := none }
  | .lock => lockIor c w b
  | .unlock => .ok w { b with iorLock := .free }
  | .requireLine l => checkOr (decide (l < min (numLines b.cfg) (linesAddressable b.cfg))) .invalidLine w b
  | .indexWrite idx => .ok w (indexWrite (idx.setWidth 32) b)
  | .dataRead => dataRead b
  | .dataWrite src => (dataWrite (src.eval b.cfg w) b).keeping w
  | .access a => rawAccess c a b

/-! ### Running an operation -/

/-- A core that a fault or a refusal stops no longer holds the lock or runs the initialization: its operation has ended
(R334, R74; log entry 7). That a waiting or later `ior_init` then runs the initialization itself is the model's choice (log
entry 30). -/
def Block.release (b : Block) (c : CoreId) : Block :=
  { b with
    iorLock := if b.iorLock = .held c then .free else b.iorLock
    iorRunner := if b.iorRunner = some c then none else b.iorRunner }

/-- Where a run of actions ends: all done, waiting before one of them, or stopped. -/
inductive Halt where
  | done (w : Word) (b : Block)
  | blocked (w : Word) (rest : List Micro) (b : Block)
  | fault (r : FaultReason) (b : Block)
  | refuse (r : RefusalReason) (b : Block)
  deriving DecidableEq, Repr, Inhabited

/-- The actions of one operation in order, as far as they go without waiting (R71). -/
def runBody (c : CoreId) : List Micro → Word → Block → Halt
  | [], w, b => .done w b
  | m :: ms, w, b =>
    match microStep c m w b with
    | .ok w' b' => runBody c ms w' b'
    | .wait => .blocked w (m :: ms) b
    | .fault r => .fault r (b.release c)
    | .refuse r => .refuse r (b.release c)

def State.setStatus (s : State) (c : CoreId) (st : Status) : State :=
  { s with agents := s.agents.modify c fun a => { a with status := st } }

/-- Core c's operation has completed and returned v (R280: an InvalidArgument is such a value). -/
def State.complete (s : State) (c : CoreId) (v : Value) (b : Block) : State :=
  { s with block := b, agents := s.agents.modify c fun a => { a with status := .idle, result := some v } }

/-- Core c is inside an operation, with `rest` still to do. -/
def State.suspend (s : State) (c : CoreId) (work : Work) (w : Word) (rest : List Micro) (ret : Ret) (b : Block) :
    State :=
  { s.setStatus c (.running work w rest ret) with block := b }

/-- A fault: recorded with its reason and operation, the core's agent stopped; the other agents go on (R284). -/
def State.recordFault (s : State) (c : CoreId) (r : FaultReason) (work : Work) (b : Block) : State :=
  { s.setStatus c (.faulted r work) with block := b }

/-- A refusal: the state-wide refused mark is set (R284) and the core's agent stopped (log entry 6). -/
def State.recordRefusal (s : State) (c : CoreId) (r : RefusalReason) (work : Work) (b : Block) : State :=
  { s.setStatus c (.refused r work) with block := b, refusedMark := true }

/-- The state after core c's work ran as far as it went. -/
def State.settle (s : State) (c : CoreId) (work : Work) (ret : Ret) : Halt → State
  | .done w b => s.complete c (ret.value w) b
  | .blocked w rest b => s.suspend c work w rest ret b
  | .fault r b => s.recordFault c r work b
  | .refuse r b => s.recordRefusal c r work b

def State.status (s : State) (c : CoreId) : Option Status := (s.agents[c]?).map Agent.status

/-- The calling core performs a piece of work from its beginning, as far as it goes without waiting. The word last read
starts as zero, and no operation uses it before a read. -/
def State.perform (s : State) (work : Work) (p : Prog) : Host.Outcome State Fault Refusal :=
  if s.status s.caller = some .idle then
    .next (s.settle s.caller work p.ret (runBody s.caller p.body 0#32 s.block))
  else .fault .callerNotReady

/-- One single action of the operation core c is inside; a core that waits stays as it is, and one that is inside no
operation has nothing to do (R72, R74, R284). -/
def State.advance (s : State) (c : CoreId) : State :=
  match s.status c with
  | some (.running work w rest ret) =>
    match rest with
    | [] => s.complete c (ret.value w) s.block
    | m :: ms =>
      match microStep c m w s.block with
      | .ok w' b' => s.suspend c work w' ms ret b'
      | .wait => s
      | .fault r => s.recordFault c r work (s.block.release c)
      | .refuse r => s.recordRefusal c r work (s.block.release c)
  | some .idle => s
  | some (.faulted _ _) => s
  | some (.refused _ _) => s
  | none => s

end Sys2Proof.Machine
end

