-- ==== Sys2Proof/Machine/Program.lean ====
section
/-! DEFINITION. The pseudocode of every operation as its list of actions (spec/41_local_controller.md,
spec/42_io_router.md), and what it returns. A codec operation has no action (spec/40_lvt_codec.md: pure). -/

namespace Sys2Proof.Machine

/-! ### Shared shapes -/

/-- A pure operation (R130). -/
def progPure (v : Value) : Prog := { body := [], ret := .const v }

/-- `Ok e` or InvalidArgument (R280). -/
def entryOrInvalid : Option Entry → Value
  | some e => .entry e
  | none => .invalidArgument

/-- A Local Controller Interface operation after its two prerequisites (R181, R182). -/
def progLmi (body : List Micro) (ret : Ret) : Prog := { body := [.dispatch, .requireInited] ++ body, ret := ret }

/-- `ior_read_reg(idx)` (R230). -/
def readIorReg (idx : Byte) : List Micro := [.indexWrite idx, .dataRead]

/-- `ior_write_reg(idx, v)` (R230). -/
def writeIorReg (idx : Byte) (src : Src) : List Micro := [.indexWrite idx, .dataWrite src]

/-- `write_rte(l, lo, hi)`: the low register first (R236). -/
def writeRte (cfg : Config) (l : Nat) (lo hi : Src) : List Micro :=
  writeIorReg (loIndex cfg l) lo ++ writeIorReg (hiIndex cfg l) hi

/-- The frame of a router operation (R235). -/
def progRouter (body : List Micro) (ret : Ret) : Prog :=
  { body := [.requireIorInited, .lock] ++ body ++ [.unlock], ret := ret }

/-- `disable_body(l)` (R238). -/
def disableBody (cfg : Config) (l : Nat) : List Micro :=
  readIorReg (loIndex cfg l) ++
    match cfg.disablePolicy with
    | .preserve => writeIorReg (loIndex cfg l) .setMaskBit
    | .rewrite => writeRte cfg l (.vectorWith flagDisabled) (.const (rteHiWord 0x00#8))

/-- `lock(IOR); disable_body(l); unlock(IOR)` for l = 0 .. n-1 (R234, R239). -/
def disableLines (cfg : Config) (n : Nat) : List Micro :=
  (List.range n).flatMap fun l => [.lock] ++ disableBody cfg l ++ [.unlock]

/-- Reading N under the lock (R234, R239). -/
def readVersionLocked (cfg : Config) : List Micro := [.lock] ++ readIorReg cfg.iorVerIndex ++ [.unlock]

/-- The seven kinds in the order of `mask_all` (R194). -/
def maskOrder : List Kind := [.cmci, .timer, .thermal, .perfMon, .lint0, .lint1, .error]

/-! ### LVT codec (spec/40_lvt_codec.md) -/

/-- R133. -/
def progLvtDecode (k : Kind) (raw : Word) : Prog := progPure (entryOrInvalid (lvtDecode k raw))

/-- R134. -/
def progLvtEncode (e : Entry) : Prog := progPure (.word (lvtEncode e))

/-- R136. -/
def progLvtVector (e : Entry) : Prog := progPure (.byte (lvtVector e))

/-- R137; on an ill-formed entry the conversion raises InvalidArgument (R131, R280; log entry 19). -/
def progLvtDeliveryMode (e : Entry) : Prog :=
  progPure <| match lvtDeliveryMode e with
    | none => .deliveryMode none
    | some none => .invalidArgument
    | some (some m) => .deliveryMode (some m)

/-- R138. -/
def progLvtDeliveryStatus (raw : Word) : Prog := progPure (.deliveryStatus (lvtDeliveryStatus raw))

/-- R139. -/
def progLvtPolarity (e : Entry) : Prog := progPure (.polarity (lvtPolarity e))

/-- R140. -/
def progLvtTriggerMode (e : Entry) : Prog := progPure (.triggerMode (lvtTriggerMode e))

/-- R141. -/
def progLvtMask (e : Entry) : Prog := progPure (.bool (lvtMask e))

/-- R142; on an ill-formed entry the conversion raises InvalidArgument (R132, R280; log entry 19). -/
def progLvtTimerMode (e : Entry) : Prog :=
  progPure <| match lvtTimerMode e with
    | none => .timerMode none
    | some none => .invalidArgument
    | some (some m) => .timerMode (some m)

/-- R143. -/
def progLvtSetVector (e : Entry) (v : Byte) : Prog := progPure (.entry (lvtSetVector e v))

/-- R144. -/
def progLvtSetDeliveryMode (e : Entry) (m : DeliveryMode) : Prog := progPure (entryOrInvalid (lvtSetDeliveryMode e m))

/-- R145. -/
def progLvtSetPolarity (e : Entry) (p : Polarity) : Prog := progPure (entryOrInvalid (lvtSetPolarity e p))

/-- R146. -/
def progLvtSetTriggerMode (e : Entry) (t : TriggerMode) : Prog := progPure (entryOrInvalid (lvtSetTriggerMode e t))

/-- R147. -/
def progLvtSetMask (e : Entry) (b : Bool) : Prog := progPure (.entry (lvtSetMask e b))

/-- R148. -/
def progLvtSetTimerMode (e : Entry) (m : TimerMode) : Prog := progPure (entryOrInvalid (lvtSetTimerMode e m))

/-- R135. -/
def progLvtNew (k : Kind) : Prog := progPure (.entry (lvtNew k))

/-! ### Facade and local controller (spec/41_local_controller.md) -/

/-- R180. -/
def progFacadeSelect : Prog := { body := [.facadeSelect], ret := .const .unit }

/-- R184. -/
def progSupported (cfg : Config) : Prog := progPure (.bool cfg.mmioGenPresent)

/-- The read-modify-write of one `ARM_WRITES` item (R186). -/
def armActions (a : ArmWrite) : List Micro := [.lapicRead a.off, .lapicWrite a.off (.arm a.fn)]

/-- R186. -/
def progInitCurrentCpu (cfg : Config) : Prog :=
  if cfg.mmioGenPresent then
    { body := [.dispatch, .requireNotInited, .mapLapic] ++ cfg.armWrites.flatMap armActions ++ [.markInited]
      ret := .const (.bool true) }
  else { body := [.dispatch, .requireNotInited], ret := .const (.bool false) }

/-- R187. -/
def progSendEoi (cfg : Config) : Prog := progLmi [.lapicWrite cfg.off.eoi (.const 0#32)] (.const .unit)

/-- R188. -/
def progVersion (cfg : Config) : Prog := progLmi [.lapicRead cfg.off.version] .lowByte

/-- R189. -/
def progSuppression (cfg : Config) : Prog := progLmi [.lapicRead cfg.off.version] .suppression

/-- R190. -/
def progMaxLvtEntries (cfg : Config) : Prog := progLmi [.lapicRead cfg.off.version] .count

/-- R191. -/
def progReadId (cfg : Config) : Prog := progLmi [.lapicRead cfg.off.id] .topByte

/-- R192. -/
def progSetLvt (cfg : Config) (e : Entry) : Prog :=
  progLmi [.requireLvt e.kind, .lapicWrite (lvtOffset cfg e.kind) (.const (lvtEncode e))] (.const .unit)

/-- R193. -/
def progReadLvt (cfg : Config) (k : Kind) : Prog :=
  progLmi [.requireLvt k, .lapicRead (lvtOffset cfg k), .requireDecodes k] (.entry k)

/-- The read-modify-write of one kind (R194). -/
def maskActions (cfg : Config) (k : Kind) : List Micro :=
  [.lapicRead (lvtOffset cfg k), .lapicWrite (lvtOffset cfg k) .setMaskBit]

/-- R194. -/
def progMaskAll (cfg : Config) (c : CoreId) : Prog :=
  progLmi ((maskOrder.filter (lvtPresent cfg c)).flatMap (maskActions cfg)) (.const .unit)

/-- R195: ICR high, then ICR low. -/
def progWriteInterruptCommand (cfg : Config) (d : IpiDescriptor) : Prog :=
  progLmi [.lapicWrite cfg.off.icrHi (.const (icrHiWord d)), .lapicWrite cfg.off.icrLo (.const (icrLoWord d))]
    (.const .unit)

/-- R183: one access, with no prerequisite (log entry 10). -/
def progLapicRead32 (off : Word) : Prog := { body := [.lapicRead off], ret := .word }

/-- R183: one access, with no prerequisite (log entry 10). -/
def progLapicWrite32 (off v : Word) : Prog := { body := [.lapicWrite off (.const v)], ret := .const .unit }

/-! ### I/O router (spec/42_io_router.md) -/

/-- R230, called as an operation: inside a router operation's frame (log entry 9). -/
def progIorReadReg (idx : Byte) : Prog := progRouter (readIorReg idx) .word

/-- R230, called as an operation: inside a router operation's frame (log entry 9). -/
def progIorWriteReg (idx : Byte) (v : Word) : Prog := progRouter (writeIorReg idx (.const v)) (.const .unit)

/-- R232. -/
def progSupportedInterrupts (cfg : Config) : Prog := progRouter (readIorReg cfg.iorVerIndex) .count

/-- R234. The lines are 0..n-1 for the n read, which is N (R31, R232; log entry 20). -/
def progIorInit (cfg : Config) : Prog :=
  { body := [.iorOnce, .mapIor] ++ readVersionLocked cfg ++ [.requireAddressable] ++
      disableLines cfg (numLines cfg) ++ [.iorDone]
    ret := .const .unit }

/-- R237. -/
def progEnable (cfg : Config) (l : Nat) (dest : Byte) : Prog :=
  progRouter
    ([.requireLine l] ++ readIorReg (loIndex cfg l) ++ writeRte cfg l (.vectorWith 0#32) (.const (rteHiWord dest)))
    (.const .unit)

/-- R238. -/
def progDisable (cfg : Config) (l : Nat) : Prog :=
  progRouter ([.requireLine l] ++ disableBody cfg l) (.const .unit)

/-- R239, R115. -/
def progDisableAll (cfg : Config) : Prog :=
  { body := [.requireIorInited] ++ readVersionLocked cfg ++
      disableLines cfg (min (numLines cfg) (linesAddressable cfg))
    ret := .const .unit }

/-- R240. -/
def progConfigure (cfg : Config) (l : Nat) (vector dest : Byte) (level activeHigh logical mask : Bool) : Prog :=
  progRouter
    ([.requireLine l] ++
      writeRte cfg l
        (.const (rteLoWord vector (configureFlags level activeHigh logical (mask || !validVector vector))))
        (.const (rteHiWord dest)))
    (.const .unit)

/-- R241. -/
def progVectorOf (cfg : Config) (l : Nat) : Prog :=
  progRouter ([.requireLine l] ++ readIorReg (loIndex cfg l)) .lowByte

/-- R242. -/
def progSetVector (cfg : Config) (l : Nat) (v : Byte) : Prog :=
  progRouter ([.requireLine l] ++ readIorReg (loIndex cfg l) ++ writeIorReg (loIndex cfg l) (.replaceVector v))
    (.const .unit)

/-! ### Every operation -/

/-- The actions of an operation of core c. -/
def progOf (cfg : Config) (c : CoreId) : Instr → Prog
  | .lvtDecode k raw => progLvtDecode k raw
  | .lvtEncode e => progLvtEncode e
  | .lvtVector e => progLvtVector e
  | .lvtDeliveryMode e => progLvtDeliveryMode e
  | .lvtDeliveryStatus raw => progLvtDeliveryStatus raw
  | .lvtPolarity e => progLvtPolarity e
  | .lvtTriggerMode e => progLvtTriggerMode e
  | .lvtMask e => progLvtMask e
  | .lvtTimerMode e => progLvtTimerMode e
  | .lvtSetVector e v => progLvtSetVector e v
  | .lvtSetDeliveryMode e m => progLvtSetDeliveryMode e m
  | .lvtSetPolarity e p => progLvtSetPolarity e p
  | .lvtSetTriggerMode e t => progLvtSetTriggerMode e t
  | .lvtSetMask e b => progLvtSetMask e b
  | .lvtSetTimerMode e m => progLvtSetTimerMode e m
  | .lvtNew k => progLvtNew k
  | .facadeSelect => progFacadeSelect
  | .supported => progSupported cfg
  | .initCurrentCpu => progInitCurrentCpu cfg
  | .sendEoi => progSendEoi cfg
  | .version => progVersion cfg
  | .supportsEoiBroadcastSuppression => progSuppression cfg
  | .maxLvtEntries => progMaxLvtEntries cfg
  | .readId => progReadId cfg
  | .setLvt e => progSetLvt cfg e
  | .readLvt k => progReadLvt cfg k
  | .maskAll => progMaskAll cfg c
  | .writeInterruptCommand d => progWriteInterruptCommand cfg d
  | .lapicRead32 off => progLapicRead32 off
  | .lapicWrite32 off v => progLapicWrite32 off v
  | .iorReadReg idx => progIorReadReg idx
  | .iorWriteReg idx v => progIorWriteReg idx v
  | .supportedInterrupts => progSupportedInterrupts cfg
  | .iorInit => progIorInit cfg
  | .enable l d => progEnable cfg l d
  | .disable l => progDisable cfg l
  | .disableAll => progDisableAll cfg
  | .configure l v d level activeHigh logical mask => progConfigure cfg l v d level activeHigh logical mask
  | .vectorOf l => progVectorOf cfg l
  | .setVector l v => progSetVector cfg l v

/-- One raw access (R64): a read returns the word, a write nothing. -/
def progAccess (a : Access) : Prog :=
  { body := [.access a]
    ret := match a.value with
      | none => .word
      | some _ => .const .unit }

end Sys2Proof.Machine
end

