-- ==== Sys2Proof/Machine/IoRouter.lean ====
section
/-! DEFINITION. The meanings of the I/O router (spec/42_io_router.md R230 to R242).
Each is performed by the calling core: its actions in order, as far as they go without waiting. -/

namespace Sys2Proof.Machine

/-- R230. -/
def execIorReadReg (idx : Byte) (s : State) : Host.Outcome State Fault Refusal :=
  s.perform (.call (.iorReadReg idx)) (progIorReadReg idx)

/-- R230. -/
def execIorWriteReg (idx : Byte) (v : Word) (s : State) : Host.Outcome State Fault Refusal :=
  s.perform (.call (.iorWriteReg idx v)) (progIorWriteReg idx v)

/-- R232. -/
def execSupportedInterrupts (s : State) : Host.Outcome State Fault Refusal :=
  s.perform (.call .supportedInterrupts) (progSupportedInterrupts s.block.cfg)

/-- R234. -/
def execIorInit (s : State) : Host.Outcome State Fault Refusal :=
  s.perform (.call .iorInit) (progIorInit s.block.cfg)

/-- R237. -/
def execEnable (l : Nat) (d : Byte) (s : State) : Host.Outcome State Fault Refusal :=
  s.perform (.call (.enable l d)) (progEnable s.block.cfg l d)

/-- R238. -/
def execDisable (l : Nat) (s : State) : Host.Outcome State Fault Refusal :=
  s.perform (.call (.disable l)) (progDisable s.block.cfg l)

/-- R239. -/
def execDisableAll (s : State) : Host.Outcome State Fault Refusal :=
  s.perform (.call .disableAll) (progDisableAll s.block.cfg)

/-- R240. -/
def execConfigure (l : Nat) (v d : Byte) (level activeHigh logical mask : Bool) (s : State) :
    Host.Outcome State Fault Refusal :=
  s.perform (.call (.configure l v d level activeHigh logical mask))
    (progConfigure s.block.cfg l v d level activeHigh logical mask)

/-- R241. -/
def execVectorOf (l : Nat) (s : State) : Host.Outcome State Fault Refusal :=
  s.perform (.call (.vectorOf l)) (progVectorOf s.block.cfg l)

/-- R242. -/
def execSetVector (l : Nat) (v : Byte) (s : State) : Host.Outcome State Fault Refusal :=
  s.perform (.call (.setVector l v)) (progSetVector s.block.cfg l v)

end Sys2Proof.Machine
end

