-- ==== Sys2Proof/Machine/LocalController.lean ====
section
/-! DEFINITION. The meanings of the Controller Facade and the Local Controller Interface (spec/41_local_controller.md R180 to R195).
Each is performed by the calling core: its actions in order, as far as they go without waiting. -/

namespace Sys2Proof.Machine

/-- R180. -/
def execFacadeSelect (s : State) : Host.Outcome State Fault Refusal :=
  s.perform (.call .facadeSelect) progFacadeSelect

/-- R184. -/
def execSupported (s : State) : Host.Outcome State Fault Refusal :=
  s.perform (.call .supported) (progSupported s.block.cfg)

/-- R186. -/
def execInitCurrentCpu (s : State) : Host.Outcome State Fault Refusal :=
  s.perform (.call .initCurrentCpu) (progInitCurrentCpu s.block.cfg)

/-- R187. -/
def execSendEoi (s : State) : Host.Outcome State Fault Refusal :=
  s.perform (.call .sendEoi) (progSendEoi s.block.cfg)

/-- R188. -/
def execVersion (s : State) : Host.Outcome State Fault Refusal :=
  s.perform (.call .version) (progVersion s.block.cfg)

/-- R189. -/
def execSupportsEoiBroadcastSuppression (s : State) : Host.Outcome State Fault Refusal :=
  s.perform (.call .supportsEoiBroadcastSuppression) (progSuppression s.block.cfg)

/-- R190. -/
def execMaxLvtEntries (s : State) : Host.Outcome State Fault Refusal :=
  s.perform (.call .maxLvtEntries) (progMaxLvtEntries s.block.cfg)

/-- R191. -/
def execReadId (s : State) : Host.Outcome State Fault Refusal :=
  s.perform (.call .readId) (progReadId s.block.cfg)

/-- R192. -/
def execSetLvt (e : Entry) (s : State) : Host.Outcome State Fault Refusal :=
  s.perform (.call (.setLvt e)) (progSetLvt s.block.cfg e)

/-- R193. -/
def execReadLvt (k : Kind) (s : State) : Host.Outcome State Fault Refusal :=
  s.perform (.call (.readLvt k)) (progReadLvt s.block.cfg k)

/-- R194. -/
def execMaskAll (s : State) : Host.Outcome State Fault Refusal :=
  s.perform (.call .maskAll) (progMaskAll s.block.cfg s.caller)

/-- R195. -/
def execWriteInterruptCommand (d : IpiDescriptor) (s : State) : Host.Outcome State Fault Refusal :=
  s.perform (.call (.writeInterruptCommand d)) (progWriteInterruptCommand s.block.cfg d)

/-- R183. -/
def execLapicRead32 (off : Word) (s : State) : Host.Outcome State Fault Refusal :=
  s.perform (.call (.lapicRead32 off)) (progLapicRead32 off)

/-- R183. -/
def execLapicWrite32 (off v : Word) (s : State) : Host.Outcome State Fault Refusal :=
  s.perform (.call (.lapicWrite32 off v)) (progLapicWrite32 off v)

end Sys2Proof.Machine
end

