-- ==== Sys2Proof/Machine/LvtCodec.lean ====
section
/-! DEFINITION. The meanings of the LVT entry codec (spec/40_lvt_codec.md R133 to R148): each returns its value and changes nothing of the block.
Each is performed by the calling core: its actions in order, as far as they go without waiting. -/

namespace Sys2Proof.Machine

/-- R133. -/
def execLvtDecode (k : Kind) (raw : Word) (s : State) : Host.Outcome State Fault Refusal :=
  s.perform (.call (.lvtDecode k raw)) (progLvtDecode k raw)

/-- R134. -/
def execLvtEncode (e : Entry) (s : State) : Host.Outcome State Fault Refusal :=
  s.perform (.call (.lvtEncode e)) (progLvtEncode e)

/-- R136. -/
def execLvtVector (e : Entry) (s : State) : Host.Outcome State Fault Refusal :=
  s.perform (.call (.lvtVector e)) (progLvtVector e)

/-- R137. -/
def execLvtDeliveryMode (e : Entry) (s : State) : Host.Outcome State Fault Refusal :=
  s.perform (.call (.lvtDeliveryMode e)) (progLvtDeliveryMode e)

/-- R138. -/
def execLvtDeliveryStatus (raw : Word) (s : State) : Host.Outcome State Fault Refusal :=
  s.perform (.call (.lvtDeliveryStatus raw)) (progLvtDeliveryStatus raw)

/-- R139. -/
def execLvtPolarity (e : Entry) (s : State) : Host.Outcome State Fault Refusal :=
  s.perform (.call (.lvtPolarity e)) (progLvtPolarity e)

/-- R140. -/
def execLvtTriggerMode (e : Entry) (s : State) : Host.Outcome State Fault Refusal :=
  s.perform (.call (.lvtTriggerMode e)) (progLvtTriggerMode e)

/-- R141. -/
def execLvtMask (e : Entry) (s : State) : Host.Outcome State Fault Refusal :=
  s.perform (.call (.lvtMask e)) (progLvtMask e)

/-- R142. -/
def execLvtTimerMode (e : Entry) (s : State) : Host.Outcome State Fault Refusal :=
  s.perform (.call (.lvtTimerMode e)) (progLvtTimerMode e)

/-- R143. -/
def execLvtSetVector (e : Entry) (v : Byte) (s : State) : Host.Outcome State Fault Refusal :=
  s.perform (.call (.lvtSetVector e v)) (progLvtSetVector e v)

/-- R144. -/
def execLvtSetDeliveryMode (e : Entry) (m : DeliveryMode) (s : State) : Host.Outcome State Fault Refusal :=
  s.perform (.call (.lvtSetDeliveryMode e m)) (progLvtSetDeliveryMode e m)

/-- R145. -/
def execLvtSetPolarity (e : Entry) (p : Polarity) (s : State) : Host.Outcome State Fault Refusal :=
  s.perform (.call (.lvtSetPolarity e p)) (progLvtSetPolarity e p)

/-- R146. -/
def execLvtSetTriggerMode (e : Entry) (t : TriggerMode) (s : State) : Host.Outcome State Fault Refusal :=
  s.perform (.call (.lvtSetTriggerMode e t)) (progLvtSetTriggerMode e t)

/-- R147. -/
def execLvtSetMask (e : Entry) (b : Bool) (s : State) : Host.Outcome State Fault Refusal :=
  s.perform (.call (.lvtSetMask e b)) (progLvtSetMask e b)

/-- R148. -/
def execLvtSetTimerMode (e : Entry) (m : TimerMode) (s : State) : Host.Outcome State Fault Refusal :=
  s.perform (.call (.lvtSetTimerMode e m)) (progLvtSetTimerMode e m)

/-- R135. -/
def execLvtNew (k : Kind) (s : State) : Host.Outcome State Fault Refusal :=
  s.perform (.call (.lvtNew k)) (progLvtNew k)

end Sys2Proof.Machine
end

