-- ==== Sys2Proof/Machine/Dispatch.lean ====
section
/-! DEFINITION. One arm per operation of spec/30_encoding.md R113: the meaning of an operation of the calling core. -/

namespace Sys2Proof.Machine

def exec (i : Instr) (s : State) : Host.Outcome State Fault Refusal :=
  match i with
  | .lvtDecode k raw => Sys2Proof.Machine.execLvtDecode k raw s
  | .lvtEncode e => Sys2Proof.Machine.execLvtEncode e s
  | .lvtVector e => Sys2Proof.Machine.execLvtVector e s
  | .lvtDeliveryMode e => Sys2Proof.Machine.execLvtDeliveryMode e s
  | .lvtDeliveryStatus raw => Sys2Proof.Machine.execLvtDeliveryStatus raw s
  | .lvtPolarity e => Sys2Proof.Machine.execLvtPolarity e s
  | .lvtTriggerMode e => Sys2Proof.Machine.execLvtTriggerMode e s
  | .lvtMask e => Sys2Proof.Machine.execLvtMask e s
  | .lvtTimerMode e => Sys2Proof.Machine.execLvtTimerMode e s
  | .lvtSetVector e v => Sys2Proof.Machine.execLvtSetVector e v s
  | .lvtSetDeliveryMode e m => Sys2Proof.Machine.execLvtSetDeliveryMode e m s
  | .lvtSetPolarity e p => Sys2Proof.Machine.execLvtSetPolarity e p s
  | .lvtSetTriggerMode e t => Sys2Proof.Machine.execLvtSetTriggerMode e t s
  | .lvtSetMask e b => Sys2Proof.Machine.execLvtSetMask e b s
  | .lvtSetTimerMode e m => Sys2Proof.Machine.execLvtSetTimerMode e m s
  | .lvtNew k => Sys2Proof.Machine.execLvtNew k s
  | .facadeSelect => Sys2Proof.Machine.execFacadeSelect s
  | .supported => Sys2Proof.Machine.execSupported s
  | .initCurrentCpu => Sys2Proof.Machine.execInitCurrentCpu s
  | .sendEoi => Sys2Proof.Machine.execSendEoi s
  | .version => Sys2Proof.Machine.execVersion s
  | .supportsEoiBroadcastSuppression => Sys2Proof.Machine.execSupportsEoiBroadcastSuppression s
  | .maxLvtEntries => Sys2Proof.Machine.execMaxLvtEntries s
  | .readId => Sys2Proof.Machine.execReadId s
  | .setLvt e => Sys2Proof.Machine.execSetLvt e s
  | .readLvt k => Sys2Proof.Machine.execReadLvt k s
  | .maskAll => Sys2Proof.Machine.execMaskAll s
  | .writeInterruptCommand d => Sys2Proof.Machine.execWriteInterruptCommand d s
  | .lapicRead32 off => Sys2Proof.Machine.execLapicRead32 off s
  | .lapicWrite32 off v => Sys2Proof.Machine.execLapicWrite32 off v s
  | .iorReadReg idx => Sys2Proof.Machine.execIorReadReg idx s
  | .iorWriteReg idx v => Sys2Proof.Machine.execIorWriteReg idx v s
  | .supportedInterrupts => Sys2Proof.Machine.execSupportedInterrupts s
  | .iorInit => Sys2Proof.Machine.execIorInit s
  | .enable l d => Sys2Proof.Machine.execEnable l d s
  | .disable l => Sys2Proof.Machine.execDisable l s
  | .disableAll => Sys2Proof.Machine.execDisableAll s
  | .configure l v d level activeHigh logical mask => Sys2Proof.Machine.execConfigure l v d level activeHigh logical mask s
  | .vectorOf l => Sys2Proof.Machine.execVectorOf l s
  | .setVector l v => Sys2Proof.Machine.execSetVector l v s

end Sys2Proof.Machine
end

