-- ==== Sys2Proof/Machine/Schedule.lean ====
section
/-! DEFINITION. The schedule: whose turn it is, fetching the next request of a core's program and decoding it, and the
turns that are no whole operation (log entries 1, 8, 22, 23). Step.lean only calls `nextTurn`. -/

namespace Sys2Proof.Machine

/-- What a turn comes to: the state after it, an operation to perform in a state (its `caller` set, its request taken),
or no meaning. -/
inductive Activity where
  | internal (s : State)
  | call (i : Instr) (s : State)
  | reject (r : Refusal)
  deriving DecidableEq, Repr, Inhabited

/-- Core c becomes the caller, and what is left of its program is `more`. -/
def State.fetched (s : State) (c : CoreId) (more : List Request) : State :=
  { s with caller := c, agents := s.agents.modify c fun a => { a with program := more } }

/-- The core performs the rest of the work it is inside, as far as it goes without waiting. -/
def State.resume (s : State) (c : CoreId) (work : Work) (w : Word) (rest : List Micro) (ret : Ret) : State :=
  s.settle c work ret (runBody c rest w s.block)

/-- A byte of the access lies in the window of the given base and size; an access of no bytes counts by its address. -/
def touchesWindow (base size : Nat) (a : Access) : Bool :=
  decide (a.addr < base + size) && decide (base < a.addr + max a.width 1)

/-- A raw access is an access to the block when any of its bytes lies in one of the two windows (R60). The spec does not
say whether one that starts below a window and reaches into it is; that it is, and so is refused by R65, is the model's
choice (DESIGN CHOICE, log entry 28). -/
def accessesBlock (cfg : Config) (a : Access) : Bool :=
  touchesWindow cfg.lapicBase cfg.lapicWindowSize a || touchesWindow cfg.iorBase cfg.iorWindowSize a

/-- An idle core performs its next request at once. -/
def performRequest (c : CoreId) (r : Request) (more : List Request) (s : State) : Activity :=
  match r with
  | .op bytes =>
    match decode bytes with
    | .ok i => .call i (s.fetched c more)
    | .error e => .reject (.undecodable e)
  | .access a =>
    if accessesBlock s.block.cfg a then
      .internal ((s.fetched c more).resume c (.access a) 0#32 (progAccess a).body (progAccess a).ret)
    else .reject .outsideBlock

/-- An idle core enters its next request, to be performed action by action. -/
def beginRequest (c : CoreId) (r : Request) (more : List Request) (s : State) : Activity :=
  match r with
  | .op bytes =>
    match decode bytes with
    | .ok i =>
      .internal ((s.fetched c more).suspend c (.call i) 0#32 (progOf s.block.cfg c i).body
        (progOf s.block.cfg c i).ret s.block)
    | .error e => .reject (.undecodable e)
  | .access a =>
    if accessesBlock s.block.cfg a then
      .internal ((s.fetched c more).suspend c (.access a) 0#32 (progAccess a).body (progAccess a).ret s.block)
    else .reject .outsideBlock

/-- A turn of core c by whole operations: a core that is stopped, does not exist or has nothing left to do takes no
step (R284; log entry 8). -/
def opTurn (c : CoreId) (s : State) : Activity :=
  match s.agents[c]? with
  | none => .internal s
  | some a =>
    match a.status with
    | .running work w rest ret => .internal (s.resume c work w rest ret)
    | .faulted _ _ => .internal s
    | .refused _ _ => .internal s
    | .idle =>
      match a.program with
      | [] => .internal s
      | r :: more => performRequest c r more s

/-- A turn of core c by single actions. -/
def microTurn (c : CoreId) (s : State) : Activity :=
  match s.agents[c]? with
  | none => .internal s
  | some a =>
    match a.status with
    | .running _ _ _ _ => .internal (s.advance c)
    | .faulted _ _ => .internal s
    | .refused _ _ => .internal s
    | .idle =>
      match a.program with
      | [] => .internal s
      | r :: more => beginRequest c r more s

/-- A local event of a core that exists (R288). -/
def localEventTurn (c : CoreId) (k : Kind) (s : State) : Activity :=
  if c < s.block.cfg.cores.length then .internal { s with block := s.block.localEvent c k } else .internal s

/-- An assertion of a line that exists (R288). -/
def lineAssertTurn (l : Nat) (s : State) : Activity :=
  if l < numLines s.block.cfg then .internal { s with block := s.block.lineAssert l } else .internal s

def takeTurn (t : Turn) (s : State) : Activity :=
  match t with
  | .op c => opTurn c s
  | .micro c => microTurn c s
  | .localEvent c k => localEventTurn c k s
  | .lineAssert l => lineAssertTurn l s

/-- The head of the schedule is taken off and comes to what it comes to; with nothing scheduled the block performs
nothing (R321). -/
def nextTurn (s : State) : Activity :=
  match s.turns with
  | [] => .internal s
  | t :: ts => takeTurn t { s with turns := ts }

/-- The caller's next request is these bytes and the next turn is its (log entry 22). -/
def State.withRequest (s : State) (bytes : List Byte) : State :=
  { s with
    agents := s.agents.modify s.caller fun a => { a with program := .op bytes :: a.program }
    turns := .op s.caller :: s.turns }

end Sys2Proof.Machine
end

