-- ==== Sys2Proof/Machine/Step.lean ====
section
/-! DEFINITION. One step of the machine: the next turn of the schedule. The block has no fetch-decode loop of its own
(spec/10_state.md R20); its steps are the operations, each performed by a calling core, and the delivery events. -/

namespace Sys2Proof.Machine

def step (s : State) : Host.Outcome State Fault Refusal :=
  match nextTurn s with
  | .internal s' => .next s'
  | .call i s' => exec i s'
  | .reject r => .refused r

/-- The host's placement of an instruction: the caller's next request is the instruction's twelve bytes and the next
turn is the caller's. Where the caller is idle (as after reset) the very next step performs it. Log entry 22. -/
def State.withFetchWord (s : State) (nbits w : Nat) : State := s.withRequest (tableBytes nbits w)

end Sys2Proof.Machine
end

