-- ==== Sys2Proof/Safety.lean ====
section
/-! DEFINITION. What a sound machine and a safe run are, in the terms the statements use: well-formed parameters
(spec/00_scope.md R6, spec/20_memory.md R69, spec/30_encoding.md R111, R112), the states in which an operation may go on
(spec/70_reset_and_hazards.md R323), success (spec/60_exceptions.md R284), and the invariants of spec/10_state.md R36
and of the device lock (spec/20_memory.md R72). -/

namespace Sys2Proof.Machine

/-! ### Parameters -/

/-- The constraints the spec puts on the parameters, and the alignment and size the accesses need (log entry 26). -/
structure ConfigSound (cfg : Config) : Prop where
  /-- NCORES ≥ 1 (R6). -/
  cores_pos : 0 < cfg.cores.length
  /-- APIC_ID is injective (R6). -/
  apicId_injective : (cfg.cores.map CoreParams.apicId).Nodup
  /-- The offsets are distinct (R111). -/
  offsets_distinct : (lapicRegs.map (lapicOffset cfg)).Nodup
  /-- The offsets are multiples of 4 (R111). -/
  offsets_aligned : ∀ r ∈ lapicRegs, (lapicOffset cfg r).toNat % 4 = 0
  /-- The offsets lie inside the window (R111). -/
  offsets_inside : ∀ r ∈ lapicRegs, (lapicOffset cfg r).toNat + 4 ≤ cfg.lapicWindowSize
  /-- The bases are multiples of 4, so that an aligned offset is an aligned address (R64). -/
  bases_aligned : cfg.lapicBase % 4 = 0 ∧ cfg.iorBase % 4 = 0
  /-- An offset inside a window fits 32 bits. -/
  windows_bounded : cfg.lapicWindowSize ≤ 4294967296 ∧ cfg.iorWindowSize ≤ 4294967296
  /-- The windows do not overlap (R69). -/
  windows_disjoint :
    cfg.lapicBase + cfg.lapicWindowSize ≤ cfg.iorBase ∨ cfg.iorBase + cfg.iorWindowSize ≤ cfg.lapicBase
  /-- The router's two registers are distinct, aligned and inside the window (R112). -/
  router_offsets :
    cfg.iorRegSelOff ≠ cfg.iorWinOff ∧ cfg.iorRegSelOff.toNat % 4 = 0 ∧ cfg.iorWinOff.toNat % 4 = 0 ∧
      cfg.iorRegSelOff.toNat + 4 ≤ cfg.iorWindowSize ∧ cfg.iorWinOff.toNat + 4 ≤ cfg.iorWindowSize
  /-- The version register's index is no line's (R63). -/
  index_distinct :
    cfg.iorVerIndex.toNat < cfg.iorRteBase.toNat ∨ cfg.iorRteBase.toNat + 2 * numLines cfg ≤ cfg.iorVerIndex.toNat

/-! ### When an operation may go on -/

/-- The calling core exists and is idle. -/
abbrev CallerReady (s : State) : Prop := s.status s.caller = some .idle

/-- The calling core may go on and its controller exists. -/
def CallerPresent (s : State) : Prop := CallerReady s ∧ s.caller < s.block.lapics.length

/-- The prerequisites of a Local Controller Interface operation of the calling core (R323), whose controller exists. -/
def CallerArmed (s : State) : Prop :=
  CallerReady s ∧ s.block.enableType = .mmio ∧ s.caller < s.block.lapics.length ∧
    (s.block.lapic s.caller).inited = true

/-- The prerequisite of a router operation of the calling core (R323), with the device lock free (R72). -/
def RouterReady (s : State) : Prop := CallerReady s ∧ s.block.iorInited = true ∧ s.block.iorLock = .free

/-- A line a router operation accepts (R233, R116), whose entry exists. -/
def LineUsable (b : Block) (l : Nat) : Prop :=
  l < min (numLines b.cfg) (linesAddressable b.cfg) ∧ l < b.rtes.length

/-- The Local Controller Interface operations that have the per-core prerequisite (R323: all but `supported` and
`init_current_cpu`). The register-access primitives `lapic_read32` and `lapic_write32` (R183) are no such operation
(log entry 10). -/
def needsInitedCore : Instr → Bool
  | .sendEoi => true
  | .version => true
  | .supportsEoiBroadcastSuppression => true
  | .maxLvtEntries => true
  | .readId => true
  | .setLvt _ => true
  | .readLvt _ => true
  | .maskAll => true
  | .writeInterruptCommand _ => true
  | _ => false

/-- The router operations that have the prerequisite `ior_inited` (R323: all but `ior_init`). -/
def needsInitedRouter : Instr → Bool
  | .iorReadReg _ => true
  | .iorWriteReg _ _ => true
  | .supportedInterrupts => true
  | .enable _ _ => true
  | .disable _ => true
  | .disableAll => true
  | .configure _ _ _ _ _ _ _ => true
  | .vectorOf _ => true
  | .setVector _ _ => true
  | _ => false

/-- The router operations with a line argument, and that line (R233). -/
def lineArgument : Instr → Option Nat
  | .enable l _ => some l
  | .disable l => some l
  | .configure l _ _ _ _ _ _ => some l
  | .vectorOf l => some l
  | .setVector l _ => some l
  | _ => none

/-! ### Frames: what stays the same between two blocks -/

/-- The parameters, the Enable-Type flag and the Facade once-state are the same (R6, R21, R22). -/
def FacadeSame (b b' : Block) : Prop :=
  b'.cfg = b.cfg ∧ b'.enableType = b.enableType ∧ b'.facadeOnce = b.facadeOnce

/-- Every register file and init flag but core c's is the same (R24). -/
def OtherLapicsSame (c : CoreId) (b b' : Block) : Prop :=
  b'.lapics.length = b.lapics.length ∧ ∀ c', c' ≠ c → b'.lapics[c']? = b.lapics[c']?

/-- Core c's init flag and every register of its controller but the LVT are the same (R23, R25). -/
def NonLvtSame (c : CoreId) (b b' : Block) : Prop :=
  (b'.lapic c).inited = (b.lapic c).inited ∧ (b'.lapic c).idReserved = (b.lapic c).idReserved ∧
    (b'.lapic c).svr = (b.lapic c).svr ∧ (b'.lapic c).icrLo = (b.lapic c).icrLo ∧
    (b'.lapic c).icrHi = (b.lapic c).icrHi

/-- The router's once-state, index register, entries and lock are the same (R29 to R33). -/
def RouterSame (b b' : Block) : Prop :=
  b'.iorInited = b.iorInited ∧ b'.iorRunner = b.iorRunner ∧ b'.iorIndex = b.iorIndex ∧ b'.rtes = b.rtes ∧
    b'.iorLock = b.iorLock

/-- The entry keeps its kind, the bits of the mask, and so its delivery status (R149). -/
def SameBits (e e' : Entry) (mask : Word) : Prop :=
  e'.kind = e.kind ∧ e'.raw &&& mask = e.raw &&& mask ∧ lvtDeliveryStatus (lvtEncode e') = lvtDeliveryStatus (lvtEncode e)

/-! ### Success -/

/-- The agent carries a recorded fault (R284) or a recorded refusal (the model's own record, log entry 6). -/
def Status.stopped : Status → Bool
  | .idle => false
  | .running _ _ _ _ => false
  | .faulted _ _ => true
  | .refused _ _ => true

/-- No fault is recorded and the refused mark is clear (R284). Counting a state with the mark set as failed is the model's
choice (log entry 31). -/
def State.unfailed (s : State) : Bool := !s.refusedMark && s.agents.all fun a => !a.status.stopped

/-- A final state: every core has made all its requests and is inside none, and nothing failed. That a state with a
recorded fault is never final is R284's. That one with only the refused mark set is not final either, and that a final state
is otherwise one with no request left or under way, are the model's choice (log entry 31). -/
def State.final (s : State) : Bool :=
  s.unfailed && s.agents.all fun a => decide (a.status = .idle) && a.program.isEmpty

/-! ### Invariants -/

/-- There is one controller and one agent per core and one entry per line (R24, R299, R32). -/
structure Shaped (s : State) : Prop where
  agents_length : s.agents.length = s.block.cfg.cores.length
  lapics_length : s.block.lapics.length = s.block.cfg.cores.length
  rtes_length : s.block.rtes.length = numLines s.block.cfg

/-- The actions left of an operation set a core's init flag only after they have dispatched (R186, R181); `selected`
says whether the generation was selected before them. -/
def armShape : Bool → List Micro → Bool
  | _, [] => true
  | selected, m :: ms =>
    if m = .dispatch then armShape true ms
    else if m = .markInited then selected && armShape selected ms
    else armShape selected ms

/-- R36, first and second invariant, with what carries the second through an operation that is under way: an
`init_current_cpu` that has still to set the flag has either still to dispatch or has dispatched. -/
structure Selection (s : State) : Prop where
  selected_iff_completed : s.block.enableType ≠ .unselected ↔ s.block.facadeOnce = .completed
  inited_selected : ∀ c, (s.block.lapic c).inited = true → s.block.enableType ≠ .unselected
  pending_selected : ∀ c work w rest ret, s.status c = some (.running work w rest ret) →
    armShape (decide (s.block.enableType ≠ .unselected)) rest = true

/-- What an action has to do with the device lock (R72, R230, R235). -/
inductive LockRole where
  /-- Takes it. -/
  | takes
  /-- Releases it. -/
  | releases
  /-- Touches the router's registers under it. -/
  | under
  /-- Is made only by a core that does not hold it: a raw access (log entry 11). -/
  | outside
  /-- Nothing. -/
  | neutral
  deriving DecidableEq, Repr, Inhabited

def lockRole : Micro → LockRole
  | .lock => .takes
  | .unlock => .releases
  | .indexWrite _ => .under
  | .dataRead => .under
  | .dataWrite _ => .under
  | .access _ => .outside
  | .dispatch => .neutral
  | .requireInited => .neutral
  | .requireNotInited => .neutral
  | .mapLapic => .neutral
  | .markInited => .neutral
  | .facadeSelect => .neutral
  | .requireLvt _ => .neutral
  | .lapicRead _ => .neutral
  | .lapicWrite _ _ => .neutral
  | .requireDecodes _ => .neutral
  | .requireIorInited => .neutral
  | .iorOnce => .neutral
  | .mapIor => .neutral
  | .requireAddressable => .neutral
  | .iorDone => .neutral
  | .requireLine _ => .neutral

/-- The actions left of an operation take and release the device lock in turn, touch the router's registers only while
they hold it, and end without it; `inside` says whether the lock is held before them (R72, R235). -/
def lockShape : Bool → List Micro → Bool
  | inside, [] => !inside
  | inside, m :: ms =>
    match lockRole m with
    | .takes => !inside && lockShape true ms
    | .releases => inside && lockShape false ms
    | .under => inside && lockShape inside ms
    | .outside => !inside && lockShape inside ms
    | .neutral => lockShape inside ms

/-- The device lock is held by a core that is inside an operation and will release it, and no other core's operation is
past its own `lock` (R72). A core that has stopped holds it no longer (log entry 7); direct calls of `ior_read_reg` and
`ior_write_reg` take it (log entry 9), and raw accesses do not (log entry 11). -/
structure LockDiscipline (s : State) : Prop where
  holder_running : ∀ c, s.block.iorLock = .held c →
    ∃ work w rest ret, s.status c = some (.running work w rest ret)
  running_shaped : ∀ c work w rest ret, s.status c = some (.running work w rest ret) →
    lockShape (decide (s.block.iorLock = .held c)) rest = true

/-! ### The third invariant of R36

R36 speaks of what was written since `ior_init`, which is no state of the machine; a list `written` of lines stands for
it. By R36's words a step adds the lines an operation of R236 to R242 writes (`writtenByOperations`); so read it holds
where `ior_write_reg` "is performed only inside a router operation" (R230), that is where no core calls it directly or
writes the data register by a raw access (`WithinOperations`). Where one does, every other core's write counts
(`writtenAfter`; log entry 29). -/

/-- The actions of a piece of work of core c. -/
def Work.body (cfg : Config) (c : CoreId) : Work → List Micro
  | .call i => (progOf cfg c i).body
  | .access a => (progAccess a).body

/-- The action writes the data register, if it happens (R62, R230). -/
def writesData (cfg : Config) : Micro → Bool
  | .dataWrite _ => true
  | .access a => a.value.isSome && decide (a.addr = cfg.iorBase + cfg.iorWinOff.toNat)
  | _ => false

/-- The line whose low register the index register selects, if it selects one (R63). -/
def lowLineAt (b : Block) : List Nat :=
  match iorRegAt b.cfg b.iorIndex with
  | some (.lo l) => [l]
  | _ => []

/-- The lines whose low register an action of core c writes where c does not run `ior_init`. -/
def foreignWrite (c : CoreId) (m : Micro) (b : Block) : List Nat :=
  if writesData b.cfg m && decide (b.iorRunner ≠ some c) then lowLineAt b else []

/-- The lines whose low register a run of actions of core c writes where c does not run `ior_init`. -/
def foreignWrites (c : CoreId) : List Micro → Word → Block → List Nat
  | [], _, _ => []
  | m :: ms, w, b =>
    match microStep c m w b with
    | .ok w' b' => foreignWrite c m b ++ foreignWrites c ms w' b'
    | .wait => []
    | .fault _ => []
    | .refuse _ => []

/-- The work core c has before it, with the word last read and the actions: what is left of what it is inside, or its next
request. -/
def State.pending (s : State) (c : CoreId) : Option (Work × Word × List Micro) :=
  match s.agents[c]? with
  | none => none
  | some a =>
    match a.status with
    | .running work w rest _ => some (work, w, rest)
    | .faulted _ _ => none
    | .refused _ _ => none
    | .idle =>
      match a.program with
      | [] => none
      | .op bytes :: _ =>
        match decode bytes with
        | .ok i => some (.call i, 0#32, Work.body s.block.cfg c (.call i))
        | .error _ => none
      | .access x :: _ => some (.access x, 0#32, Work.body s.block.cfg c (.access x))

/-- The work of the core whose turn is next. -/
def State.turnWork (s : State) : Option Work :=
  match s.turns with
  | .op c :: _ => (s.pending c).map Prod.fst
  | .micro c :: _ => (s.pending c).map Prod.fst
  | _ => none

/-- The lines whose low register the next step writes, by a core that does not run `ior_init`. -/
def stepWrites (s : State) : List Nat :=
  match s.turns with
  | .op c :: _ => (s.pending c).elim [] fun p => foreignWrites c p.2.2 p.2.1 s.block
  | .micro c :: _ =>
    match s.status c with
    | some (.running _ w rest _) => foreignWrites c (rest.take 1) w s.block
    | _ => []
  | _ => []

/-- The operations of R236 to R242 (R236 is the sequence inside them). -/
def lineOperation : Work → Bool
  | .call (.enable _ _) => true
  | .call (.disable _) => true
  | .call .disableAll => true
  | .call (.configure _ _ _ _ _ _ _) => true
  | .call (.vectorOf _) => true
  | .call (.setVector _ _) => true
  | .call _ => false
  | .access _ => false

/-- The work writes the data register outside the operations of R234 to R242: a direct `ior_write_reg` (R230) or a raw
access (R62, R325). -/
def outsideWrite (cfg : Config) : Work → Bool
  | .call (.iorWriteReg _ _) => true
  | .call _ => false
  | .access a => writesData cfg (.access a)

/-- The next step makes no write of the data register outside a router operation (R230). -/
def WithinOperations (s : State) : Prop := ∀ work, s.turnWork = some work → outsideWrite s.block.cfg work = false

/-- The lines whose low register an operation of R236 to R242 writes in the next step. -/
def operationWrites (s : State) : List Nat := if s.turnWork.any lineOperation then stepWrites s else []

/-- Those of the lines written that count: before `ior_init` begins none do. -/
def sinceInit (s : State) (written : List Nat) : List Nat :=
  if s.block.iorInited = true ∨ s.block.iorRunner.isSome = true then written else []

/-- The lines written since `ior_init` began, after the next step, from those before it. -/
def writtenAfter (s : State) (written : List Nat) : List Nat := sinceInit s written ++ stepWrites s

/-- The lines an operation of R236 to R242 has written since `ior_init` began, after the next step, from those before
it. -/
def writtenByOperations (s : State) (written : List Nat) : List Nat := sinceInit s written ++ operationWrites s

/-- A write of this source sets the mask bit whatever was read (R101, R237, R238). -/
def Src.masks : Src → Bool
  | .const w => w.getLsbD 16
  | .setMaskBit => true
  | .vectorWith flags => flags.getLsbD 16
  | .replaceVector _ => false
  | .arm _ => false

/-- The actions left of an `ior_init` (R234) end with the once-state set, and leave line l masked; `idx` is what the
index register holds while the lock is held, `seen` whether the version register was read last, and `masked` whether the
line is masked before them. -/
def endsMasked (cfg : Config) (l : Nat) : Option Byte → Bool → Bool → List Micro → Bool
  | _, _, _, [] => false
  | idx, seen, masked, m :: ms =>
    match m with
    | .iorDone => masked && ms.isEmpty
    | .mapIor => endsMasked cfg l idx seen masked ms
    | .lock => endsMasked cfg l none seen masked ms
    | .unlock => endsMasked cfg l none seen masked ms
    | .indexWrite i => endsMasked cfg l (some i) seen masked ms
    | .dataRead => endsMasked cfg l idx (idx.bind (iorRegAt cfg) == some .version) masked ms
    | .dataWrite src =>
      idx.isSome &&
        endsMasked cfg l idx seen (if idx.bind (iorRegAt cfg) = some (.lo l) then src.masks else masked) ms
    | .requireAddressable =>
      seen && decide (linesAddressable cfg < numLines cfg) || endsMasked cfg l idx seen masked ms
    | _ => false

/-- Line l is masked, or written since `ior_init` began. -/
def Block.lineHeld (b : Block) (written : List Nat) (l : Nat) : Bool :=
  decide (l ∈ written) || (b.rte l).lo.getLsbD 16

/-- What the index register holds for core c: known only while c holds the device lock. -/
def Block.indexFor (b : Block) (c : CoreId) : Option Byte := if b.iorLock = .held c then some b.iorIndex else none

/-- R36, third invariant, with what carries it through operations that are under way. -/
structure MaskDiscipline (written : List Nat) (s : State) : Prop where
  /-- The invariant: with the router initialized, every line not written since is masked. -/
  untouched_masked : s.block.iorInited = true → ∀ l, l < numLines s.block.cfg → l ∉ written →
    (s.block.rte l).lo.getLsbD 16 = true
  /-- While a core runs `ior_init` it is not completed, that core is inside an operation, and what is left of the operation
  masks every line not written. -/
  runner_masks : ∀ c, s.block.iorRunner = some c →
    s.block.iorInited = false ∧ ∃ work w rest ret, s.status c = some (.running work w rest ret) ∧
      ∀ l, l < numLines s.block.cfg →
        endsMasked s.block.cfg l (s.block.indexFor c) (decide (w = s.block.cfg.iorVersionWord))
          (s.block.lineHeld written l) rest = true
  /-- No other core is past the run-once entry of an `ior_init`. -/
  others_begin : ∀ c work w rest ret, s.status c = some (.running work w rest ret) → s.block.iorRunner ≠ some c →
    rest = (progIorInit s.block.cfg).body ∨ Micro.iorOnce ∉ rest ∧ Micro.iorDone ∉ rest
  /-- What is left of a piece of work is the end of it. -/
  underway : ∀ c work w rest ret, s.status c = some (.running work w rest ret) →
    rest <:+ work.body s.block.cfg c

end Sys2Proof.Machine
end

