-- ==== Sys2Proof/Certificates/Slice0/Obligations.lean ====
section
/-! DEFINITION. The statements for the provers. Each docstring names the rule of spec/ it formalises. A statement about a
free value holds whatever the value is: it stands there as `Config.drawWord` of the count in the state. Where an operation
ends in a fault or a refusal, `Block.release` frees the device lock and the run-once record if its core held them: that it
does is log entry 7 (DEDUCED). For a core that held neither it is the block itself. -/

section

open Sys2Proof Sys2Proof.Machine

/-! ### Encoding -/

/-- Decoding an encoded well-formed operation gives it back, with every operand at every value. -/
def Obligations.DecodeOfEncodeIsTheOperation : Prop :=
  ∀ i : Instr, i.wf = true → decode (encode i) = .ok i

/-- A request that decodes is the encoding of the operation it decodes to, and that operation is well-formed: no byte of
a request is ignored. A request whose first byte is no selector of R113 (they are 0x00..0x1D and 0x20..0x29) is rejected
by name, whatever follows it. -/
def Obligations.DecodedRequestIsItsEncoding : Prop :=
  (∀ (bs : List Byte) (i : Instr), decode bs = .ok i → i.wf = true ∧ bs = encode i) ∧
  ∀ (sel : Byte) (operands : List Byte), operands.length = 11 →
    (sel.toNat = 0x1E ∨ sel.toNat = 0x1F ∨ 0x2A ≤ sel.toNat) →
    decode (sel :: operands) = .error .unknownSelector

/-- Requests written out from R113's selector column and the operand layout of log entry 2. -/
def Obligations.WrittenOutRequestsDecode : Prop :=
  decode [0x00#8, 0x01#8, 0x28#8, 0#8, 0#8, 0#8, 0#8, 0#8, 0#8, 0#8, 0#8, 0#8] = .ok (.lvtDecode .timer 0x00000028#32) ∧
  decode [0x0A#8, 0x04#8, 0#8, 0x80#8, 0#8, 0#8, 0x07#8, 0#8, 0#8, 0#8, 0#8, 0#8] =
    .ok (.lvtSetDeliveryMode ⟨.lint0, 0x00008000#32⟩ .extInt) ∧
  decode [0x1B#8, 0x08#8, 0x06#8, 0#8, 0x01#8, 0#8, 0#8, 0x01#8, 0#8, 0#8, 0#8, 0#8] =
    .ok (.writeInterruptCommand ⟨0x08#8, .startUp, .physical, .assert, .edge, .noShorthand, 0x01#8⟩) ∧
  decode [0x27#8, 0x05#8, 0#8, 0#8, 0#8, 0x10#8, 0x02#8, 0#8, 0x01#8, 0#8, 0#8, 0#8] =
    .ok (.configure 5 0x10#8 0x02#8 false true false false) ∧
  decodeTableWord 8 0x10 = some .facadeSelect ∧ decodeTableWord 8 0x1F = none

/-! ### LVT codec -/

/-- R133: InvalidArgument exactly when a supported enumerant field holds a reserved code; otherwise all 32 bits kept. -/
def Obligations.LvtDecodeValidatesSupportedEnumerants : Prop :=
  ∀ (s : State) (k : Kind) (raw : Word), CallerReady s →
    exec (.lvtDecode k raw) s = .next (s.complete s.caller
      (if (k ≠ .timer ∧ k ≠ .error ∧ (raw.extractLsb' 8 3 = 0b001#3 ∨ raw.extractLsb' 8 3 = 0b011#3)) ∨
          (k = .timer ∧ raw.extractLsb' 17 2 = 0b11#2)
        then .invalidArgument else .entry ⟨k, raw⟩) s.block)

/-- R134, R135, R136, R138, R141: the codec operations that never fail and need no field of the kind; the word of a
well-formed entry decodes to it again, and a new entry is well-formed. -/
def Obligations.LvtPlainOperationsReadTheirBits : Prop :=
  ∀ (s : State) (e : Entry) (k : Kind) (w : Word), CallerReady s →
    exec (.lvtEncode e) s = .next (s.complete s.caller (.word e.raw) s.block) ∧
    (e.wf = true → exec (.lvtDecode e.kind e.raw) s = .next (s.complete s.caller (.entry e) s.block)) ∧
    exec (.lvtNew k) s = .next (s.complete s.caller (.entry ⟨k, 0x00000000#32⟩) s.block) ∧
    (⟨k, 0x00000000#32⟩ : Entry).wf = true ∧
    exec (.lvtVector e) s = .next (s.complete s.caller (.byte (e.raw.extractLsb' 0 8)) s.block) ∧
    exec (.lvtMask e) s = .next (s.complete s.caller (.bool (e.raw.getLsbD 16)) s.block) ∧
    exec (.lvtDeliveryStatus w) s = .next (s.complete s.caller
      (.deliveryStatus (if w.getLsbD 12 then .sendPending else .idle)) s.block)

/-- R137, R139, R140, R142, with the codes of R93 and R98: what the four optional getters return, the two enumerant ones
on a well-formed entry, and None where the kind has no such field. -/
def Obligations.LvtOptionalGettersReadTheirFields : Prop :=
  ∀ (s : State) (e : Entry), CallerReady s →
    exec (.lvtPolarity e) s = .next (s.complete s.caller
      (.polarity (if e.kind = .lint0 ∨ e.kind = .lint1 then
        some (if e.raw.getLsbD 13 then .activeLow else .activeHigh) else none)) s.block) ∧
    exec (.lvtTriggerMode e) s = .next (s.complete s.caller
      (.triggerMode (if e.kind = .lint0 ∨ e.kind = .lint1 then
        some (if e.raw.getLsbD 15 then .level else .edge) else none)) s.block) ∧
    (e.kind = .timer ∨ e.kind = .error →
      exec (.lvtDeliveryMode e) s = .next (s.complete s.caller (.deliveryMode none) s.block)) ∧
    (e.kind ≠ .timer → e.kind ≠ .error → e.wf = true →
      ∃ m, exec (.lvtDeliveryMode e) s = .next (s.complete s.caller (.deliveryMode (some m)) s.block) ∧
        (e.raw.extractLsb' 8 3, m) ∈ [(0b000#3, DeliveryMode.fixed), (0b010#3, .smi), (0b100#3, .nmi),
          (0b101#3, .init), (0b110#3, .startUp), (0b111#3, .extInt)]) ∧
    (e.kind ≠ .timer → exec (.lvtTimerMode e) s = .next (s.complete s.caller (.timerMode none) s.block)) ∧
    (e.kind = .timer → e.wf = true →
      ∃ m, exec (.lvtTimerMode e) s = .next (s.complete s.caller (.timerMode (some m)) s.block) ∧
        (e.raw.extractLsb' 17 2, m) ∈ [(0b00#2, TimerMode.oneShot), (0b01#2, .periodic), (0b10#2, .tscDeadline)])

/-- R143, R147: the two setters that never fail write only their field. -/
def Obligations.LvtSetVectorAndMaskWriteTheirField : Prop :=
  ∀ (s : State) (e : Entry) (v : Byte) (b : Bool), CallerReady s →
    exec (.lvtSetVector e v) s = .next (s.complete s.caller
      (.entry ⟨e.kind, (e.raw &&& 0xFFFFFF00#32) ||| v.setWidth 32⟩) s.block) ∧
    exec (.lvtSetMask e b) s = .next (s.complete s.caller
      (.entry ⟨e.kind, (e.raw &&& 0xFFFEFFFF#32) ||| (if b then 0x00010000#32 else 0#32)⟩) s.block)

/-- R144, R145, R146, R148: the setters of the four optional fields write their code in the kinds that have the field,
every other bit kept, and return InvalidArgument in the others. -/
def Obligations.LvtOptionalSettersFailElsewhere : Prop :=
  ∀ (s : State) (e : Entry), CallerReady s →
    (∀ p ∈ [(DeliveryMode.fixed, 0x000#32), (.smi, 0x200#32), (.nmi, 0x400#32), (.init, 0x500#32),
        (.startUp, 0x600#32), (.extInt, 0x700#32)],
      exec (.lvtSetDeliveryMode e p.1) s = .next (s.complete s.caller
        (if e.kind = .timer ∨ e.kind = .error then .invalidArgument
          else .entry ⟨e.kind, (e.raw &&& 0xFFFFF8FF#32) ||| p.2⟩) s.block)) ∧
    (∀ p ∈ [(Polarity.activeHigh, 0x0000#32), (.activeLow, 0x2000#32)],
      exec (.lvtSetPolarity e p.1) s = .next (s.complete s.caller
        (if e.kind = .lint0 ∨ e.kind = .lint1 then .entry ⟨e.kind, (e.raw &&& 0xFFFFDFFF#32) ||| p.2⟩
          else .invalidArgument) s.block)) ∧
    (∀ p ∈ [(TriggerMode.edge, 0x0000#32), (.level, 0x8000#32)],
      exec (.lvtSetTriggerMode e p.1) s = .next (s.complete s.caller
        (if e.kind = .lint0 ∨ e.kind = .lint1 then .entry ⟨e.kind, (e.raw &&& 0xFFFF7FFF#32) ||| p.2⟩
          else .invalidArgument) s.block)) ∧
    (∀ p ∈ [(TimerMode.oneShot, 0x00000#32), (.periodic, 0x20000#32), (.tscDeadline, 0x40000#32)],
      exec (.lvtSetTimerMode e p.1) s = .next (s.complete s.caller
        (if e.kind = .timer then .entry ⟨e.kind, (e.raw &&& 0xFFF9FFFF#32) ||| p.2⟩ else .invalidArgument) s.block))

/-- R130: every entry the codec returns is well-formed (from well-formed ones), and an entry is well-formed exactly when
it decodes. -/
def Obligations.CodecKeepsEntriesWellFormed : Prop :=
  (∀ e : Entry, e.wf = true ↔ lvtDecode e.kind e.raw = some e) ∧
  (∀ k : Kind, (lvtNew k).wf = true) ∧
  ∀ e : Entry, e.wf = true →
    lvtDecode e.kind (lvtEncode e) = some e ∧
    (∀ v, (lvtSetVector e v).wf = true) ∧ (∀ b, (lvtSetMask e b).wf = true) ∧
    (∀ m e', lvtSetDeliveryMode e m = some e' → e'.wf = true) ∧
    (∀ p e', lvtSetPolarity e p = some e' → e'.wf = true) ∧
    (∀ t e', lvtSetTriggerMode e t = some e' → e'.wf = true) ∧
    (∀ m e', lvtSetTimerMode e m = some e' → e'.wf = true)

/-- R149: the five laws of the codec. -/
def Obligations.LvtCodecLaws : Prop :=
  ∀ e : Entry, e.wf = true →
    lvtDecode e.kind (lvtEncode e) = some e ∧
    (∀ v, lvtVector (lvtSetVector e v) = v) ∧ (∀ b, lvtMask (lvtSetMask e b) = b) ∧
    (∀ m e', lvtSetDeliveryMode e m = some e' → lvtDeliveryMode e' = some (some m)) ∧
    (∀ p e', lvtSetPolarity e p = some e' → lvtPolarity e' = some p) ∧
    (∀ t e', lvtSetTriggerMode e t = some e' → lvtTriggerMode e' = some t) ∧
    (∀ m e', lvtSetTimerMode e m = some e' → lvtTimerMode e' = some (some m)) ∧
    (∀ e', (∃ v, e' = lvtSetVector e v) → SameBits e e' 0xFFFFFF00#32 ∧ lvtDeliveryMode e' = lvtDeliveryMode e ∧
      lvtPolarity e' = lvtPolarity e ∧ lvtTriggerMode e' = lvtTriggerMode e ∧ lvtMask e' = lvtMask e ∧
      lvtTimerMode e' = lvtTimerMode e) ∧
    (∀ e', (∃ m, lvtSetDeliveryMode e m = some e') → SameBits e e' 0xFFFFF8FF#32 ∧ lvtVector e' = lvtVector e ∧
      lvtPolarity e' = lvtPolarity e ∧ lvtTriggerMode e' = lvtTriggerMode e ∧ lvtMask e' = lvtMask e ∧
      lvtTimerMode e' = lvtTimerMode e) ∧
    (∀ e', (∃ p, lvtSetPolarity e p = some e') → SameBits e e' 0xFFFFDFFF#32 ∧ lvtVector e' = lvtVector e ∧
      lvtDeliveryMode e' = lvtDeliveryMode e ∧ lvtTriggerMode e' = lvtTriggerMode e ∧ lvtMask e' = lvtMask e ∧
      lvtTimerMode e' = lvtTimerMode e) ∧
    (∀ e', (∃ t, lvtSetTriggerMode e t = some e') → SameBits e e' 0xFFFF7FFF#32 ∧ lvtVector e' = lvtVector e ∧
      lvtDeliveryMode e' = lvtDeliveryMode e ∧ lvtPolarity e' = lvtPolarity e ∧ lvtMask e' = lvtMask e ∧
      lvtTimerMode e' = lvtTimerMode e) ∧
    (∀ e', (∃ b, e' = lvtSetMask e b) → SameBits e e' 0xFFFEFFFF#32 ∧ lvtVector e' = lvtVector e ∧
      lvtDeliveryMode e' = lvtDeliveryMode e ∧ lvtPolarity e' = lvtPolarity e ∧
      lvtTriggerMode e' = lvtTriggerMode e ∧ lvtTimerMode e' = lvtTimerMode e) ∧
    (∀ e', (∃ m, lvtSetTimerMode e m = some e') → SameBits e e' 0xFFF9FFFF#32 ∧ lvtVector e' = lvtVector e ∧
      lvtDeliveryMode e' = lvtDeliveryMode e ∧ lvtPolarity e' = lvtPolarity e ∧
      lvtTriggerMode e' = lvtTriggerMode e ∧ lvtMask e' = lvtMask e) ∧
    (∀ m, lvtSetDeliveryMode e m = none ↔ lvtDeliveryMode e = none) ∧
    (∀ p, lvtSetPolarity e p = none ↔ lvtPolarity e = none) ∧
    (∀ t, lvtSetTriggerMode e t = none ↔ lvtTriggerMode e = none) ∧
    (∀ m, lvtSetTimerMode e m = none ↔ lvtTimerMode e = none)

/-! ### Facade and prerequisites -/

/-- R180: a second call is a recorded ordering violation; a first one selects MSR, else MMIO, else is the recorded
configuration fault. -/
def Obligations.FacadeSelectsMsrThenMmio : Prop :=
  ∀ s : State, CallerReady s →
    exec .facadeSelect s = .next (
      if s.block.facadeOnce = .completed then
        s.recordFault s.caller .orderingViolation (.call .facadeSelect) (s.block.release s.caller)
      else if s.block.cfg.msrGenPresent then
        s.complete s.caller .unit { s.block with enableType := .msr, facadeOnce := .completed }
      else if s.block.cfg.mmioGenPresent then
        s.complete s.caller .unit { s.block with enableType := .mmio, facadeOnce := .completed }
      else s.recordFault s.caller .unsupportedConfiguration (.call .facadeSelect) (s.block.release s.caller))

/-- R326, R180, R186, R234: a second one-time initialization is a recorded ordering violation; a lock or run-once record
the caller held is released (log entry 7). -/
def Obligations.SecondInitializationIsOrderingViolation : Prop :=
  ∀ s : State, CallerReady s →
    (s.block.facadeOnce = .completed → exec .facadeSelect s =
      .next (s.recordFault s.caller .orderingViolation (.call .facadeSelect) (s.block.release s.caller))) ∧
    (s.block.enableType = .mmio → (s.block.lapic s.caller).inited = true → exec .initCurrentCpu s =
      .next (s.recordFault s.caller .orderingViolation (.call .initCurrentCpu) (s.block.release s.caller))) ∧
    (s.block.iorInited = true → exec .iorInit s =
      .next (s.recordFault s.caller .orderingViolation (.call .iorInit) (s.block.release s.caller)))

/-- R181: before the selection every Local Controller Interface operation but `supported` is a recorded ordering
violation; under Selected(MSR) it is a refusal, which stops the core with its reason recorded (log entry 6). The
primitives `lapic_read32` and `lapic_write32` are no such operation (log entry 10). -/
def Obligations.InterfaceIsDispatchedOnEnableType : Prop :=
  ∀ (s : State) (i : Instr), CallerReady s → needsInitedCore i = true ∨ i = .initCurrentCpu →
    (s.block.enableType = .unselected → exec i s =
      .next (s.recordFault s.caller .orderingViolation (.call i) (s.block.release s.caller))) ∧
    (s.block.enableType = .msr → exec i s =
      .next (s.recordRefusal s.caller .outOfScopeBackend (.call i) (s.block.release s.caller)))

/-- R182, R235, R323: an operation before its core's or the router's initialization is a recorded ordering violation
(for `ior_read_reg` and `ior_write_reg` log entry 9). -/
def Obligations.OperationsNeedTheirInitialization : Prop :=
  ∀ (s : State) (i : Instr), CallerReady s →
    (needsInitedCore i = true → s.block.enableType = .mmio → (s.block.lapic s.caller).inited = false →
      exec i s = .next (s.recordFault s.caller .orderingViolation (.call i) (s.block.release s.caller))) ∧
    (needsInitedRouter i = true → s.block.iorInited = false →
      exec i s = .next (s.recordFault s.caller .orderingViolation (.call i) (s.block.release s.caller)))

/-- R184: `supported` answers in any state and changes nothing. -/
def Obligations.SupportedAnswersInAnyState : Prop :=
  ∀ s : State, CallerReady s →
    exec .supported s = .next (s.complete s.caller (.bool s.block.cfg.mmioGenPresent) s.block)

/-! ### Local controller -/

/-- R186: with the default `ARM_WRITES`, or any list of functions of the SVR, `init_current_cpu` applies them to the SVR
in order, sets the core's flag and returns true; without the MMIO generation it returns false and changes nothing. The
default function keeps the SVR's other bits. -/
def Obligations.InitCurrentCpuArmsSvr : Prop :=
  (∀ (s : State) (fns : List ArmFn), CallerReady s → ConfigSound s.block.cfg → s.block.enableType = .mmio →
    s.caller < s.block.lapics.length → (s.block.lapic s.caller).inited = false →
    (s.block.cfg.mmioGenPresent = false →
      exec .initCurrentCpu s = .next (s.complete s.caller (.bool false) s.block)) ∧
    (s.block.cfg.mmioGenPresent = true → (coreParams s.block.cfg s.caller).lapicMapOk = true →
      s.block.cfg.armWrites = fns.map (fun f => ⟨s.block.cfg.off.svr, f⟩) →
      exec .initCurrentCpu s = .next (s.complete s.caller (.bool true) { s.block with
        lapics := s.block.lapics.set s.caller { s.block.lapic s.caller with
          inited := true
          svr := fns.foldl (fun w f => armWord s.block.cfg f w) (s.block.lapic s.caller).svr } }))) ∧
  ∀ (cfg : Config) (w : Word), armWord cfg .svrEnable w =
    (w &&& 0xFFFFFE00#32) ||| 0x00000100#32 ||| cfg.spuriousVector.setWidth 32

/-- R186: whatever registers `ARM_WRITES` names, an arming that reaches no absent register completes with true, sets the
core's flag, and changes no other controller, the Facade or the router. -/
def Obligations.InitCurrentCpuCompletes : Prop :=
  ∀ s : State, CallerReady s → ConfigSound s.block.cfg → s.block.enableType = .mmio →
    s.caller < s.block.lapics.length → (s.block.lapic s.caller).inited = false → s.block.cfg.mmioGenPresent = true →
    (coreParams s.block.cfg s.caller).lapicMapOk = true →
    (∀ a ∈ s.block.cfg.armWrites, ∃ r ∈ lapicRegs, a.off = lapicOffset s.block.cfg r ∧
      (r = .lvt .cmci → 7 ≤ countField (lapicVersionWord s.block.cfg s.caller))) →
    ∃ b, exec .initCurrentCpu s = .next (s.complete s.caller (.bool true) b) ∧ (b.lapic s.caller).inited = true ∧
      (b.lapic s.caller).idReserved = (s.block.lapic s.caller).idReserved ∧
      FacadeSame s.block b ∧ OtherLapicsSame s.caller s.block b ∧ RouterSame s.block b

/-- R70: a mapping the service does not grant is a recorded configuration fault; the run-once record `ior_init` had taken
is released (log entry 7). Where an earlier `ior_init` had failed, that this call runs is log entry 30. -/
def Obligations.FailedMappingIsUnsupportedConfiguration : Prop :=
  ∀ s : State, CallerReady s →
    (s.block.enableType = .mmio → (s.block.lapic s.caller).inited = false → s.block.cfg.mmioGenPresent = true →
      (coreParams s.block.cfg s.caller).lapicMapOk = false → exec .initCurrentCpu s =
      .next (s.recordFault s.caller .unsupportedConfiguration (.call .initCurrentCpu) (s.block.release s.caller))) ∧
    (s.block.iorInited = false → s.block.iorRunner = none →
      (coreParams s.block.cfg s.caller).iorMapOk = false → exec .iorInit s =
      .next (s.recordFault s.caller .unsupportedConfiguration (.call .iorInit) (s.block.release s.caller)))

/-- R187, R293: `send_eoi` appends EOI(c) to the history and changes nothing else. -/
def Obligations.SendEoiRecordsTheEvent : Prop :=
  ∀ s : State, CallerArmed s → ConfigSound s.block.cfg →
    exec .sendEoi s = .next (s.complete s.caller .unit
      { s.block with history := s.block.history ++ [.eoi s.caller] })

/-- R188 to R191: the four operations that read the Version and ID registers. -/
def Obligations.VersionAndIdReads : Prop :=
  ∀ s : State, CallerArmed s → ConfigSound s.block.cfg →
    exec .version s = .next (s.complete s.caller
      (.byte ((lapicVersionWord s.block.cfg s.caller).extractLsb' 0 8)) s.block) ∧
    exec .supportsEoiBroadcastSuppression s = .next (s.complete s.caller
      (.bool ((lapicVersionWord s.block.cfg s.caller).getLsbD 24)) s.block) ∧
    exec .maxLvtEntries s = .next (s.complete s.caller
      (.count (((lapicVersionWord s.block.cfg s.caller).extractLsb' 16 8).toNat + 1)) s.block) ∧
    exec .readId s = .next (s.complete s.caller (.byte (apicId s.block.cfg s.caller)) s.block)

/-- R192: `set_lvt` stores the word in the register of the entry's kind and nowhere else. R192's operand is a well-formed
entry; that an ill-formed entry's word is stored too is the model's deduction (log entry 19). -/
def Obligations.SetLvtStoresTheWord : Prop :=
  ∀ (s : State) (e : Entry), CallerArmed s → ConfigSound s.block.cfg →
    (e.kind = .cmci → 7 ≤ countField (lapicVersionWord s.block.cfg s.caller)) →
    ∃ b, exec (.setLvt e) s = .next (s.complete s.caller .unit b) ∧
      (∀ k, b.lvt s.caller k = if k = e.kind then e.raw else s.block.lvt s.caller k) ∧
      NonLvtSame s.caller s.block b ∧ FacadeSame s.block b ∧ OtherLapicsSame s.caller s.block b ∧
      RouterSame s.block b ∧ b.history = s.block.history ∧ b.drawCount = s.block.drawCount

/-- R193, R26: `read_lvt` returns the stored word in the bits the kind supports, drawn bits elsewhere, when that word
decodes; otherwise it is a recorded fault. The masks are R26's. -/
def Obligations.ReadLvtReturnsSupportedBits : Prop :=
  ∀ (s : State) (k : Kind) (mask : Word), CallerArmed s → ConfigSound s.block.cfg →
    (k = .cmci → 7 ≤ countField (lapicVersionWord s.block.cfg s.caller)) →
    (k, mask) ∈ [(.cmci, 0x000107FF#32), (.timer, 0x000700FF#32), (.thermal, 0x000107FF#32), (.perfMon, 0x000107FF#32),
      (.lint0, 0x0001A7FF#32), (.lint1, 0x0001A7FF#32), (Kind.error, 0x000100FF#32)] →
    ((⟨k, s.block.lvt s.caller k⟩ : Entry).wf = true →
      exec (.readLvt k) s = .next (s.complete s.caller
        (.entry ⟨k, (s.block.lvt s.caller k &&& mask) ||| (Config.drawWord s.block.drawCount &&& ~~~mask)⟩)
        { s.block with drawCount := s.block.drawCount + 1 })) ∧
    ((⟨k, s.block.lvt s.caller k⟩ : Entry).wf = false →
      exec (.readLvt k) s = .next (s.recordFault s.caller .invalidReadback (.call (.readLvt k))
        ({ s.block with drawCount := s.block.drawCount + 1 }.release s.caller)))

/-- R193, corner case: after `set_lvt(e)`, `read_lvt` of the same kind by the same core returns an entry of that kind
every field getter of which agrees with e's. -/
def Obligations.ReadLvtAfterSetLvt : Prop :=
  ∀ (s t : State) (e : Entry), CallerArmed s → ConfigSound s.block.cfg → e.wf = true →
    (e.kind = .cmci → 7 ≤ countField (lapicVersionWord s.block.cfg s.caller)) →
    exec (.setLvt e) s = .next t →
    ∃ e' b, exec (.readLvt e.kind) t = .next (t.complete s.caller (.entry e') b) ∧ e'.kind = e.kind ∧
      lvtVector e' = lvtVector e ∧ lvtDeliveryMode e' = lvtDeliveryMode e ∧ lvtPolarity e' = lvtPolarity e ∧
      lvtTriggerMode e' = lvtTriggerMode e ∧ lvtMask e' = lvtMask e ∧ lvtTimerMode e' = lvtTimerMode e

/-- R27: a CMCI access on a controller with fewer than seven entries is a recorded fault; the primitives of R183 need no
prerequisite for it (log entry 10). That `set_lvt` of an ill-formed CMCI entry is such an access too is log entry 19. -/
def Obligations.AbsentCmciFaults : Prop :=
  ∀ (s : State) (e : Entry) (v : Word) (i : Instr), ConfigSound s.block.cfg → e.kind = .cmci →
    countField (lapicVersionWord s.block.cfg s.caller) < 7 →
    (CallerArmed s ∧ i ∈ [.setLvt e, .readLvt .cmci]) ∨
      (CallerReady s ∧ i ∈ [.lapicRead32 s.block.cfg.off.cmci, .lapicWrite32 s.block.cfg.off.cmci v]) →
    exec i s = .next (s.recordFault s.caller .absentRegister (.call i) (s.block.release s.caller))

/-- R194: `mask_all` sets bit 16 of every present LVT register, keeps the other bits the kind supports, leaves an absent
CMCI register alone, and changes nothing else. -/
def Obligations.MaskAllMasksEveryPresentRegister : Prop :=
  ∀ s : State, CallerArmed s → ConfigSound s.block.cfg →
    ∃ b, exec .maskAll s = .next (s.complete s.caller .unit b) ∧
      (∀ k, k ≠ .cmci ∨ 7 ≤ countField (lapicVersionWord s.block.cfg s.caller) →
        (b.lvt s.caller k).getLsbD 16 = true ∧
        b.lvt s.caller k &&& kindMask k = (s.block.lvt s.caller k &&& kindMask k) ||| 0x00010000#32) ∧
      (countField (lapicVersionWord s.block.cfg s.caller) < 7 →
        b.lvt s.caller .cmci = s.block.lvt s.caller .cmci) ∧
      NonLvtSame s.caller s.block b ∧ FacadeSame s.block b ∧ OtherLapicsSame s.caller s.block b ∧
      RouterSame s.block b ∧ b.history = s.block.history

/-- R195, R110, R292: the two ICR words stored and the delivery recorded, with its targets by shorthand. R333: whether a
core's second command is delivered is open, an earlier one may still be pending, so for a core that has issued one
before the free value decides (log entry 27). -/
def Obligations.WriteInterruptCommandDelivers : Prop :=
  ∀ (s : State) (d : IpiDescriptor), CallerArmed s → ConfigSound s.block.cfg →
    ∃ mode word targets,
      exec (.writeInterruptCommand d) s = .next (s.complete s.caller .unit
        { s.block with
          lapics := s.block.lapics.set s.caller
            { s.block.lapic s.caller with icrHi := d.destination.setWidth 32 <<< 24, icrLo := word }
          history := s.block.history ++
            if s.block.commanded s.caller = true ∧ Config.drawDelivered s.block.drawCount = false then []
            else [.deliver (.ipi s.caller) targets d.vector mode d.trigger]
          drawCount := s.block.drawCount + if s.block.commanded s.caller then 1 else 0 }) ∧
      (s.block.commanded s.caller = true ↔
        ∃ ts v m t, Event.deliver (.ipi s.caller) ts v m t ∈ s.block.history) ∧
      (d.deliveryMode, mode) ∈ [(.fixed, .fixed), (.lowestPriority, .lowestPriority), (.smi, .smi), (.nmi, .nmi),
        (.init, .init), (.startUp, EventMode.startUp)] ∧
      word.extractLsb' 0 8 = d.vector ∧
      (d.deliveryMode, word.extractLsb' 8 3) ∈ [(.fixed, 0b000#3), (.lowestPriority, 0b001#3), (.smi, 0b010#3),
        (.nmi, 0b100#3), (.init, 0b101#3), (IpiMode.startUp, 0b110#3)] ∧
      word.getLsbD 11 = decide (d.destMode = .logical) ∧ word.getLsbD 14 = decide (d.level = .assert) ∧
      word.getLsbD 15 = decide (d.trigger = .level) ∧
      (d.shorthand, word.extractLsb' 18 2) ∈ [(.noShorthand, 0b00#2), (.selfOnly, 0b01#2),
        (.allIncludingSelf, 0b10#2), (Shorthand.allExcludingSelf, 0b11#2)] ∧
      word &&& 0xFFF33000#32 = 0#32 ∧
      (d.shorthand = .selfOnly → targets = [s.caller]) ∧
      (d.shorthand = .allIncludingSelf → targets = List.range s.block.cfg.cores.length) ∧
      (d.shorthand = .allExcludingSelf →
        targets = (List.range s.block.cfg.cores.length).filter fun c => c != s.caller) ∧
      (d.shorthand = .noShorthand → d.destMode = .physical →
        targets = (List.range s.block.cfg.cores.length).filter fun c => apicId s.block.cfg c == d.destination) ∧
      (d.shorthand = .noShorthand → d.destMode = .logical → targets = logicalTargets s.block.cfg d.destination)

/-- R183, R25, R26: what `lapic_read32` returns at each register's offset, whatever was selected or initialized (log
entry 10). That bits 23:0 of the ID register read as stored is log entry 25, that every bit of SVR and ICR high does, and
which bit of ICR low does not, log entry 13. -/
def Obligations.LapicRead32ReturnsEachRegister : Prop :=
  ∀ (s : State) (k : Kind), CallerPresent s → ConfigSound s.block.cfg →
    let drew : Block := { s.block with drawCount := s.block.drawCount + 1 }
    let drawn : Word := Config.drawWord s.block.drawCount
    let l := s.block.lapic s.caller
    let reads (off v : Word) (b : Block) : Prop := exec (.lapicRead32 off) s = .next (s.complete s.caller (.word v) b)
    reads s.block.cfg.off.id (apicId s.block.cfg s.caller ++ l.idReserved) s.block ∧
    reads s.block.cfg.off.version (lapicVersionWord s.block.cfg s.caller) s.block ∧
    reads s.block.cfg.off.eoi drawn drew ∧
    reads s.block.cfg.off.svr l.svr s.block ∧
    reads s.block.cfg.off.icrHi l.icrHi s.block ∧
    reads s.block.cfg.off.icrLo ((l.icrLo &&& 0xFFFFEFFF#32) ||| (drawn &&& 0x00001000#32)) drew ∧
    ((k = .cmci → 7 ≤ countField (lapicVersionWord s.block.cfg s.caller)) →
      reads (lvtOffset s.block.cfg k) ((l.lvt.get k &&& kindMask k) ||| (drawn &&& ~~~kindMask k)) drew)

/-- R183, R26, R187: what `lapic_write32` does at each register's offset but ICR low's: ID and Version ignore it, EOI
records the event whatever the word, the others store it; whatever was selected or initialized (log entry 10). -/
def Obligations.LapicWrite32StoresEachRegister : Prop :=
  ∀ (s : State) (k : Kind) (v : Word), CallerPresent s → ConfigSound s.block.cfg →
    let l := s.block.lapic s.caller
    let writes (off : Word) (b : Block) : Prop :=
      exec (.lapicWrite32 off v) s = .next (s.complete s.caller .unit b)
    writes s.block.cfg.off.id s.block ∧ writes s.block.cfg.off.version s.block ∧
    writes s.block.cfg.off.eoi { s.block with history := s.block.history ++ [.eoi s.caller] } ∧
    writes s.block.cfg.off.svr { s.block with lapics := s.block.lapics.set s.caller { l with svr := v } } ∧
    writes s.block.cfg.off.icrHi { s.block with lapics := s.block.lapics.set s.caller { l with icrHi := v } } ∧
    ((k = .cmci → 7 ≤ countField (lapicVersionWord s.block.cfg s.caller)) →
      writes (lvtOffset s.block.cfg k)
        { s.block with lapics := s.block.lapics.set s.caller { l with lvt := l.lvt.put k v } })

/-- R183, R195, R292: an ICR-low write stores the whole word (log entry 13) and issues the command it describes to the
destination in ICR high, whatever was selected or initialized (log entry 10); a reserved mode code delivers some
interrupt-command mode (log entry 14). The core's first command is delivered; R333: whether a later one is, a free value
decides (log entry 27). -/
def Obligations.IcrLowWriteIssuesTheCommand : Prop :=
  ∀ (s : State) (v : Word), CallerPresent s → ConfigSound s.block.cfg →
    ∃ mode trigger targets b,
      exec (.lapicWrite32 s.block.cfg.off.icrLo v) s = .next (s.complete s.caller .unit b) ∧
      b.lapics = s.block.lapics.set s.caller { s.block.lapic s.caller with icrLo := v } ∧
      (let reserved := if v.extractLsb' 8 3 = 0b011#3 ∨ v.extractLsb' 8 3 = 0b111#3 then 1 else 0
       b.history = s.block.history ++
        (if s.block.commanded s.caller = true ∧ Config.drawDelivered (s.block.drawCount + reserved) = false then []
          else [.deliver (.ipi s.caller) targets (v.extractLsb' 0 8) mode trigger]) ∧
       b.drawCount = s.block.drawCount + reserved + if s.block.commanded s.caller then 1 else 0) ∧
      FacadeSame s.block b ∧ RouterSame s.block b ∧
      trigger = (if v.getLsbD 15 then .level else .edge) ∧
      mode ∈ [EventMode.fixed, .lowestPriority, .smi, .nmi, .init, .startUp] ∧
      (v.extractLsb' 8 3 = 0b000#3 → mode = .fixed) ∧ (v.extractLsb' 8 3 = 0b001#3 → mode = .lowestPriority) ∧
      (v.extractLsb' 8 3 = 0b010#3 → mode = .smi) ∧ (v.extractLsb' 8 3 = 0b100#3 → mode = .nmi) ∧
      (v.extractLsb' 8 3 = 0b101#3 → mode = .init) ∧ (v.extractLsb' 8 3 = 0b110#3 → mode = .startUp) ∧
      targets =
        if v.extractLsb' 18 2 = 0b01#2 then [s.caller]
        else if v.extractLsb' 18 2 = 0b10#2 then List.range s.block.cfg.cores.length
        else if v.extractLsb' 18 2 = 0b11#2 then
          (List.range s.block.cfg.cores.length).filter fun c => c != s.caller
        else if v.getLsbD 11 then
          logicalTargets s.block.cfg ((s.block.lapic s.caller).icrHi.extractLsb' 24 8)
        else (List.range s.block.cfg.cores.length).filter fun c =>
          apicId s.block.cfg c == (s.block.lapic s.caller).icrHi.extractLsb' 24 8

/-- R61, R65: an offset that is not a multiple of 4 is refused as unsupported, and an aligned one with no register as
unmapped, whatever was selected or initialized (log entry 10); a refusal stops the core with its reason recorded (log
entry 6). -/
def Obligations.LapicAccessWithNoRegisterIsRefused : Prop :=
  ∀ (s : State) (off v : Word) (i : Instr), CallerReady s → ConfigSound s.block.cfg →
    i ∈ [.lapicRead32 off, .lapicWrite32 off v] →
    (off.toNat % 4 ≠ 0 → exec i s =
      .next (s.recordRefusal s.caller .unsupportedAccess (.call i) (s.block.release s.caller))) ∧
    (off.toNat % 4 = 0 → (∀ r ∈ lapicRegs, lapicOffset s.block.cfg r ≠ off) → exec i s =
      .next (s.recordRefusal s.caller .unmappedOffset (.call i) (s.block.release s.caller)))

/-! ### I/O router -/

/-- R72, R74: a router operation waits, nothing of the block changed, while the device lock is held, and `ior_init` while
another core's runs. That a direct call of `ior_read_reg` or `ior_write_reg` waits too is the model's deduction (log entry
9): the frame of R235 names only the operations of R232 and R237 to R242. -/
def Obligations.RouterOperationsWait : Prop :=
  ∀ (s : State) (i : Instr) (c : CoreId), CallerReady s →
    (needsInitedRouter i = true → s.block.iorInited = true → s.block.iorLock = .held c →
      ∃ rest ret, exec i s = .next (s.suspend s.caller (.call i) 0#32 (.lock :: rest) ret s.block)) ∧
    (s.block.iorInited = false → s.block.iorRunner = some c →
      ∃ rest ret, exec .iorInit s = .next (s.suspend s.caller (.call .iorInit) 0#32 (.iorOnce :: rest) ret s.block))

/-- R233, R116: a line outside 0..min(N, LINES_ADDRESSABLE)-1 is a recorded fault; the lock is free afterwards (log
entry 7). -/
def Obligations.InvalidLineFaults : Prop :=
  ∀ (s : State) (i : Instr) (l : Nat), RouterReady s → lineArgument i = some l →
    min (numLines s.block.cfg) (linesAddressable s.block.cfg) ≤ l →
    exec i s = .next (s.recordFault s.caller .invalidLine (.call i) (s.block.release s.caller))

/-- R232, R105: `supported_interrupts` returns N, 1..256, and leaves the version register's index. -/
def Obligations.SupportedInterruptsReturnsN : Prop :=
  ∀ s : State, RouterReady s →
    exec .supportedInterrupts s = .next (s.complete s.caller
      (.count ((s.block.cfg.iorVersionWord.extractLsb' 16 8).toNat + 1))
      { s.block with iorIndex := s.block.cfg.iorVerIndex })

/-- R230, R31, R32: `ior_read_reg` at the version register, a low register and a high register. -/
def Obligations.IorReadRegReturnsEachRegister : Prop :=
  ∀ (s : State) (l : Nat), RouterReady s → ConfigSound s.block.cfg → LineUsable s.block l →
    let at_ (idx : Byte) (n : Nat) : Block := { s.block with iorIndex := idx, drawCount := n }
    let drawn : Word := Config.drawWord s.block.drawCount
    exec (.iorReadReg s.block.cfg.iorVerIndex) s = .next (s.complete s.caller (.word s.block.cfg.iorVersionWord)
      (at_ s.block.cfg.iorVerIndex s.block.drawCount)) ∧
    exec (.iorReadReg (loIndex s.block.cfg l)) s = .next (s.complete s.caller
      (.word (((s.block.rte l).lo &&& 0x0001AFFF#32) ||| (drawn &&& 0xFFFE5000#32)))
      (at_ (loIndex s.block.cfg l) (s.block.drawCount + 1))) ∧
    exec (.iorReadReg (hiIndex s.block.cfg l)) s = .next (s.complete s.caller
      (.word (((s.block.rte l).hi &&& 0xFF000000#32) ||| (drawn &&& 0x00FFFFFF#32)))
      (at_ (hiIndex s.block.cfg l) (s.block.drawCount + 1)))

/-- R230, R31, R32: `ior_write_reg` is ignored by the version register and stores the word in an entry's register. -/
def Obligations.IorWriteRegStoresEachRegister : Prop :=
  ∀ (s : State) (l : Nat) (v : Word), RouterReady s → ConfigSound s.block.cfg → LineUsable s.block l →
    exec (.iorWriteReg s.block.cfg.iorVerIndex v) s = .next (s.complete s.caller .unit
      { s.block with iorIndex := s.block.cfg.iorVerIndex }) ∧
    exec (.iorWriteReg (loIndex s.block.cfg l) v) s = .next (s.complete s.caller .unit
      { s.block with
        iorIndex := loIndex s.block.cfg l
        rtes := s.block.rtes.set l { lo := v, hi := (s.block.rte l).hi } }) ∧
    exec (.iorWriteReg (hiIndex s.block.cfg l) v) s = .next (s.complete s.caller .unit
      { s.block with
        iorIndex := hiIndex s.block.cfg l
        rtes := s.block.rtes.set l { lo := (s.block.rte l).lo, hi := v } })

/-- R63: an index that is neither the version register's nor a line's is a refusal, which stops the core with its reason
recorded (log entry 6); the lock is free afterwards (log entry 7). -/
def Obligations.UnmappedIndexIsRefused : Prop :=
  ∀ (s : State) (idx : Byte) (v : Word) (i : Instr), RouterReady s → i ∈ [.iorReadReg idx, .iorWriteReg idx v] →
    idx ≠ s.block.cfg.iorVerIndex →
    (∀ l, l < numLines s.block.cfg → s.block.cfg.iorRteBase.toNat + 2 * l ≠ idx.toNat ∧
      s.block.cfg.iorRteBase.toNat + 2 * l + 1 ≠ idx.toNat) →
    exec i s = .next (s.recordRefusal s.caller .unmappedIndex (.call i)
      ({ s.block with iorIndex := idx }.release s.caller))

/-- R237: `enable` writes the recorded vector with no flag, and the destination. -/
def Obligations.EnableUnmasksWithRecordedVector : Prop :=
  ∀ (s : State) (l : Nat) (dest : Byte), RouterReady s → ConfigSound s.block.cfg → LineUsable s.block l →
    exec (.enable l dest) s = .next (s.complete s.caller .unit
      { s.block with
        iorIndex := hiIndex s.block.cfg l
        rtes := s.block.rtes.set l
          { lo := ((s.block.rte l).lo.extractLsb' 0 8).setWidth 32, hi := dest.setWidth 32 <<< 24 }
        drawCount := s.block.drawCount + 1 })

/-- R238: `disable` under both policies: the mask bit set over the word read, or the word rebuilt from its vector with
the high register cleared. -/
def Obligations.DisableMasksUnderBothPolicies : Prop :=
  ∀ (s : State) (l : Nat), RouterReady s → ConfigSound s.block.cfg → LineUsable s.block l →
    (s.block.cfg.disablePolicy = .preserve → exec (.disable l) s = .next (s.complete s.caller .unit
      { s.block with
        iorIndex := loIndex s.block.cfg l
        rtes := s.block.rtes.set l
          { lo := ((s.block.rte l).lo &&& 0x0001AFFF#32) ||| (Config.drawWord s.block.drawCount &&& 0xFFFE5000#32) |||
              0x00010000#32
            hi := (s.block.rte l).hi }
        drawCount := s.block.drawCount + 1 })) ∧
    (s.block.cfg.disablePolicy = .rewrite → exec (.disable l) s = .next (s.complete s.caller .unit
      { s.block with
        iorIndex := hiIndex s.block.cfg l
        rtes := s.block.rtes.set l
          { lo := ((s.block.rte l).lo.extractLsb' 0 8).setWidth 32 ||| 0x00010000#32, hi := 0#32 }
        drawCount := s.block.drawCount + 1 }))

/-- R239, R243: with no other operation in between, `disable_all` leaves every line masked with its vector; no other
line, controller or the Facade changes. -/
def Obligations.DisableAllMasksEveryLine : Prop :=
  ∀ s : State, RouterReady s → ConfigSound s.block.cfg → s.block.rtes.length = numLines s.block.cfg →
    ∃ b, exec .disableAll s = .next (s.complete s.caller .unit b) ∧
      (∀ l, l < min (numLines s.block.cfg) (linesAddressable s.block.cfg) →
        (b.rte l).lo.getLsbD 16 = true ∧ (b.rte l).lo.extractLsb' 0 8 = (s.block.rte l).lo.extractLsb' 0 8 ∧
        (s.block.cfg.disablePolicy = .preserve → (b.rte l).hi = (s.block.rte l).hi ∧
          (b.rte l).lo &&& 0x0001AFFF#32 = ((s.block.rte l).lo &&& 0x0001AFFF#32) ||| 0x00010000#32) ∧
        (s.block.cfg.disablePolicy = .rewrite → (b.rte l).hi = 0#32 ∧
          (b.rte l).lo = ((s.block.rte l).lo.extractLsb' 0 8).setWidth 32 ||| 0x00010000#32)) ∧
      (∀ l, min (numLines s.block.cfg) (linesAddressable s.block.cfg) ≤ l → b.rte l = s.block.rte l) ∧
      b.rtes.length = s.block.rtes.length ∧ FacadeSame s.block b ∧ b.lapics = s.block.lapics ∧
      b.iorInited = true ∧ b.iorRunner = s.block.iorRunner ∧ b.iorLock = .free ∧ b.history = s.block.history

/-- R234: while none has completed and none is running, `ior_init` masks every line, keeps each vector, and sets the
once-state. It is the first call, or one after a run that ended in a fault or a refusal: that such a call runs the
initialization is the model's choice (log entry 30). -/
def Obligations.IorInitMasksEveryLine : Prop :=
  ∀ s : State, CallerReady s → ConfigSound s.block.cfg → s.block.rtes.length = numLines s.block.cfg →
    s.block.iorInited = false → s.block.iorRunner = none → s.block.iorLock = .free →
    (coreParams s.block.cfg s.caller).iorMapOk = true →
    numLines s.block.cfg ≤ linesAddressable s.block.cfg →
    ∃ b, exec .iorInit s = .next (s.complete s.caller .unit b) ∧ b.iorInited = true ∧
      (∀ l, l < numLines s.block.cfg →
        (b.rte l).lo.getLsbD 16 = true ∧ (b.rte l).lo.extractLsb' 0 8 = (s.block.rte l).lo.extractLsb' 0 8 ∧
        (s.block.cfg.disablePolicy = .preserve → (b.rte l).hi = (s.block.rte l).hi ∧
          (b.rte l).lo &&& 0x0001AFFF#32 = ((s.block.rte l).lo &&& 0x0001AFFF#32) ||| 0x00010000#32) ∧
        (s.block.cfg.disablePolicy = .rewrite → (b.rte l).hi = 0#32 ∧
          (b.rte l).lo = ((s.block.rte l).lo.extractLsb' 0 8).setWidth 32 ||| 0x00010000#32)) ∧
      b.rtes.length = s.block.rtes.length ∧ FacadeSame s.block b ∧ b.lapics = s.block.lapics ∧
      b.iorRunner = none ∧ b.iorLock = .free ∧ b.history = s.block.history

/-- R233: more lines than the index byte can address are a refusal at `ior_init`, before any line is written; it stops the
core with its reason recorded (log entry 6), and the run-once record is released (log entry 7). Where an earlier `ior_init`
had failed, that this call runs is log entry 30. -/
def Obligations.UnaddressableLinesAreRefused : Prop :=
  ∀ s : State, CallerReady s → s.block.iorInited = false → s.block.iorRunner = none → s.block.iorLock = .free →
    (coreParams s.block.cfg s.caller).iorMapOk = true →
    (256 - s.block.cfg.iorRteBase.toNat) / 2 < numLines s.block.cfg →
    exec .iorInit s = .next (s.recordRefusal s.caller .unaddressableLines (.call .iorInit)
      { s.block with iorIndex := s.block.cfg.iorVerIndex })

/-- R240, R231: `configure` writes the vector with the four flags, the mask forced on outside [0x20, 0xEF]. -/
def Obligations.ConfigureForcesMaskOnInvalidVector : Prop :=
  ∀ (s : State) (l : Nat) (v dest : Byte) (level activeHigh logical mask : Bool), RouterReady s →
    ConfigSound s.block.cfg → LineUsable s.block l →
    exec (.configure l v dest level activeHigh logical mask) s = .next (s.complete s.caller .unit
      { s.block with
        iorIndex := hiIndex s.block.cfg l
        rtes := s.block.rtes.set l
          { lo := v.setWidth 32 ||| (if level then 0x8000#32 else 0#32) |||
              (if activeHigh then 0#32 else 0x2000#32) ||| (if logical then 0x0800#32 else 0#32) |||
              (if mask = true ∨ v.toNat < 0x20 ∨ 0xEF < v.toNat then 0x10000#32 else 0#32)
            hi := dest.setWidth 32 <<< 24 } })

/-- R241, and R243's first law: `vector_of` returns the stored vector and changes only the index register (and takes one
free value); after `set_vector(l, v)` that vector is v. -/
def Obligations.VectorOfReturnsTheStoredVector : Prop :=
  ∀ (s : State) (l : Nat), RouterReady s → ConfigSound s.block.cfg → LineUsable s.block l →
    exec (.vectorOf l) s = .next (s.complete s.caller (.byte ((s.block.rte l).lo.extractLsb' 0 8))
      { s.block with iorIndex := loIndex s.block.cfg l, drawCount := s.block.drawCount + 1 }) ∧
    ∀ v, ∃ t b, exec (.setVector l v) s = .next t ∧
      exec (.vectorOf l) t = .next (t.complete s.caller (.byte v) b)

/-- R242: `set_vector` replaces the vector, sets the mask bit if the old vector was invalid, never clears it, and keeps
the high register. -/
def Obligations.SetVectorForcesMaskOnOldInvalidVector : Prop :=
  ∀ (s : State) (l : Nat) (v : Byte), RouterReady s → ConfigSound s.block.cfg → LineUsable s.block l →
    let old := ((s.block.rte l).lo.extractLsb' 0 8).toNat
    exec (.setVector l v) s = .next (s.complete s.caller .unit
      { s.block with
        iorIndex := loIndex s.block.cfg l
        rtes := s.block.rtes.set l
          { lo := ((s.block.rte l).lo &&& 0x0001AF00#32) ||| (Config.drawWord s.block.drawCount &&& 0xFFFE5000#32) |||
              (if old < 0x20 ∨ 0xEF < old then 0x10000#32 else 0#32) ||| v.setWidth 32
            hi := (s.block.rte l).hi }
        drawCount := s.block.drawCount + 1 })

/-! ### Deliveries -/

/-- R290: an unmasked local source delivers its stored word's fields to its own core, a masked one nothing now. -/
def Obligations.LocalEventDelivers : Prop :=
  ∀ (s : State) (c : CoreId) (k : Kind) (ts : List Turn), s.turns = .localEvent c k :: ts →
    c < s.block.cfg.cores.length → (k = .cmci → 7 ≤ countField (lapicVersionWord s.block.cfg c)) →
    let w := s.block.lvt c k
    (w.getLsbD 16 = true → step s = .next { s with turns := ts }) ∧
    (w.getLsbD 16 = false → ∃ mode n,
      step s = .next { s with
        turns := ts
        block := { s.block with
          drawCount := n
          history := s.block.history ++ [.deliver (.lvt c k) [c] (w.extractLsb' 0 8) mode
            (if (k = .lint0 ∨ k = .lint1) ∧ w.getLsbD 15 = true then .level else .edge)] } } ∧
      (k = .timer ∨ k = .error → mode = .fixed) ∧
      (k ≠ .timer → k ≠ .error → ∀ p ∈ [(0b000#3, EventMode.fixed), (0b010#3, .smi), (0b100#3, .nmi),
        (0b101#3, .init), (0b110#3, .startUp), (0b111#3, .extInt)], w.extractLsb' 8 3 = p.1 → mode = p.2) ∧
      (k ≠ .timer → k ≠ .error → w.extractLsb' 8 3 = 0b001#3 ∨ w.extractLsb' 8 3 = 0b011#3 →
        mode ∈ [EventMode.fixed, .smi, .nmi, .init, .startUp, .extInt]))

/-- R291, R104: an unmasked line delivers its entry's fields to the cores its destination names, a masked one nothing
now. -/
def Obligations.LineAssertDelivers : Prop :=
  ∀ (s : State) (l : Nat) (ts : List Turn), s.turns = .lineAssert l :: ts → l < numLines s.block.cfg →
    let lo := (s.block.rte l).lo
    let dest := (s.block.rte l).hi.extractLsb' 24 8
    (lo.getLsbD 16 = true → step s = .next { s with turns := ts }) ∧
    (lo.getLsbD 16 = false →
      step s = .next { s with
        turns := ts
        block := { s.block with
          history := s.block.history ++ [.deliver (.line l)
            (if lo.getLsbD 11 then logicalTargets s.block.cfg dest
              else (List.range s.block.cfg.cores.length).filter fun c => apicId s.block.cfg c == dest)
            (lo.extractLsb' 0 8)
            (if lo.extractLsb' 8 3 = 0b000#3 then .fixed else .other (lo.extractLsb' 8 3))
            (if lo.getLsbD 15 then .level else .edge)] } })

/-! ### Raw accesses -/

/-- R64, R65, R62, R31: a raw access of the windows by an idle core. A wrong width or alignment is a recorded refusal;
with the lock free, a write of the index register keeps the low byte, and a read of the data register then returns the
version word. Such a request is log entry 11, which accesses are the block's log entry 28, and that a refusal stops the core with its
reason recorded log entry 6. -/
def Obligations.RawWindowAccesses : Prop :=
  ∀ (s : State) (c : CoreId) (a : Access) (more : List Request) (ts : List Turn) (ag : Agent),
    s.turns = .op c :: ts → s.agents[c]? = some ag → ag.status = .idle → ag.program = .access a :: more →
    ConfigSound s.block.cfg → accessesBlock s.block.cfg a = true →
    ∃ t, step s = .next t ∧
      (a.width ≠ 4 ∨ a.addr % 4 ≠ 0 →
        t.status c = some (.refused .unsupportedAccess (.access a)) ∧ t.refusedMark = true ∧
        t.block = s.block.release c) ∧
      (∀ v, a = { addr := s.block.cfg.iorBase + s.block.cfg.iorRegSelOff.toNat, width := 4, value := some v } →
        s.block.iorLock = .free →
        t.status c = some .idle ∧ t.block = { s.block with iorIndex := v.extractLsb' 0 8 }) ∧
      (a = { addr := s.block.cfg.iorBase + s.block.cfg.iorWinOff.toNat, width := 4, value := none } →
        s.block.iorLock = .free → s.block.iorIndex = s.block.cfg.iorVerIndex →
        t.status c = some .idle ∧ t.block = s.block ∧
        (t.agents[c]?).map Agent.result = some (some (.word s.block.cfg.iorVersionWord)))

/-! ### The machine -/

/-- When the core whose turn it is is idle and the bytes at the head of its program decode, the step is exec of that
operation, for that core, with the request and the turn taken. -/
def Obligations.StepRunsTheDecodedOperation : Prop :=
  ∀ (s : State) (c : CoreId) (ts : List Turn) (a : Agent) (bytes : List Byte) (more : List Request) (i : Instr),
    s.turns = .op c :: ts → s.agents[c]? = some a → a.status = .idle → a.program = .op bytes :: more →
    decode bytes = .ok i →
    step s = exec i { s with
      turns := ts, caller := c, agents := s.agents.modify c fun x => { x with program := more } }

/-- The host's placement of an instruction runs exactly it: from any state whose caller is idle. -/
def Obligations.FetchWordRunsTheOperation : Prop :=
  ∀ (s : State) (nbits w : Nat) (i : Instr), CallerReady s → decodeTableWord nbits w = some i →
    step (s.withFetchWord nbits w) = exec i s

/-- R71, R72: an operation performed at once comes to the state its single actions come to, one after the other with
nothing in between. -/
def Obligations.SingleActionsRefineTheOperation : Prop :=
  ∀ (s : State) (i : Instr), CallerReady s →
    exec i s = .next ((fun t : State => t.advance s.caller)^[(progOf s.block.cfg s.caller i).body.length + 1]
      (s.suspend s.caller (.call i) 0#32 (progOf s.block.cfg s.caller i).body
        (progOf s.block.cfg s.caller i).ret s.block))

/-- R24, R73: no operation changes another core's register file, and none changes the parameters. -/
def Obligations.NoOperationTouchesAnotherController : Prop :=
  ∀ (s t : State) (i : Instr), exec i s = .next t →
    OtherLapicsSame s.caller s.block t.block ∧ t.block.cfg = s.block.cfg

/-- R299, R324: an operation of the router changes neither the Facade nor a controller and records no event, and any other
operation changes neither the router's once-state nor its index register nor its entries, whatever the state and however
the operation ends. -/
def Obligations.OperationsStayInTheirUnit : Prop :=
  ∀ (s t : State) (i : Instr), exec i s = .next t →
    (needsInitedRouter i = true ∨ i = .iorInit →
      FacadeSame s.block t.block ∧ t.block.lapics = s.block.lapics ∧ t.block.history = s.block.history) ∧
    (needsInitedRouter i = false → i ≠ .iorInit →
      t.block.iorInited = s.block.iorInited ∧ t.block.iorIndex = s.block.iorIndex ∧ t.block.rtes = s.block.rtes)

/-- R284, R289: no step clears a recorded fault or the refused mark, and a step only appends to the event history. Nor does
a step clear a core's recorded refusal, which is the model's own record (log entry 6). -/
def Obligations.NoStepErasesARecord : Prop :=
  ∀ s t : State, step s = .next t →
    (∀ c r work, s.status c = some (.faulted r work) → t.status c = some (.faulted r work)) ∧
    (∀ c r work, s.status c = some (.refused r work) → t.status c = some (.refused r work)) ∧
    (s.refusedMark = true → t.refusedMark = true) ∧ s.block.history <+: t.block.history

/-- R21, R22, R23, R29: the selection is made once and never undone, and no one-time flag is ever cleared. -/
def Obligations.OneTimeFlagsNeverTransitionBack : Prop :=
  ∀ s t : State, Selection s → step s = .next t →
    (s.block.enableType ≠ .unselected → t.block.enableType = s.block.enableType) ∧
    (s.block.facadeOnce = .completed → t.block.facadeOnce = .completed) ∧
    (∀ c, (s.block.lapic c).inited = true → (t.block.lapic c).inited = true) ∧
    (s.block.iorInited = true → t.block.iorInited = true)

/-- R24, R32, R299: every step keeps one controller and one agent per core and one entry per line. -/
def Obligations.StepKeepsShape : Prop :=
  ∀ s t : State, Shaped s → step s = .next t → Shaped t

/-- R36: every step keeps its invariants, the first and second from any state that has them, the third under sound
parameters from a state with the lock discipline. The third is R36's own, "no operation of R236 to R242 has written", where
the step makes no write of the data register outside a router operation (R230); and for any step where every other core's
write counts (log entry 29). -/
def Obligations.StepKeepsSelection : Prop :=
  (∀ s t : State, Selection s → step s = .next t → Selection t) ∧
  ∀ (s t : State) (written : List Nat), ConfigSound s.block.cfg → Shaped s → LockDiscipline s →
    MaskDiscipline written s → step s = .next t →
    (WithinOperations s → MaskDiscipline (writtenByOperations s written) t) ∧
    MaskDiscipline (writtenAfter s written) t

/-- R72: every step keeps the lock discipline. Where the holder faults or is refused under the lock, the step keeps it
because the model then releases the lock (log entry 7, DEDUCED). Direct calls of `ior_read_reg` and `ior_write_reg` are
counted among the operations that take the lock (log entry 9, DEDUCED), and a raw access as one made without it (log entry
11, DEDUCED). -/
def Obligations.StepKeepsLockDiscipline : Prop :=
  ∀ s t : State, LockDiscipline s → step s = .next t → LockDiscipline t

/-- The invariants hold after reset, for any parameters and any unspecified contents, with no line written. -/
def Obligations.InvariantsHoldAtReset : Prop :=
  ∀ (cfg : Config) (u : PowerOn),
    Shaped (State.powerOn cfg u) ∧ Selection (State.powerOn cfg u) ∧ LockDiscipline (State.powerOn cfg u) ∧
      MaskDiscipline [] (State.powerOn cfg u)

/-- R72: while a core holds the device lock, another core's turn changes neither the index register, nor an entry, nor
the lock. A turn that calls `ior_read_reg` or `ior_write_reg` directly waits (log entry 9), and so does a raw access to the
router's window (log entry 11). -/
def Obligations.LockHolderIsAloneAtTheRouter : Prop :=
  ∀ (s t : State) (c c' : CoreId) (ts : List Turn), LockDiscipline s → s.block.iorLock = .held c → c' ≠ c →
    (s.turns = .op c' :: ts ∨ s.turns = .micro c' :: ts) → step s = .next t →
    t.block.iorIndex = s.block.iorIndex ∧ t.block.rtes = s.block.rtes ∧ t.block.iorLock = .held c

/-- R320, R321: after reset, for any parameters, the flags, lock and records are as the table gives them, the read-only
registers read as their parameters, and every register the table leaves unspecified holds what was there (`u`, any
contents). A step with nothing scheduled leaves the machine as it is (log entry 22). -/
def Obligations.ResetLeavesWhatTheTableGives : Prop :=
  ∀ (cfg : Config) (u : PowerOn),
    let s := State.powerOn cfg u
    s.block.cfg = cfg ∧ s.block.enableType = .unselected ∧ s.block.facadeOnce = .notRun ∧
    (∀ c, (s.block.lapic c).inited = false) ∧ s.block.iorInited = false ∧ s.block.iorLock = .free ∧
    s.block.history = [] ∧ s.refusedMark = false ∧ s.unfailed = true ∧
    (∀ c, c < cfg.cores.length → s.status c = some .idle ∧
      (let there := u.lapics.getD c default
       (s.block.lapic c).svr = there.svr ∧ (s.block.lapic c).icrLo = there.icrLo ∧
        (s.block.lapic c).icrHi = there.icrHi ∧ (s.block.lapic c).lvt = there.lvt ∧
        (s.block.lapic c).idReserved = there.idReserved) ∧
      readLapicReg c .version s.block = .ok (lapicVersionWord cfg c) s.block ∧
      readLapicReg c .id s.block = .ok (apicId cfg c ++ (u.lapics.getD c default).idReserved) s.block) ∧
    s.block.iorIndex = u.index ∧
    dataRead { s.block with iorIndex := cfg.iorVerIndex } =
      .ok cfg.iorVersionWord { s.block with iorIndex := cfg.iorVerIndex } ∧
    s.block.rtes.length = numLines cfg ∧ (∀ l, l < numLines cfg → s.block.rte l = u.rtes.getD l default) ∧
    step s = .next s

end
end

