-- ==== Sys2Proof/Laws/State.lean ====
section
/-! SUPPORT. One lemma per field per update of State and Block, so that no proof unfolds a record update. -/

namespace Sys2Proof.Machine

section BlockUpdates

variable (b : Block) (c : CoreId) (l : Lapic) (n : Nat) (r : Rte) (e : Event) (k : Kind) (w : Word)

@[simp] theorem setLapic_cfg : (b.setLapic c l).cfg = b.cfg := rfl
@[simp] theorem setLapic_enableType : (b.setLapic c l).enableType = b.enableType := rfl
@[simp] theorem setLapic_facadeOnce : (b.setLapic c l).facadeOnce = b.facadeOnce := rfl
@[simp] theorem setLapic_lapics : (b.setLapic c l).lapics = b.lapics.set c l := rfl
@[simp] theorem setLapic_iorInited : (b.setLapic c l).iorInited = b.iorInited := rfl
@[simp] theorem setLapic_iorRunner : (b.setLapic c l).iorRunner = b.iorRunner := rfl
@[simp] theorem setLapic_iorIndex : (b.setLapic c l).iorIndex = b.iorIndex := rfl
@[simp] theorem setLapic_rtes : (b.setLapic c l).rtes = b.rtes := rfl
@[simp] theorem setLapic_iorLock : (b.setLapic c l).iorLock = b.iorLock := rfl
@[simp] theorem setLapic_history : (b.setLapic c l).history = b.history := rfl
@[simp] theorem setLapic_drawCount : (b.setLapic c l).drawCount = b.drawCount := rfl

@[simp] theorem setRte_cfg : (b.setRte n r).cfg = b.cfg := rfl
@[simp] theorem setRte_enableType : (b.setRte n r).enableType = b.enableType := rfl
@[simp] theorem setRte_facadeOnce : (b.setRte n r).facadeOnce = b.facadeOnce := rfl
@[simp] theorem setRte_lapics : (b.setRte n r).lapics = b.lapics := rfl
@[simp] theorem setRte_iorInited : (b.setRte n r).iorInited = b.iorInited := rfl
@[simp] theorem setRte_iorRunner : (b.setRte n r).iorRunner = b.iorRunner := rfl
@[simp] theorem setRte_iorIndex : (b.setRte n r).iorIndex = b.iorIndex := rfl
@[simp] theorem setRte_rtes : (b.setRte n r).rtes = b.rtes.set n r := rfl
@[simp] theorem setRte_iorLock : (b.setRte n r).iorLock = b.iorLock := rfl
@[simp] theorem setRte_history : (b.setRte n r).history = b.history := rfl
@[simp] theorem setRte_drawCount : (b.setRte n r).drawCount = b.drawCount := rfl

@[simp] theorem record_cfg : (b.record e).cfg = b.cfg := rfl
@[simp] theorem record_enableType : (b.record e).enableType = b.enableType := rfl
@[simp] theorem record_facadeOnce : (b.record e).facadeOnce = b.facadeOnce := rfl
@[simp] theorem record_lapics : (b.record e).lapics = b.lapics := rfl
@[simp] theorem record_iorInited : (b.record e).iorInited = b.iorInited := rfl
@[simp] theorem record_iorRunner : (b.record e).iorRunner = b.iorRunner := rfl
@[simp] theorem record_iorIndex : (b.record e).iorIndex = b.iorIndex := rfl
@[simp] theorem record_rtes : (b.record e).rtes = b.rtes := rfl
@[simp] theorem record_iorLock : (b.record e).iorLock = b.iorLock := rfl
@[simp] theorem record_history : (b.record e).history = b.history ++ [e] := rfl
@[simp] theorem record_drawCount : (b.record e).drawCount = b.drawCount := rfl

@[simp] theorem drew_cfg : b.drew.cfg = b.cfg := rfl
@[simp] theorem drew_enableType : b.drew.enableType = b.enableType := rfl
@[simp] theorem drew_facadeOnce : b.drew.facadeOnce = b.facadeOnce := rfl
@[simp] theorem drew_lapics : b.drew.lapics = b.lapics := rfl
@[simp] theorem drew_iorInited : b.drew.iorInited = b.iorInited := rfl
@[simp] theorem drew_iorRunner : b.drew.iorRunner = b.iorRunner := rfl
@[simp] theorem drew_iorIndex : b.drew.iorIndex = b.iorIndex := rfl
@[simp] theorem drew_rtes : b.drew.rtes = b.rtes := rfl
@[simp] theorem drew_iorLock : b.drew.iorLock = b.iorLock := rfl
@[simp] theorem drew_history : b.drew.history = b.history := rfl
@[simp] theorem drew_drawCount : b.drew.drawCount = b.drawCount + 1 := rfl

@[simp] theorem release_cfg : (b.release c).cfg = b.cfg := rfl
@[simp] theorem release_enableType : (b.release c).enableType = b.enableType := rfl
@[simp] theorem release_facadeOnce : (b.release c).facadeOnce = b.facadeOnce := rfl
@[simp] theorem release_lapics : (b.release c).lapics = b.lapics := rfl
@[simp] theorem release_iorInited : (b.release c).iorInited = b.iorInited := rfl
@[simp] theorem release_iorIndex : (b.release c).iorIndex = b.iorIndex := rfl
@[simp] theorem release_rtes : (b.release c).rtes = b.rtes := rfl
@[simp] theorem release_history : (b.release c).history = b.history := rfl
@[simp] theorem release_drawCount : (b.release c).drawCount = b.drawCount := rfl

/-- The core's first command is recorded; of a later one the free value decides (R333). -/
@[simp] theorem recordCommand_history : (b.recordCommand c e).history = b.history ++
    if b.commanded c = true ∧ Config.drawDelivered b.drawCount = false then [] else [e] := by
  unfold Block.recordCommand
  cases b.commanded c <;> cases Config.drawDelivered b.drawCount <;> simp

@[simp] theorem recordCommand_drawCount :
    (b.recordCommand c e).drawCount = b.drawCount + if b.commanded c then 1 else 0 := by
  unfold Block.recordCommand
  cases b.commanded c <;> cases Config.drawDelivered b.drawCount <;> simp

@[simp] theorem recordCommand_cfg : (b.recordCommand c e).cfg = b.cfg := by
  unfold Block.recordCommand; repeat' split
  all_goals rfl
@[simp] theorem recordCommand_enableType : (b.recordCommand c e).enableType = b.enableType := by
  unfold Block.recordCommand; repeat' split
  all_goals rfl
@[simp] theorem recordCommand_facadeOnce : (b.recordCommand c e).facadeOnce = b.facadeOnce := by
  unfold Block.recordCommand; repeat' split
  all_goals rfl
@[simp] theorem recordCommand_lapics : (b.recordCommand c e).lapics = b.lapics := by
  unfold Block.recordCommand; repeat' split
  all_goals rfl
@[simp] theorem recordCommand_iorInited : (b.recordCommand c e).iorInited = b.iorInited := by
  unfold Block.recordCommand; repeat' split
  all_goals rfl
@[simp] theorem recordCommand_iorRunner : (b.recordCommand c e).iorRunner = b.iorRunner := by
  unfold Block.recordCommand; repeat' split
  all_goals rfl
@[simp] theorem recordCommand_iorIndex : (b.recordCommand c e).iorIndex = b.iorIndex := by
  unfold Block.recordCommand; repeat' split
  all_goals rfl
@[simp] theorem recordCommand_rtes : (b.recordCommand c e).rtes = b.rtes := by
  unfold Block.recordCommand; repeat' split
  all_goals rfl
@[simp] theorem recordCommand_iorLock : (b.recordCommand c e).iorLock = b.iorLock := by
  unfold Block.recordCommand; repeat' split
  all_goals rfl

@[simp] theorem indexWrite_cfg : (indexWrite w b).cfg = b.cfg := rfl
@[simp] theorem indexWrite_lapics : (indexWrite w b).lapics = b.lapics := rfl
@[simp] theorem indexWrite_rtes : (indexWrite w b).rtes = b.rtes := rfl
@[simp] theorem indexWrite_iorLock : (indexWrite w b).iorLock = b.iorLock := rfl
@[simp] theorem indexWrite_iorIndex : (indexWrite w b).iorIndex = vectorField w := rfl
@[simp] theorem indexWrite_enableType : (indexWrite w b).enableType = b.enableType := rfl
@[simp] theorem indexWrite_facadeOnce : (indexWrite w b).facadeOnce = b.facadeOnce := rfl
@[simp] theorem indexWrite_iorInited : (indexWrite w b).iorInited = b.iorInited := rfl
@[simp] theorem indexWrite_iorRunner : (indexWrite w b).iorRunner = b.iorRunner := rfl
@[simp] theorem indexWrite_history : (indexWrite w b).history = b.history := rfl
@[simp] theorem indexWrite_drawCount : (indexWrite w b).drawCount = b.drawCount := rfl

end BlockUpdates

/-! ### Reading back what was set -/

theorem lapic_setLapic (b : Block) {c : CoreId} (l : Lapic) (h : c < b.lapics.length) :
    (b.setLapic c l).lapic c = l := by
  simp [Block.lapic, Block.setLapic, List.getD_eq_getElem?_getD, h]

theorem lapic_setLapic_other (b : Block) {c c' : CoreId} (l : Lapic) (h : c ≠ c') :
    (b.setLapic c l).lapic c' = b.lapic c' := by
  simp [Block.lapic, Block.setLapic, List.getD_eq_getElem?_getD, List.getElem?_set_ne h]

theorem rte_setRte (b : Block) {n : Nat} (r : Rte) (h : n < b.rtes.length) : (b.setRte n r).rte n = r := by
  simp [Block.rte, Block.setRte, List.getD_eq_getElem?_getD, h]

theorem rte_setRte_other (b : Block) {n n' : Nat} (r : Rte) (h : n ≠ n') : (b.setRte n r).rte n' = b.rte n' := by
  simp [Block.rte, Block.setRte, List.getD_eq_getElem?_getD, List.getElem?_set_ne h]

@[simp] theorem lvtRegs_get_put (r : LvtRegs) (k : Kind) (w : Word) : (r.put k w).get k = w := by cases k <;> rfl

theorem lvtRegs_get_put_other (r : LvtRegs) {k k' : Kind} (w : Word) (h : k ≠ k') : (r.put k w).get k' = r.get k' := by
  cases k <;> cases k' <;> first | exact absurd rfl h | rfl

/-! ### The agents -/

section StateUpdates

variable (s : State) (c : CoreId) (st : Status) (v : Value) (b : Block) (work : Work) (w : Word) (rest : List Micro)
  (ret : Ret) (rf : FaultReason) (rr : RefusalReason)

@[simp] theorem complete_block : (s.complete c v b).block = b := rfl
@[simp] theorem complete_caller : (s.complete c v b).caller = s.caller := rfl
@[simp] theorem complete_turns : (s.complete c v b).turns = s.turns := rfl
@[simp] theorem complete_refusedMark : (s.complete c v b).refusedMark = s.refusedMark := rfl
@[simp] theorem suspend_block : (s.suspend c work w rest ret b).block = b := rfl
@[simp] theorem suspend_caller : (s.suspend c work w rest ret b).caller = s.caller := rfl
@[simp] theorem suspend_turns : (s.suspend c work w rest ret b).turns = s.turns := rfl
@[simp] theorem suspend_refusedMark : (s.suspend c work w rest ret b).refusedMark = s.refusedMark := rfl
@[simp] theorem recordFault_block : (s.recordFault c rf work b).block = b := rfl
@[simp] theorem recordFault_caller : (s.recordFault c rf work b).caller = s.caller := rfl
@[simp] theorem recordFault_turns : (s.recordFault c rf work b).turns = s.turns := rfl
@[simp] theorem recordFault_refusedMark : (s.recordFault c rf work b).refusedMark = s.refusedMark := rfl
@[simp] theorem recordRefusal_block : (s.recordRefusal c rr work b).block = b := rfl
@[simp] theorem recordRefusal_caller : (s.recordRefusal c rr work b).caller = s.caller := rfl
@[simp] theorem recordRefusal_turns : (s.recordRefusal c rr work b).turns = s.turns := rfl
@[simp] theorem recordRefusal_refusedMark : (s.recordRefusal c rr work b).refusedMark = true := rfl

@[simp] theorem complete_agents_length : (s.complete c v b).agents.length = s.agents.length := by
  simp [State.complete]
@[simp] theorem suspend_agents_length : (s.suspend c work w rest ret b).agents.length = s.agents.length := by
  simp [State.suspend, State.setStatus]
@[simp] theorem recordFault_agents_length : (s.recordFault c rf work b).agents.length = s.agents.length := by
  simp [State.recordFault, State.setStatus]
@[simp] theorem recordRefusal_agents_length : (s.recordRefusal c rr work b).agents.length = s.agents.length := by
  simp [State.recordRefusal, State.setStatus]

/-- The status of every core after core c's was set. -/
theorem status_setStatus (c' : CoreId) :
    (s.setStatus c st).status c' = if c' = c then (s.status c).map fun _ => st else s.status c' := by
  by_cases h : c' = c
  · subst h; simp [State.status, State.setStatus, Function.comp_def]
  · simp [State.status, State.setStatus, h, Ne.symm h]

/-- The status of every core after core c completed. -/
theorem status_complete (c' : CoreId) :
    (s.complete c v b).status c' = if c' = c then (s.status c).map fun _ => .idle else s.status c' := by
  by_cases h : c' = c
  · subst h; simp [State.status, State.complete, Function.comp_def]
  · simp [State.status, State.complete, h, Ne.symm h]

theorem status_suspend (c' : CoreId) : (s.suspend c work w rest ret b).status c' =
    if c' = c then (s.status c).map fun _ => .running work w rest ret else s.status c' := by
  rw [show (s.suspend c work w rest ret b).status c' = (s.setStatus c (.running work w rest ret)).status c' from rfl,
    status_setStatus]

theorem status_recordFault (c' : CoreId) : (s.recordFault c rf work b).status c' =
    if c' = c then (s.status c).map fun _ => .faulted rf work else s.status c' := by
  rw [show (s.recordFault c rf work b).status c' = (s.setStatus c (.faulted rf work)).status c' from rfl,
    status_setStatus]

theorem status_recordRefusal (c' : CoreId) : (s.recordRefusal c rr work b).status c' =
    if c' = c then (s.status c).map fun _ => .refused rr work else s.status c' := by
  rw [show (s.recordRefusal c rr work b).status c' = (s.setStatus c (.refused rr work)).status c' from rfl,
    status_setStatus]

end StateUpdates

end Sys2Proof.Machine
end

