-- ==== Sys2Proof/Laws/Codec.lean ====
section
/-! SUPPORT. The small laws of the bit-field primitives and of the enumerant codes. -/

namespace Sys2Proof.Machine

/-! ### setbits by field (spec/00_scope.md R9) -/

theorem setbits_vector (w v : Word) : setbits w 7 0 v = (w &&& 0xFFFFFF00#32) ||| (v &&& 0x000000FF#32) := by
  have h : fieldMask 7 0 = 0x000000FF#32 := by decide
  simp only [setbits, h, BitVec.shiftLeft_zero]
  rfl

theorem setbits_deliveryMode (w v : Word) :
    setbits w 10 8 v = (w &&& 0xFFFFF8FF#32) ||| (v <<< 8 &&& 0x00000700#32) := by
  have h : fieldMask 10 8 = 0x00000700#32 := by decide
  simp only [setbits, h]
  rfl

theorem setbits_polarity (w v : Word) :
    setbits w 13 13 v = (w &&& 0xFFFFDFFF#32) ||| (v <<< 13 &&& 0x00002000#32) := by
  have h : fieldMask 13 13 = 0x00002000#32 := by decide
  simp only [setbits, h]
  rfl

theorem setbits_trigger (w v : Word) :
    setbits w 15 15 v = (w &&& 0xFFFF7FFF#32) ||| (v <<< 15 &&& 0x00008000#32) := by
  have h : fieldMask 15 15 = 0x00008000#32 := by decide
  simp only [setbits, h]
  rfl

theorem setbits_mask (w v : Word) :
    setbits w 16 16 v = (w &&& 0xFFFEFFFF#32) ||| (v <<< 16 &&& 0x00010000#32) := by
  have h : fieldMask 16 16 = 0x00010000#32 := by decide
  simp only [setbits, h]
  rfl

theorem setbits_timerMode (w v : Word) :
    setbits w 18 17 v = (w &&& 0xFFF9FFFF#32) ||| (v <<< 17 &&& 0x00060000#32) := by
  have h : fieldMask 18 17 = 0x00060000#32 := by decide
  simp only [setbits, h]
  rfl

/-! ### Enumerant codes are inverse to their readings (R131, R132, R110) -/

@[simp] theorem dmFromBits_dmCode (m : DeliveryMode) : dmFromBits (dmCode m) = some m := by cases m <;> rfl

@[simp] theorem tmFromBits_tmCode (m : TimerMode) : tmFromBits (tmCode m) = some m := by cases m <;> rfl

@[simp] theorem ipiModeFromBits_code (m : IpiMode) : ipiModeFromBits (ipiModeCode m) = some m := by cases m <;> rfl

@[simp] theorem shorthandFromBits_code (h : Shorthand) : shorthandFromBits (shorthandCode h) = h := by cases h <;> rfl

theorem dmFromBits_none_iff (b : BitVec 3) : dmFromBits b = none ↔ b = 1#3 ∨ b = 3#3 := by
  revert b; decide

theorem tmFromBits_none_iff (b : BitVec 2) : tmFromBits b = none ↔ b = 3#2 := by
  revert b; decide

theorem dmFromBits_some_iff (b : BitVec 3) (m : DeliveryMode) : dmFromBits b = some m ↔ b = dmCode m := by
  cases m <;> revert b <;> decide

theorem tmFromBits_some_iff (b : BitVec 2) (m : TimerMode) : tmFromBits b = some m ↔ b = tmCode m := by
  cases m <;> revert b <;> decide

/-! ### Reading back (R26, R32) -/

theorem getLsbD_readBack (mask stored drawn : Word) (i : Nat) (h : mask.getLsbD i = true) :
    (readBack mask stored drawn).getLsbD i = stored.getLsbD i := by
  simp [readBack, h]

theorem readBack_and_mask (mask stored drawn : Word) : readBack mask stored drawn &&& mask = stored &&& mask := by
  ext i hi
  simp only [readBack, BitVec.getElem_and, BitVec.getElem_or, BitVec.getElem_not]
  cases mask[i] <;> simp

theorem vectorField_readBack_kind (k : Kind) (stored drawn : Word) :
    vectorField (readBack (kindMask k) stored drawn) = vectorField stored := by
  have h : ∀ i, i < 8 → (kindMask k).getLsbD i = true := by cases k <;> decide
  ext i hi
  simp only [vectorField, BitVec.getElem_extractLsb', Nat.zero_add, getLsbD_readBack _ _ _ _ (h i hi)]

theorem vectorField_readBack_rte (stored drawn : Word) :
    vectorField (readBack rteLoMask stored drawn) = vectorField stored := by
  have h : ∀ i, i < 8 → rteLoMask.getLsbD i = true := by decide
  ext i hi
  simp only [vectorField, BitVec.getElem_extractLsb', Nat.zero_add, getLsbD_readBack _ _ _ _ (h i hi)]

theorem modeField_readBack_kind {k : Kind} (hk : k.hasDeliveryMode = true) (stored drawn : Word) :
    modeField (readBack (kindMask k) stored drawn) = modeField stored := by
  have h : ∀ i, i < 3 → (kindMask k).getLsbD (8 + i) = true := by
    cases k <;> first | exact absurd hk (by decide) | decide
  ext i hi
  simp only [modeField, BitVec.getElem_extractLsb', getLsbD_readBack _ _ _ _ (h i hi)]

theorem timerField_readBack_timer (stored drawn : Word) :
    timerField (readBack (kindMask .timer) stored drawn) = timerField stored := by
  have h : ∀ i, i < 2 → (kindMask .timer).getLsbD (17 + i) = true := by decide
  ext i hi
  simp only [timerField, BitVec.getElem_extractLsb', getLsbD_readBack _ _ _ _ (h i hi)]

end Sys2Proof.Machine
end

