-- ==== Sys2Proof/Laws/Ops.lean ====
section
/-! SUPPORT. What the shared operations can do, said once: register lookup under sound parameters, one lemma per action,
and what every action leaves unchanged. -/

namespace Sys2Proof.Machine

/-! ### Performing an operation -/

/-- The meaning of every operation is its list of actions, performed by the calling core. -/
theorem exec_eq_perform (i : Instr) (s : State) :
    exec i s = s.perform (.call i) (progOf s.block.cfg s.caller i) := by
  cases i <;> rfl

theorem perform_ready {s : State} (h : CallerReady s) (work : Work) (p : Prog) :
    s.perform work p = .next (s.settle s.caller work p.ret (runBody s.caller p.body 0#32 s.block)) := by
  have h' : s.status s.caller = some .idle := h
  rw [State.perform, if_pos h']

/-- exec of a ready caller is a next state. -/
theorem exec_ready {s : State} (h : CallerReady s) (i : Instr) :
    exec i s = .next (s.settle s.caller (.call i) (progOf s.block.cfg s.caller i).ret
      (runBody s.caller (progOf s.block.cfg s.caller i).body 0#32 s.block)) := by
  rw [exec_eq_perform, perform_ready h]

/-- A next state of exec is the caller's settled one. -/
theorem exec_next {s t : State} {i : Instr} (h : exec i s = .next t) :
    CallerReady s ∧ t = s.settle s.caller (.call i) (progOf s.block.cfg s.caller i).ret
      (runBody s.caller (progOf s.block.cfg s.caller i).body 0#32 s.block) := by
  rw [exec_eq_perform] at h
  unfold State.perform at h
  split at h
  · rename_i hr
    exact ⟨hr, (Host.Outcome.next.inj h).symm⟩
  · cases h

@[simp] theorem runBody_nil (c : CoreId) (w : Word) (b : Block) : runBody c [] w b = .done w b := rfl

theorem runBody_cons (c : CoreId) (m : Micro) (ms : List Micro) (w : Word) (b : Block) :
    runBody c (m :: ms) w b =
      match microStep c m w b with
      | .ok w' b' => runBody c ms w' b'
      | .wait => .blocked w (m :: ms) b
      | .fault r => .fault r (b.release c)
      | .refuse r => .refuse r (b.release c) := rfl

theorem runBody_ok {c : CoreId} {m : Micro} {w w' : Word} {b b' : Block} (h : microStep c m w b = .ok w' b')
    (ms : List Micro) : runBody c (m :: ms) w b = runBody c ms w' b' := by
  rw [runBody_cons, h]

/-- A run that is done with its first part goes on with the rest. -/
theorem runBody_append {c : CoreId} (ms ms' : List Micro) (w : Word) (b : Block) {w' : Word} {b' : Block}
    (h : runBody c ms w b = .done w' b') : runBody c (ms ++ ms') w b = runBody c ms' w' b' := by
  induction ms generalizing w b with
  | nil =>
    simp only [runBody_nil, Halt.done.injEq] at h
    obtain ⟨rfl, rfl⟩ := h
    rfl
  | cons m ms ih =>
    rw [List.cons_append, runBody_cons]
    rw [runBody_cons] at h
    cases hm : microStep c m w b with
    | ok w1 b1 =>
      rw [hm] at h
      exact ih w1 b1 h
    | wait => rw [hm] at h; cases h
    | fault r => rw [hm] at h; cases h
    | refuse r => rw [hm] at h; cases h

/-! ### Register lookup under sound parameters -/

theorem mem_lapicRegs (r : LapicReg) : r ∈ lapicRegs := by
  cases r with
  | lvt k => cases k <;> simp [lapicRegs]
  | _ => simp [lapicRegs]

/-- In a list without two elements of one image, looking an element's image up finds that element. -/
theorem find?_of_nodup_map {α : Type} {f : α → Word} {l : List α} (hn : (l.map f).Nodup) {a : α} (ha : a ∈ l) :
    l.find? (fun x => f x == f a) = some a := by
  induction l with
  | nil => cases ha
  | cons x xs ih =>
    rw [List.map_cons, List.nodup_cons] at hn
    rcases List.mem_cons.mp ha with rfl | hm
    · simp
    · have hne : f x ≠ f a := fun he => hn.1 (he ▸ List.mem_map_of_mem hm)
      rw [List.find?_cons_of_neg (by simpa using hne)]
      exact ih hn.2 hm

@[simp] theorem lapicOffset_id (cfg : Config) : lapicOffset cfg .id = cfg.off.id := rfl
@[simp] theorem lapicOffset_version (cfg : Config) : lapicOffset cfg .version = cfg.off.version := rfl
@[simp] theorem lapicOffset_eoi (cfg : Config) : lapicOffset cfg .eoi = cfg.off.eoi := rfl
@[simp] theorem lapicOffset_svr (cfg : Config) : lapicOffset cfg .svr = cfg.off.svr := rfl
@[simp] theorem lapicOffset_icrLo (cfg : Config) : lapicOffset cfg .icrLo = cfg.off.icrLo := rfl
@[simp] theorem lapicOffset_icrHi (cfg : Config) : lapicOffset cfg .icrHi = cfg.off.icrHi := rfl
@[simp] theorem lapicOffset_lvt (cfg : Config) (k : Kind) : lapicOffset cfg (.lvt k) = lvtOffset cfg k := rfl

theorem lapicRegAt_offset {cfg : Config} (h : ConfigSound cfg) (r : LapicReg) :
    lapicRegAt cfg (lapicOffset cfg r) = some r :=
  find?_of_nodup_map h.offsets_distinct (mem_lapicRegs r)

theorem lapicTarget_offset {cfg : Config} (h : ConfigSound cfg) (r : LapicReg) :
    lapicTarget cfg (lapicOffset cfg r) = .ok r := by
  have h1 := h.offsets_aligned r (mem_lapicRegs r)
  have h2 := h.bases_aligned.1
  have h3 : ¬ (cfg.lapicBase + (lapicOffset cfg r).toNat) % 4 ≠ 0 := by omega
  rw [lapicTarget, if_neg h3, lapicRegAt_offset h]

theorem lapicRead32_offset {b : Block} (h : ConfigSound b.cfg) (c : CoreId) (r : LapicReg) :
    lapicRead32 c (lapicOffset b.cfg r) b = readLapicReg c r b := by
  rw [lapicRead32, lapicTarget_offset h]

theorem lapicWrite32_offset {b : Block} (h : ConfigSound b.cfg) (c : CoreId) (r : LapicReg) (v : Word) :
    lapicWrite32 c (lapicOffset b.cfg r) v b = writeLapicReg c r v b := by
  rw [lapicWrite32, lapicTarget_offset h]

theorem loIndex_toNat {cfg : Config} {l : Nat} (hl : l < linesAddressable cfg) :
    (loIndex cfg l).toNat = cfg.iorRteBase.toNat + 2 * l := by
  unfold linesAddressable at hl
  rw [loIndex, BitVec.toNat_ofNat, Nat.mod_eq_of_lt]
  omega

theorem hiIndex_toNat {cfg : Config} {l : Nat} (hl : l < linesAddressable cfg) :
    (hiIndex cfg l).toNat = cfg.iorRteBase.toNat + 2 * l + 1 := by
  unfold linesAddressable at hl
  rw [hiIndex, BitVec.toNat_ofNat, Nat.mod_eq_of_lt]
  omega

@[simp] theorem iorRegAt_version (cfg : Config) : iorRegAt cfg cfg.iorVerIndex = some .version := by
  rw [iorRegAt, if_pos rfl]

theorem iorRegAt_lo {cfg : Config} (h : ConfigSound cfg) {l : Nat} (hl : l < min (numLines cfg) (linesAddressable cfg)) :
    iorRegAt cfg (loIndex cfg l) = some (.lo l) := by
  have h1 := loIndex_toNat (lt_of_lt_of_le hl (Nat.min_le_right _ _))
  have h2 := lt_of_lt_of_le hl (Nat.min_le_left _ _)
  have h3 : loIndex cfg l ≠ cfg.iorVerIndex := by
    intro he
    have := congrArg BitVec.toNat he
    have := h.index_distinct
    omega
  simp only [iorRegAt, h3, if_false, h1]
  rw [if_pos (by omega)]
  have h4 : cfg.iorRteBase.toNat + 2 * l - cfg.iorRteBase.toNat = 2 * l := by omega
  simp [h4, h2]

theorem iorRegAt_hi {cfg : Config} (h : ConfigSound cfg) {l : Nat} (hl : l < min (numLines cfg) (linesAddressable cfg)) :
    iorRegAt cfg (hiIndex cfg l) = some (.hi l) := by
  have h1 := hiIndex_toNat (lt_of_lt_of_le hl (Nat.min_le_right _ _))
  have h2 := lt_of_lt_of_le hl (Nat.min_le_left _ _)
  have h3 : hiIndex cfg l ≠ cfg.iorVerIndex := by
    intro he
    have := congrArg BitVec.toNat he
    have := h.index_distinct
    omega
  simp only [iorRegAt, h3, if_false, h1]
  rw [if_pos (by omega)]
  have h4 : cfg.iorRteBase.toNat + 2 * l + 1 - cfg.iorRteBase.toNat = 2 * l + 1 := by omega
  have h5 : (2 * l + 1) / 2 = l := by omega
  simp [h4, h5, h2]

/-! ### The router's actions -/

@[simp] theorem vectorField_setWidth (v : Byte) : vectorField (v.setWidth 32) = v := by
  ext i hi
  simp only [vectorField, BitVec.getElem_extractLsb', BitVec.getLsbD_setWidth, Nat.zero_add]
  have : i < 32 := by omega
  simp [this, hi]

theorem microStep_indexWrite (c : CoreId) (idx : Byte) (w : Word) (b : Block) :
    microStep c (.indexWrite idx) w b = .ok w { b with iorIndex := idx } := by
  simp [microStep, indexWrite]

theorem microStep_dataRead_version (c : CoreId) (w : Word) (b : Block) (h : b.iorIndex = b.cfg.iorVerIndex) :
    microStep c .dataRead w b = .ok b.cfg.iorVersionWord b := by
  simp [microStep, dataRead, h]

theorem microStep_dataRead_lo {b : Block} (h : ConfigSound b.cfg) {l : Nat}
    (hl : l < min (numLines b.cfg) (linesAddressable b.cfg)) (hi : b.iorIndex = loIndex b.cfg l) (c : CoreId) (w : Word) :
    microStep c .dataRead w b = .ok (readBack rteLoMask (b.rte l).lo b.drawn) b.drew := by
  simp only [microStep, dataRead, hi, iorRegAt_lo h hl]

theorem microStep_dataRead_hi {b : Block} (h : ConfigSound b.cfg) {l : Nat}
    (hl : l < min (numLines b.cfg) (linesAddressable b.cfg)) (hi : b.iorIndex = hiIndex b.cfg l) (c : CoreId) (w : Word) :
    microStep c .dataRead w b = .ok (readBack rteHiMask (b.rte l).hi b.drawn) b.drew := by
  simp only [microStep, dataRead, hi, iorRegAt_hi h hl]

theorem microStep_dataWrite_lo {b : Block} (h : ConfigSound b.cfg) {l : Nat}
    (hl : l < min (numLines b.cfg) (linesAddressable b.cfg)) (hi : b.iorIndex = loIndex b.cfg l) (c : CoreId) (w : Word)
    (src : Src) :
    microStep c (.dataWrite src) w b = .ok w (b.setRte l { b.rte l with lo := src.eval b.cfg w }) := by
  simp only [microStep, dataWrite, hi, iorRegAt_lo h hl, Res.keeping]

theorem microStep_dataWrite_hi {b : Block} (h : ConfigSound b.cfg) {l : Nat}
    (hl : l < min (numLines b.cfg) (linesAddressable b.cfg)) (hi : b.iorIndex = hiIndex b.cfg l) (c : CoreId) (w : Word)
    (src : Src) :
    microStep c (.dataWrite src) w b = .ok w (b.setRte l { b.rte l with hi := src.eval b.cfg w }) := by
  simp only [microStep, dataWrite, hi, iorRegAt_hi h hl, Res.keeping]

/-! ### The local controller's actions -/

theorem microStep_lapicRead {b : Block} (h : ConfigSound b.cfg) (c : CoreId) (r : LapicReg) (w : Word) :
    microStep c (.lapicRead (lapicOffset b.cfg r)) w b = readLapicReg c r b :=
  lapicRead32_offset h c r

theorem microStep_lapicWrite {b : Block} (h : ConfigSound b.cfg) (c : CoreId) (r : LapicReg) (src : Src) (w : Word) :
    microStep c (.lapicWrite (lapicOffset b.cfg r) src) w b =
      (writeLapicReg c r (src.eval b.cfg w) b).keeping w := by
  rw [← lapicWrite32_offset h]
  rfl

end Sys2Proof.Machine
end

