-- ==== Sys2Proof/Laws/Frames.lean ====
section
/-! SUPPORT. What every action, every run of actions and every step leaves as it was, said once; and the cases of a
turn. -/

namespace Sys2Proof.Machine

/-- What no action of core c undoes or touches: the parameters, the other controllers, the numbers of controllers and
entries, the events recorded, and every one-time flag that is set. -/
structure Keeps (c : CoreId) (b b' : Block) : Prop where
  cfg : b'.cfg = b.cfg
  others : OtherLapicsSame c b b'
  rtes_length : b'.rtes.length = b.rtes.length
  history : b.history <+: b'.history
  inited : ∀ c', (b.lapic c').inited = true → (b'.lapic c').inited = true
  iorInited : b.iorInited = true → b'.iorInited = true
  facadeOnce : b.facadeOnce = .completed → b'.facadeOnce = .completed
  enableType : b.facadeOnce = .completed → b'.enableType = b.enableType

theorem Keeps.refl (c : CoreId) (b : Block) : Keeps c b b :=
  ⟨rfl, ⟨rfl, fun _ _ => rfl⟩, rfl, List.prefix_rfl, fun _ h => h, fun h => h, fun h => h, fun _ => rfl⟩

theorem Keeps.trans {c : CoreId} {b b' b'' : Block} (h : Keeps c b b') (h' : Keeps c b' b'') : Keeps c b b'' where
  cfg := h'.cfg.trans h.cfg
  others := ⟨h'.others.1.trans h.others.1, fun c' hc => (h'.others.2 c' hc).trans (h.others.2 c' hc)⟩
  rtes_length := h'.rtes_length.trans h.rtes_length
  history := h.history.trans h'.history
  inited := fun c' hi => h'.inited c' (h.inited c' hi)
  iorInited := fun hi => h'.iorInited (h.iorInited hi)
  facadeOnce := fun hi => h'.facadeOnce (h.facadeOnce hi)
  enableType := fun hi => (h'.enableType (h.facadeOnce hi)).trans (h.enableType hi)

/-- A change that touches no controller, no entry count and none of the flags. -/
theorem Keeps.of_same {c : CoreId} {b b' : Block} (hc : b'.cfg = b.cfg) (hl : b'.lapics = b.lapics)
    (hr : b'.rtes.length = b.rtes.length) (hh : b.history <+: b'.history)
    (hi : b.iorInited = true → b'.iorInited = true) (hf : b'.facadeOnce = b.facadeOnce)
    (he : b'.enableType = b.enableType) : Keeps c b b' where
  cfg := hc
  others := ⟨by rw [hl], fun _ _ => by rw [hl]⟩
  rtes_length := hr
  history := hh
  inited := fun c' h => by rw [Block.lapic, hl]; exact h
  iorInited := hi
  facadeOnce := fun h => by rw [hf]; exact h
  enableType := fun _ => he

theorem keeps_drew (c : CoreId) (b : Block) : Keeps c b b.drew :=
  .of_same rfl rfl rfl List.prefix_rfl (fun h => h) rfl rfl

theorem keeps_record (c : CoreId) (b : Block) (e : Event) : Keeps c b (b.record e) :=
  .of_same rfl rfl rfl (List.prefix_append _ _) (fun h => h) rfl rfl

theorem keeps_setRte (c : CoreId) (b : Block) (l : Nat) (r : Rte) : Keeps c b (b.setRte l r) :=
  .of_same rfl rfl (by simp) List.prefix_rfl (fun h => h) rfl rfl

theorem keeps_release (c c' : CoreId) (b : Block) : Keeps c b (b.release c') :=
  .of_same rfl rfl rfl List.prefix_rfl (fun h => h) rfl rfl

/-- A change of core c's controller that does not clear its flag. -/
theorem keeps_setLapic (c : CoreId) (b : Block) (l : Lapic) (hl : (b.lapic c).inited = true → l.inited = true) :
    Keeps c b (b.setLapic c l) where
  cfg := rfl
  others := ⟨by simp, fun c' hc => by simp [List.getElem?_set_ne (Ne.symm hc)]⟩
  rtes_length := rfl
  history := List.prefix_rfl
  inited := fun c' h => by
    by_cases hc : c' = c
    · subst hc
      by_cases hlt : c' < b.lapics.length
      · rw [lapic_setLapic b l hlt]; exact hl h
      · have : b.setLapic c' l = b := by
          simp [Block.setLapic, List.set_eq_of_length_le (Nat.le_of_not_lt hlt)]
        rw [this]; exact h
    · rw [lapic_setLapic_other b l (Ne.symm hc)]; exact h
  iorInited := fun h => h
  facadeOnce := fun h => h
  enableType := fun _ => rfl

theorem keeps_ipiMode (c : CoreId) (b : Block) (lo : Word) : Keeps c b (b.ipiMode lo).2 := by
  unfold Block.ipiMode
  split
  · exact .refl c b
  · exact keeps_drew c b

theorem keeps_recordCommand (c : CoreId) (b : Block) (e : Event) : Keeps c b (b.recordCommand c e) := by
  unfold Block.recordCommand
  split
  · split
    · exact (keeps_drew c b).trans (keeps_record c _ e)
    · exact keeps_drew c b
  · exact keeps_record c b e

theorem keeps_issueCommand (c : CoreId) (b : Block) (lo : Word) : Keeps c b (b.issueCommand c lo) :=
  ((keeps_setLapic c b { b.lapic c with icrLo := lo } (fun h => h)).trans (keeps_ipiMode c _ lo)).trans
    (keeps_recordCommand c _ _)

theorem readLapicReg_keeps {c : CoreId} {r : LapicReg} {b b' : Block} {w : Word} (h : readLapicReg c r b = .ok w b') :
    Keeps c b b' := by
  cases r with
  | lvt k =>
    simp only [readLapicReg] at h
    split at h
    · cases h; exact keeps_drew c b
    · cases h
  | _ =>
    simp only [readLapicReg] at h
    cases h
    first
    | exact .refl c _
    | exact keeps_drew c b

theorem writeLapicReg_keeps {c : CoreId} {r : LapicReg} {v : Word} {b b' : Block} {u : Unit}
    (h : writeLapicReg c r v b = .ok u b') : Keeps c b b' := by
  cases r with
  | lvt k =>
    simp only [writeLapicReg] at h
    split at h
    · cases h; exact keeps_setLapic c b _ (fun h => h)
    · cases h
  | icrLo => simp only [writeLapicReg] at h; cases h; exact keeps_issueCommand c b v
  | eoi => simp only [writeLapicReg] at h; cases h; exact keeps_record c b _
  | svr => simp only [writeLapicReg] at h; cases h; exact keeps_setLapic c b _ (fun h => h)
  | icrHi => simp only [writeLapicReg] at h; cases h; exact keeps_setLapic c b _ (fun h => h)
  | id => simp only [writeLapicReg] at h; cases h; exact .refl c _
  | version => simp only [writeLapicReg] at h; cases h; exact .refl c _

theorem lapicRead32_keeps {c : CoreId} {off : Word} {b b' : Block} {w : Word} (h : lapicRead32 c off b = .ok w b') :
    Keeps c b b' := by
  unfold lapicRead32 at h
  split at h
  · exact readLapicReg_keeps h
  · cases h

theorem keeping_ok {w w' : Word} {b' : Block} {r : Res Unit} (h : r.keeping w = .ok w' b') :
    w' = w ∧ ∃ u, r = .ok u b' := by
  cases r with
  | ok u b => cases h; exact ⟨rfl, u, rfl⟩
  | _ => cases h

theorem lapicWrite32_keeps {c : CoreId} {off v : Word} {b b' : Block} {u : Unit}
    (h : lapicWrite32 c off v b = .ok u b') : Keeps c b b' := by
  unfold lapicWrite32 at h
  split at h
  · exact writeLapicReg_keeps h
  · cases h

theorem dataRead_keeps (c : CoreId) {b b' : Block} {w : Word} (h : dataRead b = .ok w b') : Keeps c b b' := by
  unfold dataRead at h
  split at h <;> cases h
  · exact .refl c _
  · exact keeps_drew c b
  · exact keeps_drew c b

theorem dataWrite_keeps (c : CoreId) {v : Word} {b b' : Block} {u : Unit} (h : dataWrite v b = .ok u b') :
    Keeps c b b' := by
  unfold dataWrite at h
  split at h <;> cases h
  · exact .refl c _
  · exact keeps_setRte c b _ _
  · exact keeps_setRte c b _ _

theorem keeps_indexWrite (c : CoreId) (v : Word) (b : Block) : Keeps c b (indexWrite v b) :=
  .of_same rfl rfl rfl List.prefix_rfl (fun h => h) rfl rfl

theorem rawAccess_keeps {c : CoreId} {a : Access} {b b' : Block} {w : Word} (h : rawAccess c a b = .ok w b') :
    Keeps c b b' := by
  unfold rawAccess iorWindowAccess at h
  split at h
  · cases h
  split at h
  · dsimp only at h
    split at h
    · obtain ⟨-, u, hw⟩ := keeping_ok h; exact lapicWrite32_keeps hw
    · exact lapicRead32_keeps h
  split at h
  · split at h
    · cases h
    split at h
    · split at h
      · cases h; exact keeps_indexWrite c _ b
      · cases h; exact keeps_drew c b
    split at h
    · split at h
      · obtain ⟨-, u, hw⟩ := keeping_ok h; exact dataWrite_keeps c hw
      · exact dataRead_keeps c h
    · cases h
  · cases h

theorem checkOr_ok {ok : Bool} {r : FaultReason} {w w' : Word} {b b' : Block} (h : checkOr ok r w b = .ok w' b') :
    ok = true ∧ w' = w ∧ b' = b := by
  unfold checkOr at h
  split at h
  · cases h; exact ⟨‹_›, rfl, rfl⟩
  · cases h

theorem dispatchTo_ok {w w' : Word} {b b' : Block} (h : dispatchTo w b = .ok w' b') :
    b.enableType = .mmio ∧ w' = w ∧ b' = b := by
  unfold dispatchTo at h
  split at h <;> cases h
  exact ⟨‹_›, rfl, rfl⟩

/-- What `facade_select` comes to when it does not fault (R180). -/
theorem facadeSelect_ok {w w' : Word} {b b' : Block} (h : facadeSelect w b = .ok w' b') :
    w' = w ∧ b.facadeOnce = .notRun ∧
      (b' = { b with enableType := .msr, facadeOnce := .completed } ∨
        b' = { b with enableType := .mmio, facadeOnce := .completed }) := by
  unfold facadeSelect at h
  split at h
  · cases h
  · split at h
    · cases h; exact ⟨rfl, ‹_›, .inl rfl⟩
    · split at h
      · cases h; exact ⟨rfl, ‹_›, .inr rfl⟩
      · cases h

theorem iorOnce_ok {c : CoreId} {w w' : Word} {b b' : Block} (h : iorOnce c w b = .ok w' b') :
    w' = w ∧ b.iorInited = false ∧ b.iorRunner = none ∧ b' = { b with iorRunner := some c } := by
  unfold iorOnce at h
  split at h
  · cases h
  · rename_i hi
    split at h
    · cases h; exact ⟨rfl, by simpa using hi, ‹_›, rfl⟩
    · cases h

theorem lockIor_ok {c : CoreId} {w w' : Word} {b b' : Block} (h : lockIor c w b = .ok w' b') :
    w' = w ∧ b.iorLock = .free ∧ b' = { b with iorLock := .held c } := by
  unfold lockIor at h
  split at h <;> cases h
  exact ⟨rfl, ‹_›, rfl⟩

/-- Every action keeps what `Keeps` says. -/
theorem microStep_keeps {c : CoreId} {m : Micro} {w w' : Word} {b b' : Block} (h : microStep c m w b = .ok w' b') :
    Keeps c b b' := by
  cases m <;> simp only [microStep] at h
  case dispatch => obtain ⟨-, -, rfl⟩ := dispatchTo_ok h; exact .refl c _
  case facadeSelect =>
    obtain ⟨-, hn, rfl | rfl⟩ := facadeSelect_ok h
    all_goals
      exact ⟨rfl, ⟨rfl, fun _ _ => rfl⟩, rfl, List.prefix_rfl, fun _ h => h, fun h => h, fun _ => rfl,
        fun hf => by rw [hn] at hf; cases hf⟩
  case markInited => cases h; exact keeps_setLapic c b _ (fun _ => rfl)
  case lapicRead => exact lapicRead32_keeps h
  case lapicWrite => obtain ⟨-, u, hw⟩ := keeping_ok h; exact lapicWrite32_keeps hw
  case iorOnce =>
    obtain ⟨-, -, -, rfl⟩ := iorOnce_ok h
    exact .of_same rfl rfl rfl List.prefix_rfl (fun h => h) rfl rfl
  case requireAddressable =>
    split at h <;> cases h
    exact .refl c _
  case iorDone => cases h; exact .of_same rfl rfl rfl List.prefix_rfl (fun _ => rfl) rfl rfl
  case lock =>
    obtain ⟨-, -, rfl⟩ := lockIor_ok h
    exact .of_same rfl rfl rfl List.prefix_rfl (fun h => h) rfl rfl
  case unlock => cases h; exact .of_same rfl rfl rfl List.prefix_rfl (fun h => h) rfl rfl
  case indexWrite => cases h; exact keeps_indexWrite c _ b
  case dataRead => exact dataRead_keeps c h
  case dataWrite => obtain ⟨-, u, hw⟩ := keeping_ok h; exact dataWrite_keeps c hw
  case access => exact rawAccess_keeps h
  all_goals obtain ⟨-, -, rfl⟩ := checkOr_ok h; exact .refl c _

/-- The block a run of actions ends with. -/
def Halt.block : Halt → Block
  | .done _ b => b
  | .blocked _ _ b => b
  | .fault _ b => b
  | .refuse _ b => b

theorem runBody_keeps (c : CoreId) (ms : List Micro) (w : Word) (b : Block) : Keeps c b (runBody c ms w b).block := by
  induction ms generalizing w b with
  | nil => exact .refl c b
  | cons m ms ih =>
    rw [runBody_cons]
    cases hm : microStep c m w b with
    | ok w' b' => exact (microStep_keeps hm).trans (ih w' b')
    | wait => exact .refl c b
    | fault r => exact keeps_release c c b
    | refuse r => exact keeps_release c c b

theorem keeps_localEvent (c c' : CoreId) (k : Kind) (b : Block) : Keeps c b (b.localEvent c' k) := by
  simp only [Block.localEvent]
  split
  · exact .refl c b
  · refine Keeps.trans ?_ (keeps_record c _ _)
    unfold Block.localMode
    split
    · split
      · exact .refl c b
      · exact keeps_drew c b
    · exact .refl c b

theorem keeps_lineAssert (c : CoreId) (l : Nat) (b : Block) : Keeps c b (b.lineAssert l) := by
  simp only [Block.lineAssert]
  split
  · exact .refl c b
  · exact keeps_record c b _

/-! ### Where work comes to, state by state -/

@[simp] theorem settle_block (s : State) (c : CoreId) (work : Work) (ret : Ret) (h : Halt) :
    (s.settle c work ret h).block = h.block := by
  cases h <;> rfl

/-- The status of core c after its work ran. -/
def Halt.status (work : Work) (ret : Ret) : Halt → Status
  | .done _ _ => .idle
  | .blocked w rest _ => .running work w rest ret
  | .fault r _ => .faulted r work
  | .refuse r _ => .refused r work

theorem status_settle (s : State) (c : CoreId) (work : Work) (ret : Ret) (h : Halt) (c' : CoreId) :
    (s.settle c work ret h).status c' = if c' = c then (s.status c).map fun _ => h.status work ret else s.status c' := by
  cases h with
  | done w b => exact status_complete s c _ b c'
  | blocked w rest b => exact status_suspend s c b work w rest ret c'
  | fault r b => exact status_recordFault s c b work r c'
  | refuse r b => exact status_recordRefusal s c b work r c'

theorem settle_refusedMark (s : State) (c : CoreId) (work : Work) (ret : Ret) (h : Halt) (hm : s.refusedMark = true) :
    (s.settle c work ret h).refusedMark = true := by
  cases h <;> first | exact hm | rfl

@[simp] theorem settle_agents_length (s : State) (c : CoreId) (work : Work) (ret : Ret) (h : Halt) :
    (s.settle c work ret h).agents.length = s.agents.length := by
  cases h <;> simp [State.settle]

theorem status_fetched (s : State) (c : CoreId) (more : List Request) (c' : CoreId) :
    (s.fetched c more).status c' = s.status c' := by
  by_cases h : c' = c
  · subst h; simp [State.status, State.fetched, Function.comp_def]
  · simp [State.status, State.fetched, Ne.symm h]

@[simp] theorem fetched_block (s : State) (c : CoreId) (more : List Request) : (s.fetched c more).block = s.block := rfl
@[simp] theorem fetched_caller (s : State) (c : CoreId) (more : List Request) : (s.fetched c more).caller = c := rfl
@[simp] theorem fetched_refusedMark (s : State) (c : CoreId) (more : List Request) :
    (s.fetched c more).refusedMark = s.refusedMark := rfl
@[simp] theorem fetched_agents_length (s : State) (c : CoreId) (more : List Request) :
    (s.fetched c more).agents.length = s.agents.length := by simp [State.fetched]

/-- Where one single action of core c's work comes to, as a run of at most one action. -/
def microHalt (c : CoreId) (w : Word) (rest : List Micro) (b : Block) : Halt :=
  match rest with
  | [] => .done w b
  | m :: ms =>
    match microStep c m w b with
    | .ok w' b' => .blocked w' ms b'
    | .wait => .blocked w (m :: ms) b
    | .fault r => .fault r (b.release c)
    | .refuse r => .refuse r (b.release c)

theorem microHalt_keeps (c : CoreId) (w : Word) (rest : List Micro) (b : Block) :
    Keeps c b (microHalt c w rest b).block := by
  cases rest with
  | nil => exact .refl c b
  | cons m ms =>
    simp only [microHalt]
    cases hm : microStep c m w b with
    | ok w' b' => exact microStep_keeps hm
    | wait => exact .refl c b
    | fault r => exact keeps_release c c b
    | refuse r => exact keeps_release c c b

/-- A core's single action, as settling the run of it. -/
theorem advance_running {s : State} {c : CoreId} {work : Work} {w : Word} {rest : List Micro} {ret : Ret}
    (h : s.status c = some (.running work w rest ret)) :
    s.advance c = s.settle c work ret (microHalt c w rest s.block) := by
  unfold State.advance
  rw [h]
  dsimp only
  cases rest with
  | nil => rfl
  | cons m ms =>
    simp only [microHalt]
    cases hm : microStep c m w s.block with
    | wait =>
      unfold State.status at h
      obtain ⟨a, ha, hst⟩ := Option.map_eq_some_iff.mp h
      have hag : s.agents.modify c (fun a => { a with status := .running work w (m :: ms) ret }) = s.agents := by
        apply List.ext_getElem?
        intro i
        rw [List.getElem?_modify]
        by_cases hi : c = i
        · subst hi
          simp [ha, ← hst]
        · cases s.agents[i]? <;> simp [hi]
      simp only [State.settle, State.suspend, State.setStatus, hag]
    | _ => rfl

/-! ### The cases of a step -/

/-- Everything a step that answers a next state can have been: nothing happened but the turn; a delivery; core c's work
ran, from the beginning or from where it was, as a whole or by one action; or core c entered its next request. Where
work ran, the lines it wrote are given with it. -/
inductive StepCase (s t : State) : Prop where
  | nothing (ht : t.block = s.block ∧ t.agents = s.agents ∧ t.refusedMark = s.refusedMark)
  | localEvent (c : CoreId) (k : Kind)
      (ht : t.block = s.block.localEvent c k ∧ t.agents = s.agents ∧ t.refusedMark = s.refusedMark)
  | lineAssert (l : Nat)
      (ht : t.block = s.block.lineAssert l ∧ t.agents = s.agents ∧ t.refusedMark = s.refusedMark)
  | begun (c : CoreId) (s' : State) (work : Work) (p : Prog) (hturn : s.turns.head? ∈ [some (.op c), some (.micro c)])
      (hidle : s.status c = some .idle)
      (hb : s'.block = s.block) (hst : ∀ c', s'.status c' = s.status c') (hm : s'.refusedMark = s.refusedMark)
      (hlen : s'.agents.length = s.agents.length)
      (hp : (∃ i, work = .call i ∧ p = progOf s.block.cfg c i) ∨
        ∃ a, work = .access a ∧ p = progAccess a ∧ accessesBlock s.block.cfg a = true)
      (ht : t = s'.settle c work p.ret (runBody c p.body 0#32 s.block) ∧
          stepWrites s = foreignWrites c p.body 0#32 s.block ∨
        t = s'.settle c work p.ret (.blocked 0#32 p.body s.block))
  | continued (c : CoreId) (s' : State) (work : Work) (w : Word) (rest : List Micro) (ret : Ret)
      (hturn : s.turns.head? ∈ [some (.op c), some (.micro c)]) (hrun : s.status c = some (.running work w rest ret))
      (hb : s'.block = s.block) (hst : ∀ c', s'.status c' = s.status c') (hm : s'.refusedMark = s.refusedMark)
      (hlen : s'.agents.length = s.agents.length)
      (ht : t = s'.settle c work ret (runBody c rest w s.block) ∧ stepWrites s = foreignWrites c rest w s.block ∨
        t = s'.settle c work ret (microHalt c w rest s.block) ∧
          stepWrites s = foreignWrites c (rest.take 1) w s.block)

theorem status_of_agent {s : State} {c : CoreId} {a : Agent} (h : s.agents[c]? = some a) :
    s.status c = some a.status := by
  simp [State.status, h]

/-- The cases of a step. -/
theorem step_cases {s t : State} (h : step s = .next t) : StepCase s t := by
  unfold step nextTurn at h
  cases hts : s.turns with
  | nil =>
    rw [hts] at h
    cases h
    exact .nothing ⟨rfl, rfl, rfl⟩
  | cons turn ts =>
    rw [hts] at h
    dsimp only at h
    cases turn with
    | localEvent c k =>
      simp only [takeTurn, localEventTurn] at h
      split at h
      · rename_i heq
        split at heq <;> cases heq <;> cases h
        · exact .localEvent c k ⟨rfl, rfl, rfl⟩
        · exact .nothing ⟨rfl, rfl, rfl⟩
      · rename_i heq; split at heq <;> cases heq
      · cases h
    | lineAssert l =>
      simp only [takeTurn, lineAssertTurn] at h
      split at h
      · rename_i heq
        split at heq <;> cases heq <;> cases h
        · exact .lineAssert l ⟨rfl, rfl, rfl⟩
        · exact .nothing ⟨rfl, rfl, rfl⟩
      · rename_i heq; split at heq <;> cases heq
      · cases h
    | op c =>
      simp only [takeTurn, opTurn] at h
      cases hag : s.agents[c]? with
      | none =>
        rw [hag] at h
        cases h
        exact .nothing ⟨rfl, rfl, rfl⟩
      | some a =>
        rw [hag] at h
        dsimp only at h
        cases hst : a.status with
        | running work w rest ret =>
          rw [hst] at h
          cases h
          exact .continued c { s with turns := ts } work w rest ret (by simp [hts])
            (by rw [status_of_agent hag, hst]) rfl
            (fun _ => rfl) rfl rfl (.inl ⟨rfl, by simp [stepWrites, State.pending, hts, hag, hst]⟩)
        | faulted r work => rw [hst] at h; cases h; exact .nothing ⟨rfl, rfl, rfl⟩
        | refused r work => rw [hst] at h; cases h; exact .nothing ⟨rfl, rfl, rfl⟩
        | idle =>
          rw [hst] at h
          dsimp only at h
          have hidle : s.status c = some .idle := by rw [status_of_agent hag, hst]
          cases hpr : a.program with
          | nil => rw [hpr] at h; cases h; exact .nothing ⟨rfl, rfl, rfl⟩
          | cons r more =>
            rw [hpr] at h
            cases r with
            | op bytes =>
              simp only [performRequest] at h
              cases hd : decode bytes with
              | error e => rw [hd] at h; cases h
              | ok i =>
                rw [hd] at h
                dsimp only at h
                obtain ⟨-, ht⟩ := exec_next h
                exact .begun c (({ s with turns := ts } : State).fetched c more) (.call i) (progOf s.block.cfg c i) (by simp [hts]) hidle
                  rfl (fun c' => status_fetched _ c more c') rfl (fetched_agents_length _ c more) (.inl ⟨i, rfl, rfl⟩)
                  (.inl ⟨ht, by simp [stepWrites, State.pending, Work.body, hts, hag, hst, hpr, hd]⟩)
            | access x =>
              simp only [performRequest] at h
              split at h
              · rename_i heq
                split at heq
                · cases heq
                  cases h
                  exact .begun c (({ s with turns := ts } : State).fetched c more) (.access x) (progAccess x) (by simp [hts]) hidle
                    rfl (fun c' => status_fetched _ c more c') rfl (fetched_agents_length _ c more)
                    (.inr ⟨x, rfl, rfl, ‹_›⟩)
                    (.inl ⟨rfl, by simp [stepWrites, State.pending, Work.body, hts, hag, hst, hpr]⟩)
                · cases heq
              · rename_i heq; split at heq <;> cases heq
              · cases h
    | micro c =>
      simp only [takeTurn, microTurn] at h
      cases hag : s.agents[c]? with
      | none =>
        rw [hag] at h
        cases h
        exact .nothing ⟨rfl, rfl, rfl⟩
      | some a =>
        rw [hag] at h
        dsimp only at h
        cases hst : a.status with
        | running work w rest ret =>
          rw [hst] at h
          cases h
          have hr : s.status c = some (.running work w rest ret) := by rw [status_of_agent hag, hst]
          exact .continued c { s with turns := ts } work w rest ret (by simp [hts]) hr rfl
            (fun _ => rfl) rfl rfl (.inr ⟨advance_running (s := { s with turns := ts }) hr,
              by simp [stepWrites, hts, hr]⟩)
        | faulted r work => rw [hst] at h; cases h; exact .nothing ⟨rfl, rfl, rfl⟩
        | refused r work => rw [hst] at h; cases h; exact .nothing ⟨rfl, rfl, rfl⟩
        | idle =>
          rw [hst] at h
          dsimp only at h
          have hidle : s.status c = some .idle := by rw [status_of_agent hag, hst]
          cases hpr : a.program with
          | nil => rw [hpr] at h; cases h; exact .nothing ⟨rfl, rfl, rfl⟩
          | cons r more =>
            rw [hpr] at h
            cases r with
            | op bytes =>
              simp only [beginRequest] at h
              cases hd : decode bytes with
              | error e => rw [hd] at h; cases h
              | ok i =>
                rw [hd] at h
                cases h
                exact .begun c (({ s with turns := ts } : State).fetched c more) (.call i) (progOf s.block.cfg c i) (by simp [hts]) hidle
                  rfl (fun c' => status_fetched _ c more c') rfl (fetched_agents_length _ c more) (.inl ⟨i, rfl, rfl⟩)
                  (.inr rfl)
            | access x =>
              simp only [beginRequest] at h
              split at h
              · rename_i heq
                split at heq
                · cases heq
                  cases h
                  exact .begun c (({ s with turns := ts } : State).fetched c more) (.access x) (progAccess x) (by simp [hts]) hidle
                    rfl (fun c' => status_fetched _ c more c') rfl (fetched_agents_length _ c more)
                    (.inr ⟨x, rfl, rfl, ‹_›⟩) (.inr rfl)
                · cases heq
              · rename_i heq; split at heq <;> cases heq
              · cases h

/-- Every step keeps what `Keeps` says of the core whose turn it is, and of no controller in particular where it is no
core's. -/
theorem StepCase.keeps {s t : State} (h : StepCase s t) : ∃ c, Keeps c s.block t.block := by
  cases h with
  | nothing ht => exact ⟨0, ht.1 ▸ .refl 0 _⟩
  | localEvent c k ht => exact ⟨0, ht.1 ▸ keeps_localEvent 0 c k _⟩
  | lineAssert l ht => exact ⟨0, ht.1 ▸ keeps_lineAssert 0 l _⟩
  | begun c s' work p hturn hidle hb hst hm hlen hp ht =>
    refine ⟨c, ?_⟩
    rcases ht with ⟨rfl, -⟩ | rfl
    · rw [settle_block]; exact runBody_keeps c _ _ _
    · rw [settle_block]; exact .refl c _
  | continued c s' work w rest ret hturn hrun hb hst hm hlen ht =>
    refine ⟨c, ?_⟩
    rcases ht with ⟨rfl, -⟩ | ⟨rfl, -⟩
    · rw [settle_block]; exact runBody_keeps c _ _ _
    · rw [settle_block]; exact microHalt_keeps c _ _ _

end Sys2Proof.Machine
end

