-- ==== Sys2Proof/Laws/Masks.lean ====
section
/-! SUPPORT. What carries the third invariant of spec/10_state.md R36: what is left of an `ior_init` ends with every line
masked, each of its actions keeps that, and an action of another core writes no low register but those it is said to. -/

namespace Sys2Proof.Machine

/-! ### What is left of an ior_init -/

/-- Knowing more of the index register, the word read and the mask bit takes nothing away. -/
theorem endsMasked_mono {cfg : Config} {l : Nat} {ms : List Micro} {idx idx' : Option Byte} {seen seen' m m' : Bool}
    (hi : idx = none ∨ idx = idx') (hs : seen = true → seen' = true) (hm : m = true → m' = true)
    (h : endsMasked cfg l idx seen m ms = true) : endsMasked cfg l idx' seen' m' ms = true := by
  induction ms generalizing idx idx' seen seen' m m' with
  | nil => exact absurd h Bool.false_ne_true
  | cons a ms ih =>
    cases a <;> simp only [endsMasked, Bool.false_eq_true] at h ⊢
    case iorDone => rw [Bool.and_eq_true] at h ⊢; exact ⟨hm h.1, h.2⟩
    case lock => exact ih (.inl rfl) hs hm h
    case unlock => exact ih (.inl rfl) hs hm h
    case mapIor => exact ih hi hs hm h
    case indexWrite i => exact ih (.inr rfl) hs hm h
    case requireAddressable =>
      rw [Bool.or_eq_true, Bool.and_eq_true] at h ⊢
      exact h.imp (And.imp_left hs) (ih hi hs hm)
    case dataRead =>
      refine ih hi (fun hv => ?_) hm h
      rcases hi with rfl | rfl
      · cases hv
      · exact hv
    case dataWrite src =>
      rw [Bool.and_eq_true] at h ⊢
      rcases hi with rfl | rfl
      · exact absurd h.1 Bool.false_ne_true
      · refine ⟨h.1, ih (.inr rfl) hs (fun hv => ?_) h.2⟩
        split
        · rwa [if_pos ‹_›] at hv
        · rw [if_neg ‹_›] at hv; exact hm hv

/-- One line's `lock(IOR); disable_body(n); unlock(IOR)` masks that line and leaves any other as it was (R238). -/
theorem endsMasked_disableLine {cfg : Config} (h : ConfigSound cfg) {n : Nat}
    (hn : n < min (numLines cfg) (linesAddressable cfg)) (l : Nat) (seen m : Bool) (ms : List Micro) :
    endsMasked cfg l none seen m ([.lock] ++ disableBody cfg n ++ [.unlock] ++ ms) =
      endsMasked cfg l none false (m || decide (n = l)) ms := by
  have hlo := iorRegAt_lo h hn
  have hhi := iorRegAt_hi h hn
  have hv : ((IorReg.lo n == IorReg.version) : Bool) = false := rfl
  by_cases hl : n = l
  · subst hl
    cases hp : cfg.disablePolicy <;>
      simp [disableBody, hp, readIorReg, writeIorReg, writeRte, endsMasked, hlo, hhi, Src.masks, flagDisabled, bitWord, hv]
  · cases hp : cfg.disablePolicy <;>
      simp [disableBody, hp, readIorReg, writeIorReg, writeRte, endsMasked, hlo, hhi, hl, hv]

theorem endsMasked_disableLines {cfg : Config} (h : ConfigSound cfg) (l : Nat) (ls : List Nat)
    (hls : ∀ n ∈ ls, n < min (numLines cfg) (linesAddressable cfg)) (seen m : Bool) :
    endsMasked cfg l none seen m
      ((ls.flatMap fun n => [.lock] ++ disableBody cfg n ++ [.unlock]) ++ [.iorDone]) = (m || decide (l ∈ ls)) := by
  induction ls generalizing seen m with
  | nil => simp [endsMasked]
  | cons n ls ih =>
    rw [List.flatMap_cons, List.append_assoc, endsMasked_disableLine h (hls n (List.mem_cons_self ..)),
      ih fun n' h' => hls n' (List.mem_cons_of_mem _ h')]
    simp [Bool.or_assoc, eq_comm]

/-- All of `ior_init` after its run-once entry ends with every line masked (R234). -/
theorem endsMasked_iorInit {cfg : Config} (h : ConfigSound cfg) {l : Nat} (hl : l < numLines cfg) (seen m : Bool) :
    endsMasked cfg l none seen m (progIorInit cfg).body.tail = true := by
  have hv := iorRegAt_version cfg
  simp only [progIorInit, readVersionLocked, readIorReg, List.cons_append, List.nil_append, List.tail_cons,
    endsMasked, Option.bind_some, hv, beq_self_eq_true, Bool.true_and, Bool.or_eq_true,
    decide_eq_true_eq]
  rcases Nat.lt_or_ge (linesAddressable cfg) (numLines cfg) with hlt | hge
  · exact .inl hlt
  · refine .inr ?_
    rw [disableLines, endsMasked_disableLines h _ _ fun n hn => by have := List.mem_range.mp hn; omega]
    simp [hl]

/-- The body of `ior_init` enters the run-once first (R234). -/
theorem iorInit_body (cfg : Config) : (progIorInit cfg).body = .iorOnce :: (progIorInit cfg).body.tail := rfl

/-- No operation but `ior_init` enters its run-once or sets the once-state. -/
theorem iorOnce_not_mem (cfg : Config) (c : CoreId) {i : Instr} (h : i ≠ .iorInit) :
    Micro.iorOnce ∉ (progOf cfg c i).body ∧ Micro.iorDone ∉ (progOf cfg c i).body := by
  have hd : ∀ l, Micro.iorOnce ∉ disableBody cfg l ∧ Micro.iorDone ∉ disableBody cfg l := fun l => by
    unfold disableBody; cases cfg.disablePolicy <;> simp [readIorReg, writeIorReg, writeRte]
  cases i with
  | iorInit => exact absurd rfl h
  | initCurrentCpu =>
    simp only [progOf, progInitCurrentCpu]
    split <;> simp [armActions]
  | maskAll => simp [progOf, progMaskAll, progLmi, maskActions]
  | disable l => simp [progOf, progDisable, progRouter, hd]
  | disableAll => simp [progOf, progDisableAll, disableLines, readVersionLocked, readIorReg, hd]
  | _ =>
    simp [progOf, progPure, progLvtDecode, progLvtEncode, progLvtVector, progLvtDeliveryMode, progLvtDeliveryStatus,
      progLvtPolarity, progLvtTriggerMode, progLvtMask, progLvtTimerMode, progLvtSetVector, progLvtSetDeliveryMode,
      progLvtSetPolarity, progLvtSetTriggerMode, progLvtSetMask, progLvtSetTimerMode, progLvtNew, progFacadeSelect,
      progSupported, progSendEoi, progLmi, progRouter, progVersion, progSuppression, progMaxLvtEntries, progReadId,
      progSetLvt, progReadLvt, progWriteInterruptCommand, progLapicRead32, progLapicWrite32, progIorReadReg,
      progIorWriteReg, readIorReg, writeIorReg, writeRte, progSupportedInterrupts, progEnable, progConfigure,
      progVectorOf, progSetVector]

/-- A source that masks gives a word with the mask bit set, whatever was read. -/
theorem Src.masks_eval (src : Src) (cfg : Config) (w : Word) (h : src.masks = true) :
    (src.eval cfg w).getLsbD 16 = true := by
  cases src with
  | const v => exact h
  | setMaskBit => simp [Src.eval, flagDisabled, bitWord]
  | vectorWith flags => simp only [Src.masks] at h; simp [Src.eval, rteLoWord, h]
  | replaceVector v => exact absurd h Bool.false_ne_true
  | arm f => exact absurd h Bool.false_ne_true

/-! ### What one action does to the router -/

theorem routerSame_refl (b : Block) : RouterSame b b := ⟨rfl, rfl, rfl, rfl, rfl⟩

theorem routerSame_issueCommand (c : CoreId) (lo : Word) (b : Block) : RouterSame b (b.issueCommand c lo) := by
  unfold Block.issueCommand Block.ipiMode
  dsimp only
  split <;> exact ⟨by simp, by simp, by simp, by simp, by simp⟩

theorem lapicRead32_router {c : CoreId} {off : Word} {b b' : Block} {w : Word} (h : lapicRead32 c off b = .ok w b') :
    RouterSame b b' := by
  unfold lapicRead32 at h
  split at h
  · rename_i r _
    cases r <;> simp only [readLapicReg] at h
    case lvt k => split at h <;> cases h; exact ⟨rfl, rfl, rfl, rfl, rfl⟩
    all_goals cases h; exact ⟨rfl, rfl, rfl, rfl, rfl⟩
  · cases h

theorem lapicWrite32_router {c : CoreId} {off v : Word} {b b' : Block} {u : Unit}
    (h : lapicWrite32 c off v b = .ok u b') : RouterSame b b' := by
  unfold lapicWrite32 at h
  split at h
  · rename_i r _
    cases r <;> simp only [writeLapicReg] at h
    case lvt k => split at h <;> cases h; exact ⟨rfl, rfl, rfl, rfl, rfl⟩
    case icrLo => cases h; exact routerSame_issueCommand c v b
    all_goals cases h; exact ⟨rfl, rfl, rfl, rfl, rfl⟩
  · cases h

/-- What a data or index access leaves: the router but its index and its lines' words, and every low register but the
one it is said to write. -/
structure RouterWrites (ls : List Nat) (b b' : Block) : Prop where
  cfg : b'.cfg = b.cfg
  iorInited : b'.iorInited = b.iorInited
  iorRunner : b'.iorRunner = b.iorRunner
  iorLock : b'.iorLock = b.iorLock
  lo : ∀ l, l ∉ ls → (b'.rte l).lo = (b.rte l).lo

theorem RouterSame.writes {b b' : Block} (h : RouterSame b b') (hc : b'.cfg = b.cfg) (ls : List Nat) :
    RouterWrites ls b b' := by
  obtain ⟨h1, h2, -, h4, h5⟩ := h
  exact ⟨hc, h1, h2, h5, fun l _ => by rw [Block.rte, h4]; rfl⟩

theorem dataRead_router {b b' : Block} {w : Word} (h : dataRead b = .ok w b') :
    RouterSame b b' ∧ b'.cfg = b.cfg ∧
      (iorRegAt b.cfg b.iorIndex = some .version → w = b.cfg.iorVersionWord) := by
  unfold dataRead at h
  split at h <;> cases h
  · exact ⟨routerSame_refl _, rfl, fun _ => rfl⟩
  all_goals rename_i hq; exact ⟨⟨rfl, rfl, rfl, rfl, rfl⟩, rfl, fun hv => by rw [hq] at hv; cases hv⟩

/-- A data write: the index register stays, and the low register it selects, if one, holds the word. -/
theorem dataWrite_router {v : Word} {b b' : Block} {u : Unit} (h : dataWrite v b = .ok u b') :
    RouterWrites (lowLineAt b) b b' ∧ b'.iorIndex = b.iorIndex ∧
      ∀ l, l < b.rtes.length → iorRegAt b.cfg b.iorIndex = some (.lo l) → (b'.rte l).lo = v := by
  unfold dataWrite at h
  split at h <;> cases h
  · rename_i hq
    exact ⟨(routerSame_refl _).writes rfl _, rfl, fun l _ hl => by rw [hq] at hl; cases hl⟩
  · rename_i n hq
    refine ⟨⟨rfl, rfl, rfl, rfl, fun l hl => ?_⟩, rfl, fun l hr hl => ?_⟩
    · have hne : n ≠ l := by
        rintro rfl
        simp [lowLineAt, hq] at hl
      rw [rte_setRte_other _ _ hne]
    · rw [hq] at hl
      cases hl
      rw [rte_setRte _ _ hr]
  · rename_i n hq
    refine ⟨⟨rfl, rfl, rfl, rfl, fun l hl => ?_⟩, rfl, fun l _ hl => by rw [hq] at hl; cases hl⟩
    by_cases hne : n = l
    · subst hne
      by_cases hr : n < b.rtes.length
      · rw [rte_setRte _ _ hr]
      · rw [Block.setRte, List.set_eq_of_length_le (Nat.le_of_not_lt hr)]
    · rw [rte_setRte_other _ _ hne]

/-- A raw access writes the low register the index register selects only where it is a write of the data register. -/
theorem rawAccess_router {c : CoreId} {a : Access} {b b' : Block} {w : Word} (h : rawAccess c a b = .ok w b') :
    RouterWrites (if writesData b.cfg (.access a) then lowLineAt b else []) b b' := by
  have hk := (rawAccess_keeps h).cfg
  unfold rawAccess iorWindowAccess at h
  split at h
  · cases h
  split at h
  · dsimp only at h
    split at h
    · obtain ⟨-, u, hw⟩ := keeping_ok h; exact (lapicWrite32_router hw).writes hk _
    · exact (lapicRead32_router h).writes hk _
  split at h
  · rename_i hin
    split at h
    · cases h
    split at h
    · split at h
      · cases h; exact ⟨rfl, rfl, rfl, rfl, fun _ _ => rfl⟩
      · cases h; exact ⟨rfl, rfl, rfl, rfl, fun _ _ => rfl⟩
    split at h
    · rename_i hoff
      split at h
      · rename_i v hv
        obtain ⟨-, u, hw⟩ := keeping_ok h
        have hd : writesData b.cfg (.access a) = true := by
          simp only [inIorWindow, Bool.and_eq_true, decide_eq_true_eq] at hin
          simp only [writesData, hv, Option.isSome_some, Bool.true_and, decide_eq_true_eq]
          omega
        rw [if_pos hd]
        exact (dataWrite_router hw).1
      · exact (dataRead_router h).1.writes hk _
    · cases h
  · cases h

/-- What an action that is neither end of the run-once does to the router: nothing but the index register, the lock and
the lines' words, and no low register but the one a write of the data register reaches. -/
theorem microStep_router {c : CoreId} {m : Micro} {w w' : Word} {b b' : Block} (h : microStep c m w b = .ok w' b')
    (hm : m ≠ .iorOnce) (hm' : m ≠ .iorDone) :
    b'.iorInited = b.iorInited ∧ b'.iorRunner = b.iorRunner ∧
      ∀ l, l ∉ (if writesData b.cfg m then lowLineAt b else []) → (b'.rte l).lo = (b.rte l).lo := by
  have hk := (microStep_keeps h).cfg
  have same : RouterSame b b' → b'.iorInited = b.iorInited ∧ b'.iorRunner = b.iorRunner ∧
      ∀ l, l ∉ (if writesData b.cfg m then lowLineAt b else []) → (b'.rte l).lo = (b.rte l).lo := fun hs =>
    have hw := hs.writes hk []
    ⟨hw.iorInited, hw.iorRunner, fun l _ => hw.lo l List.not_mem_nil⟩
  cases m <;> simp only [microStep] at h
  case dispatch => obtain ⟨-, -, rfl⟩ := dispatchTo_ok h; exact ⟨rfl, rfl, fun _ _ => rfl⟩
  case facadeSelect => obtain ⟨-, hn, rfl | rfl⟩ := facadeSelect_ok h <;> exact ⟨rfl, rfl, fun _ _ => rfl⟩
  case markInited => cases h; exact ⟨rfl, rfl, fun _ _ => rfl⟩
  case lapicRead => exact same (lapicRead32_router h)
  case lapicWrite => obtain ⟨-, u, hw⟩ := keeping_ok h; exact same (lapicWrite32_router hw)
  case iorOnce => exact absurd rfl hm
  case iorDone => exact absurd rfl hm'
  case requireAddressable => split at h <;> cases h; exact ⟨rfl, rfl, fun _ _ => rfl⟩
  case lock => obtain ⟨-, hl, rfl⟩ := lockIor_ok h; exact ⟨rfl, rfl, fun _ _ => rfl⟩
  case unlock => cases h; exact ⟨rfl, rfl, fun _ _ => rfl⟩
  case indexWrite => cases h; exact ⟨rfl, rfl, fun _ _ => rfl⟩
  case dataRead => exact same (dataRead_router h).1
  case dataWrite src =>
    obtain ⟨-, u, hw⟩ := keeping_ok h
    have hw := (dataWrite_router hw).1
    exact ⟨hw.iorInited, hw.iorRunner, hw.lo⟩
  case access a =>
    have hw := rawAccess_router h
    exact ⟨hw.iorInited, hw.iorRunner, hw.lo⟩
  all_goals obtain ⟨-, -, rfl⟩ := checkOr_ok h; exact ⟨rfl, rfl, fun _ _ => rfl⟩

/-- Where its core does not run `ior_init`, an action writes no low register but those `foreignWrite` gives. -/
theorem microStep_foreign {c : CoreId} {m : Micro} {w w' : Word} {b b' : Block} (h : microStep c m w b = .ok w' b')
    (hr : b.iorRunner ≠ some c) (hm : m ≠ .iorOnce) (hm' : m ≠ .iorDone) :
    b'.iorInited = b.iorInited ∧ b'.iorRunner = b.iorRunner ∧
      ∀ l, l ∉ foreignWrite c m b → (b'.rte l).lo = (b.rte l).lo := by
  obtain ⟨hi, hn, hl⟩ := microStep_router h hm hm'
  exact ⟨hi, hn, fun l hf => hl l (by simpa [foreignWrite, hr] using hf)⟩

/-! ### Whose writes count -/

/-- Actions that do not write the data register write no line. -/
theorem foreignWrites_of_none (c : CoreId) {ms : List Micro} {w : Word} {b : Block}
    (h : ∀ m ∈ ms, writesData b.cfg m = false) : foreignWrites c ms w b = [] := by
  induction ms generalizing w b with
  | nil => rfl
  | cons m ms ih =>
    rw [foreignWrites]
    cases hm : microStep c m w b with
    | ok w' b' =>
      have hc := (microStep_keeps hm).cfg
      dsimp only
      rw [ih fun m' h' => by rw [hc]; exact h m' (List.mem_cons_of_mem _ h'), foreignWrite,
        h m (List.mem_cons_self ..)]
      rfl
    | _ => rfl

/-- While a core runs `ior_init`, none of its actions up to the last counts. -/
theorem foreignWrites_of_runner {c : CoreId} {ms : List Micro} {w : Word} {b : Block} (hr : b.iorRunner = some c)
    (hm : Micro.iorDone ∉ ms) : foreignWrites c (ms ++ [.iorDone]) w b = [] := by
  induction ms generalizing w b with
  | nil => simp [foreignWrites, foreignWrite, hr, microStep]
  | cons m ms ih =>
    rw [List.cons_append, foreignWrites]
    rw [List.mem_cons, not_or] at hm
    cases hs : microStep c m w b with
    | ok w' b' =>
      have hr' : b'.iorRunner = some c := by
        by_cases ho : m = .iorOnce
        · subst ho
          obtain ⟨-, -, -, rfl⟩ := iorOnce_ok hs
          rfl
        · exact (microStep_router hs ho (Ne.symm hm.1)).2.1.trans hr
      dsimp only
      rw [ih hr' hm.2]
      simp [foreignWrite, hr]
    | _ => rfl

/-- No other work than an operation of R236 to R242, an `ior_init` or a write outside them writes the data register. -/
theorem writesData_body {cfg : Config} (c : CoreId) {work : Work} (hl : lineOperation work = false)
    (ho : outsideWrite cfg work = false) (hi : work ≠ .call .iorInit) :
    ∀ m ∈ work.body cfg c, writesData cfg m = false := by
  cases work with
  | access a =>
    intro m hm
    rw [Work.body, progAccess, List.mem_singleton] at hm
    exact hm ▸ ho
  | call i =>
    cases i with
    | iorInit => exact absurd rfl hi
    | iorWriteReg idx v => exact absurd ho.symm Bool.false_ne_true
    | enable l d => exact absurd hl.symm Bool.false_ne_true
    | disable l => exact absurd hl.symm Bool.false_ne_true
    | disableAll => exact absurd hl.symm Bool.false_ne_true
    | configure l v d level activeHigh logical mask => exact absurd hl.symm Bool.false_ne_true
    | vectorOf l => exact absurd hl.symm Bool.false_ne_true
    | setVector l v => exact absurd hl.symm Bool.false_ne_true
    | initCurrentCpu =>
      intro m hm
      simp only [Work.body, progOf, progInitCurrentCpu] at hm
      split at hm <;> simp only [armActions, List.cons_append, List.nil_append, List.mem_cons, List.mem_append,
        List.mem_flatMap, List.not_mem_nil, or_false] at hm
      · rcases hm with rfl | rfl | rfl | ⟨a, -, rfl | rfl⟩ | rfl <;> rfl
      · rcases hm with rfl | rfl <;> rfl
    | maskAll =>
      intro m hm
      simp only [Work.body, progOf, progMaskAll, progLmi, maskActions, List.cons_append, List.nil_append, List.mem_cons,
        List.mem_flatMap, List.not_mem_nil, or_false] at hm
      rcases hm with rfl | rfl | ⟨k, -, rfl | rfl⟩ <;> rfl
    | _ =>
      simp [Work.body, progOf, progPure, progLvtDecode, progLvtEncode, progLvtVector, progLvtDeliveryMode,
        progLvtDeliveryStatus, progLvtPolarity, progLvtTriggerMode, progLvtMask, progLvtTimerMode, progLvtSetVector,
        progLvtSetDeliveryMode, progLvtSetPolarity, progLvtSetTriggerMode, progLvtSetMask, progLvtSetTimerMode,
        progLvtNew, progFacadeSelect, progSupported, progSendEoi, progLmi, progRouter, progVersion, progSuppression,
        progMaxLvtEntries, progReadId, progSetLvt, progReadLvt, progWriteInterruptCommand, progLapicRead32,
        progLapicWrite32, progIorReadReg, readIorReg, progSupportedInterrupts, writesData]

/-- The last action of an `ior_init`, and only the last, sets the once-state (R234). -/
theorem iorInit_body_last (cfg : Config) :
    ∃ ms, (progIorInit cfg).body = ms ++ [.iorDone] ∧ Micro.iorDone ∉ ms := by
  refine ⟨_, rfl, ?_⟩
  have hd : ∀ l, Micro.iorDone ∉ disableBody cfg l := fun l => by
    unfold disableBody; cases cfg.disablePolicy <;> simp [readIorReg, writeIorReg, writeRte]
  simp [disableLines, readVersionLocked, readIorReg, hd]

/-- No action of what is left of an `ior_init` counts, whether it has begun or not. -/
theorem foreignWrites_iorInit {c : CoreId} {rest ms : List Micro} {w : Word} {b : Block}
    (hs : rest <:+ (progIorInit b.cfg).body)
    (hb : b.iorRunner ≠ some c → rest = (progIorInit b.cfg).body ∨ Micro.iorOnce ∉ rest ∧ Micro.iorDone ∉ rest)
    (hp : ms = rest ∨ ms = rest.take 1) : foreignWrites c ms w b = [] := by
  obtain ⟨all, he, hd⟩ := iorInit_body_last b.cfg
  have run : ∀ {ms' rest' : List Micro} {w' : Word} {b' : Block}, b'.iorRunner = some c → rest' <:+ all ++ [.iorDone] →
      (ms' = rest' ∨ ms' = rest'.take 1) → foreignWrites c ms' w' b' = [] := by
    intro ms' rest' w' b' hr hsuf hms
    rcases List.suffix_concat_iff.mp hsuf with rfl | ⟨pre, rfl, hpre⟩
    · rcases hms with rfl | rfl <;> rfl
    · have hn : Micro.iorDone ∉ pre := fun h => hd (hpre.subset h)
      rcases hms with rfl | rfl
      · exact foreignWrites_of_runner hr hn
      · cases pre with
        | nil => exact foreignWrites_of_runner (ms := []) hr List.not_mem_nil
        | cons m pre =>
          simp only [List.cons_append, List.take_succ_cons, List.take_zero, foreignWrites]
          cases microStep c m w' b' <;> simp [foreignWrite, hr]
  by_cases hr : b.iorRunner = some c
  · exact run hr (he ▸ hs) hp
  · rcases hb hr with hbody | ⟨-, hdone⟩
    · have hcons := hbody.trans (iorInit_body b.cfg)
      have htail : (progIorInit b.cfg).body.tail <:+ all ++ [.iorDone] := he ▸ List.tail_suffix _
      have once : ∀ ms', ms' = (progIorInit b.cfg).body.tail ∨ ms' = [] →
          foreignWrites c (.iorOnce :: ms') w b = [] := by
        intro ms' hm
        rw [foreignWrites]
        cases hst : microStep c .iorOnce w b with
        | ok w' b' =>
          obtain ⟨-, -, -, rfl⟩ := iorOnce_ok hst
          have hz : foreignWrite c .iorOnce b = [] := rfl
          dsimp only
          rw [hz, List.nil_append]
          rcases hm with rfl | rfl
          · exact run rfl htail (.inl rfl)
          · rfl
        | _ => rfl
      rcases hp with rfl | rfl
      · rw [hcons]; exact once _ (.inl rfl)
      · rw [hcons]; exact once _ (.inr rfl)
    · have : rest = [] := by
        rcases List.suffix_concat_iff.mp (he ▸ hs) with h | ⟨pre, rfl, -⟩
        · exact h
        · exact absurd (List.mem_append_right _ (List.mem_singleton.mpr rfl)) hdone
      subst this
      rcases hp with rfl | rfl <;> rfl

/-- Where the step makes no write of the data register outside a router operation, the only lines that count are those
an operation of R236 to R242 writes. -/
theorem stepWrites_within {s : State} {written : List Nat} (hm : MaskDiscipline written s) (h : WithinOperations s) :
    stepWrites s = operationWrites s := by
  have key : ∀ {c : CoreId} {work : Work} {w : Word} {rest ms : List Micro}, lineOperation work = false →
      outsideWrite s.block.cfg work = false → rest <:+ work.body s.block.cfg c →
      (s.block.iorRunner ≠ some c → rest = (progIorInit s.block.cfg).body ∨
        Micro.iorOnce ∉ rest ∧ Micro.iorDone ∉ rest ∨ work ≠ .call .iorInit) →
      (ms = rest ∨ ms = rest.take 1) → foreignWrites c ms w s.block = [] := by
    intro c work w rest ms hl ho hs hb hp
    by_cases hi : work = .call .iorInit
    · subst hi
      exact foreignWrites_iorInit hs (fun hr => (hb hr).imp_right fun h => h.resolve_right fun h => h rfl) hp
    · refine foreignWrites_of_none c fun m hmem => writesData_body c hl ho hi m (hs.subset ?_)
      rcases hp with rfl | rfl
      · exact hmem
      · exact List.mem_of_mem_take hmem
  unfold operationWrites
  split
  · rfl
  rename_i hline
  rw [Bool.not_eq_true] at hline
  have pend : ∀ {c : CoreId} {p : Work × Word × List Micro}, s.pending c = some p →
      (s.status c = some .idle ∧ p.2.2 = p.1.body s.block.cfg c) ∨
      ∃ ret, s.status c = some (.running p.1 p.2.1 p.2.2 ret) := by
    intro c p hp
    unfold State.pending at hp
    cases hag : s.agents[c]? with
    | none => rw [hag] at hp; cases hp
    | some a =>
      rw [hag] at hp
      dsimp only at hp
      have hst := status_of_agent hag
      cases ha : a.status with
      | running work w rest ret => rw [ha] at hp hst; cases hp; exact .inr ⟨ret, hst⟩
      | faulted r work => rw [ha] at hp; cases hp
      | refused r work => rw [ha] at hp; cases hp
      | idle =>
        rw [ha] at hp hst
        dsimp only at hp
        refine .inl ⟨hst, ?_⟩
        split at hp
        · cases hp
        · split at hp <;> cases hp
          rfl
        · cases hp; rfl
  have suffix : ∀ {c : CoreId} {p : Work × Word × List Micro}, s.pending c = some p →
      p.2.2 <:+ p.1.body s.block.cfg c ∧
      (s.block.iorRunner ≠ some c → p.2.2 = (progIorInit s.block.cfg).body ∨
        Micro.iorOnce ∉ p.2.2 ∧ Micro.iorDone ∉ p.2.2 ∨ p.1 ≠ .call .iorInit) := by
    intro c p hp
    rcases pend hp with ⟨-, hb⟩ | ⟨ret, hst⟩
    · refine ⟨hb ▸ List.suffix_rfl, fun _ => ?_⟩
      by_cases hi : p.1 = .call .iorInit
      · exact .inl (hb.trans (by rw [hi]; rfl))
      · exact .inr (.inr hi)
    · exact ⟨hm.underway c _ _ _ _ hst, fun hr => (hm.others_begin c _ _ _ _ hst hr).imp_right .inl⟩
  unfold stepWrites
  split
  · rename_i c ts ht
    cases hp : s.pending c with
    | none => rfl
    | some p =>
      have hw : s.turnWork = some p.1 := by simp [State.turnWork, ht, hp]
      rw [hw] at hline
      exact key hline (h p.1 hw) (suffix hp).1 (suffix hp).2 (.inl rfl)
  · rename_i c ts ht
    split
    · rename_i work w rest ret hst
      have hp : s.pending c = some (work, w, rest) := by
        unfold State.status at hst
        obtain ⟨a, hag, ha⟩ := Option.map_eq_some_iff.mp hst
        simp [State.pending, hag, ha]
      have hw : s.turnWork = some work := by simp [State.turnWork, ht, hp]
      rw [hw] at hline
      exact key hline (h work hw) (suffix hp).1 (suffix hp).2 (.inr rfl)
    · rfl
  · rfl

/-- What is left of a run is the end of it. -/
theorem runBody_suffix {c : CoreId} {ms rest : List Micro} {w w' : Word} {b b' : Block}
    (h : runBody c ms w b = .blocked w' rest b') : rest <:+ ms := by
  induction ms generalizing w b with
  | nil => cases h
  | cons m ms ih =>
    rw [runBody_cons] at h
    cases hm : microStep c m w b with
    | ok w1 b1 => rw [hm] at h; exact (ih h).trans (List.suffix_cons m ms)
    | wait => rw [hm] at h; cases h; exact List.suffix_rfl
    | fault r => rw [hm] at h; cases h
    | refuse r => rw [hm] at h; cases h

theorem microHalt_suffix {c : CoreId} {ms rest : List Micro} {w w' : Word} {b b' : Block}
    (h : microHalt c w ms b = .blocked w' rest b') : rest <:+ ms := by
  cases ms with
  | nil => cases h
  | cons m ms =>
    simp only [microHalt] at h
    cases hm : microStep c m w b with
    | ok w1 b1 => rw [hm] at h; cases h; exact List.suffix_cons m _
    | wait => rw [hm] at h; cases h; exact List.suffix_rfl
    | fault r => rw [hm] at h; cases h
    | refuse r => rw [hm] at h; cases h

/-! ### What an ior_init keeps -/

/-- One action of the core that runs `ior_init`: it is the last one, and the lines are masked or written, or it leaves a
shorter rest of which the same holds. -/
theorem microStep_runner {c : CoreId} {m : Micro} {ms : List Micro} {w w' : Word} {b b' : Block} {written : List Nat}
    (h : microStep c m w b = .ok w' b') (hr : b.iorRunner = some c) (hlock : lockRole m = .under → b.iorLock = .held c)
    {l : Nat} (hl : l < b.rtes.length)
    (he : endsMasked b.cfg l (b.indexFor c) (decide (w = b.cfg.iorVersionWord)) (b.lineHeld written l) (m :: ms) =
      true) :
    (m = .iorDone ∧ ms = [] ∧ b'.iorInited = true ∧ b'.iorRunner = none ∧ b'.lineHeld written l = true) ∨
      (m ≠ .iorDone ∧ b'.iorInited = b.iorInited ∧ b'.iorRunner = some c ∧
        endsMasked b.cfg l (b'.indexFor c) (decide (w' = b.cfg.iorVersionWord)) (b'.lineHeld written l) ms = true) := by
  cases m <;> simp only [endsMasked, Bool.false_eq_true] at he <;> simp only [microStep] at h
  case iorDone =>
    cases h
    rw [Bool.and_eq_true, List.isEmpty_iff] at he
    exact .inl ⟨rfl, he.2, rfl, rfl, he.1⟩
  case mapIor => obtain ⟨-, rfl, rfl⟩ := checkOr_ok h; exact .inr ⟨Micro.noConfusion, rfl, hr, he⟩
  case lock =>
    obtain ⟨rfl, -, rfl⟩ := lockIor_ok h
    exact .inr ⟨Micro.noConfusion, rfl, hr, endsMasked_mono (.inl rfl) id id he⟩
  case unlock => cases h; exact .inr ⟨Micro.noConfusion, rfl, hr, endsMasked_mono (.inl rfl) id id he⟩
  case indexWrite i =>
    cases h
    have hk : Block.indexFor (indexWrite (i.setWidth 32) b) c = some i := by simp [Block.indexFor, hlock rfl]
    exact .inr ⟨Micro.noConfusion, rfl, hr, by rw [hk]; exact he⟩
  case requireAddressable =>
    split at h <;> cases h
    rename_i hle
    refine .inr ⟨Micro.noConfusion, rfl, hr, ?_⟩
    rw [Bool.or_eq_true, Bool.and_eq_true, decide_eq_true_eq, decide_eq_true_eq] at he
    refine he.resolve_left fun hn => ?_
    rw [hn.1] at hle
    exact absurd hle (Nat.not_le_of_lt hn.2)
  case dataRead =>
    obtain ⟨hs, hc, hv⟩ := dataRead_router h
    have hk : b'.indexFor c = b.indexFor c := by rw [Block.indexFor, hs.2.2.2.2, hs.2.2.1]; rfl
    have hm : b'.lineHeld written l = b.lineHeld written l := by rw [Block.lineHeld, Block.rte, hs.2.2.2.1]; rfl
    refine .inr ⟨Micro.noConfusion, hs.1, hs.2.1.trans hr, ?_⟩
    rw [hk, hm]
    refine endsMasked_mono (.inr rfl) (fun hq => ?_) id he
    simp only [Block.indexFor, hlock rfl, if_true, Option.bind_some, beq_iff_eq] at hq
    simpa using hv hq
  case dataWrite src =>
    obtain ⟨rfl, u, hw⟩ := keeping_ok h
    obtain ⟨hs, hi, hv⟩ := dataWrite_router hw
    have hk : b'.indexFor c = b.indexFor c := by rw [Block.indexFor, hs.iorLock, hi]; rfl
    refine .inr ⟨Micro.noConfusion, hs.iorInited, hs.iorRunner.trans hr, ?_⟩
    rw [Bool.and_eq_true] at he
    rw [hk]
    refine endsMasked_mono (.inr rfl) id (fun hq => ?_) he.2
    simp only [Block.indexFor, hlock rfl, if_true, Option.bind_some] at hq
    simp only [Block.lineHeld, Bool.or_eq_true, decide_eq_true_eq]
    split at hq
    · rename_i hat
      rw [hv l hl hat]
      exact .inr (src.masks_eval _ _ hq)
    · rename_i hat
      rw [hs.lo l fun hmem => hat ?_]
      · simpa [Block.lineHeld] using hq
      · unfold lowLineAt at hmem
        split at hmem
        · rename_i n hn; rw [List.mem_singleton.mp hmem]; exact hn
        · cases hmem

end Sys2Proof.Machine
end

