-- ==== Sys2Proof/Laws/PerInstr.lean ====
section
/-! SUPPORT. Per operation: its encoding is twelve bytes and begins with the selector of spec/30_encoding.md R113, which
names this operation and no other. -/

namespace Sys2Proof.Laws.CallWord

def Statement (i : Instr) : Prop :=
  (encode i).length = requestLength ∧ (encode i).head? = some i.opcode.selector ∧
    Opcode.ofSelector i.opcode.selector = some i.opcode

theorem lvtDecode (k : Kind) (raw : Word) : Statement (.lvtDecode k raw) := ⟨rfl, rfl, rfl⟩
theorem lvtEncode (e : Entry) : Statement (.lvtEncode e) := ⟨rfl, rfl, rfl⟩
theorem lvtVector (e : Entry) : Statement (.lvtVector e) := ⟨rfl, rfl, rfl⟩
theorem lvtDeliveryMode (e : Entry) : Statement (.lvtDeliveryMode e) := ⟨rfl, rfl, rfl⟩
theorem lvtDeliveryStatus (raw : Word) : Statement (.lvtDeliveryStatus raw) := ⟨rfl, rfl, rfl⟩
theorem lvtPolarity (e : Entry) : Statement (.lvtPolarity e) := ⟨rfl, rfl, rfl⟩
theorem lvtTriggerMode (e : Entry) : Statement (.lvtTriggerMode e) := ⟨rfl, rfl, rfl⟩
theorem lvtMask (e : Entry) : Statement (.lvtMask e) := ⟨rfl, rfl, rfl⟩
theorem lvtTimerMode (e : Entry) : Statement (.lvtTimerMode e) := ⟨rfl, rfl, rfl⟩
theorem lvtSetVector (e : Entry) (v : Byte) : Statement (.lvtSetVector e v) := ⟨rfl, rfl, rfl⟩
theorem lvtSetDeliveryMode (e : Entry) (m : DeliveryMode) : Statement (.lvtSetDeliveryMode e m) := ⟨rfl, rfl, rfl⟩
theorem lvtSetPolarity (e : Entry) (p : Polarity) : Statement (.lvtSetPolarity e p) := ⟨rfl, rfl, rfl⟩
theorem lvtSetTriggerMode (e : Entry) (t : TriggerMode) : Statement (.lvtSetTriggerMode e t) := ⟨rfl, rfl, rfl⟩
theorem lvtSetMask (e : Entry) (b : Bool) : Statement (.lvtSetMask e b) := ⟨rfl, rfl, rfl⟩
theorem lvtSetTimerMode (e : Entry) (m : TimerMode) : Statement (.lvtSetTimerMode e m) := ⟨rfl, rfl, rfl⟩
theorem lvtNew (k : Kind) : Statement (.lvtNew k) := ⟨rfl, rfl, rfl⟩
theorem facadeSelect : Statement .facadeSelect := ⟨rfl, rfl, rfl⟩
theorem supported : Statement .supported := ⟨rfl, rfl, rfl⟩
theorem initCurrentCpu : Statement .initCurrentCpu := ⟨rfl, rfl, rfl⟩
theorem sendEoi : Statement .sendEoi := ⟨rfl, rfl, rfl⟩
theorem version : Statement .version := ⟨rfl, rfl, rfl⟩
theorem supportsEoiBroadcastSuppression : Statement .supportsEoiBroadcastSuppression := ⟨rfl, rfl, rfl⟩
theorem maxLvtEntries : Statement .maxLvtEntries := ⟨rfl, rfl, rfl⟩
theorem readId : Statement .readId := ⟨rfl, rfl, rfl⟩
theorem setLvt (e : Entry) : Statement (.setLvt e) := ⟨rfl, rfl, rfl⟩
theorem readLvt (k : Kind) : Statement (.readLvt k) := ⟨rfl, rfl, rfl⟩
theorem maskAll : Statement .maskAll := ⟨rfl, rfl, rfl⟩
theorem writeInterruptCommand (d : IpiDescriptor) : Statement (.writeInterruptCommand d) := ⟨rfl, rfl, rfl⟩
theorem lapicRead32 (off : Word) : Statement (.lapicRead32 off) := ⟨rfl, rfl, rfl⟩
theorem lapicWrite32 (off v : Word) : Statement (.lapicWrite32 off v) := ⟨rfl, rfl, rfl⟩
theorem iorReadReg (idx : Byte) : Statement (.iorReadReg idx) := ⟨rfl, rfl, rfl⟩
theorem iorWriteReg (idx : Byte) (v : Word) : Statement (.iorWriteReg idx v) := ⟨rfl, rfl, rfl⟩
theorem supportedInterrupts : Statement .supportedInterrupts := ⟨rfl, rfl, rfl⟩
theorem iorInit : Statement .iorInit := ⟨rfl, rfl, rfl⟩
theorem enable (l : Nat) (d : Byte) : Statement (.enable l d) := ⟨rfl, rfl, rfl⟩
theorem disable (l : Nat) : Statement (.disable l) := ⟨rfl, rfl, rfl⟩
theorem disableAll : Statement .disableAll := ⟨rfl, rfl, rfl⟩
theorem configure (l : Nat) (v d : Byte) (level activeHigh logical mask : Bool) :
    Statement (.configure l v d level activeHigh logical mask) := ⟨rfl, rfl, rfl⟩
theorem vectorOf (l : Nat) : Statement (.vectorOf l) := ⟨rfl, rfl, rfl⟩
theorem setVector (l : Nat) (v : Byte) : Statement (.setVector l v) := ⟨rfl, rfl, rfl⟩

end Sys2Proof.Laws.CallWord
end

