-- ==== Sys2Proof/Laws/Programs.lean ====
section
/-! SUPPORT. What the shared pieces of the operations do when they are run: the two prerequisites of the Local
Controller Interface, the frame of a router operation, the read-modify-writes of one LVT register and of one line. -/

namespace Sys2Proof.Machine

/-! ### How the bodies begin -/

/-- A router operation with the prerequisite checks it first (R235). -/
theorem router_body (cfg : Config) (c : CoreId) {i : Instr} (h : needsInitedRouter i = true) :
    ∃ ms, (progOf cfg c i).body = .requireIorInited :: ms := by
  cases i <;> first | exact absurd h Bool.false_ne_true | exact ⟨_, rfl⟩

/-- An interface operation with both prerequisites checks them first (R181, R182). -/
theorem lmi_body (cfg : Config) (c : CoreId) {i : Instr} (h : needsInitedCore i = true) :
    ∃ ms, (progOf cfg c i).body = .dispatch :: .requireInited :: ms := by
  cases i <;> first | exact absurd h Bool.false_ne_true | exact ⟨_, rfl⟩

/-! ### Local Controller Interface -/

/-- With both prerequisites met an interface operation goes on with its body, nothing changed. -/
theorem runBody_lmi {s : State} (h : CallerArmed s) (body : List Micro) :
    runBody s.caller (.dispatch :: .requireInited :: body) 0#32 s.block = runBody s.caller body 0#32 s.block := by
  obtain ⟨-, he, -, hi⟩ := h
  rw [runBody_ok (w' := 0#32) (b' := s.block), runBody_ok (w' := 0#32) (b' := s.block)]
  · simp [microStep, checkOr, hi]
  · simp [microStep, dispatchTo, he]

theorem lvtPresent_of {cfg : Config} {c : CoreId} {k : Kind}
    (hk : k = .cmci → 7 ≤ countField (lapicVersionWord cfg c)) : lvtPresent cfg c k = true := by
  unfold lvtPresent
  cases k <;> simp
  exact hk rfl

/-- The word `mask_all` stores over the one it read. -/
def maskedWord (k : Kind) (stored drawn : Word) : Word := readBack (kindMask k) stored drawn ||| flagDisabled

/-- The read-modify-write of one present LVT register. -/
theorem runBody_maskActions {b : Block} (h : ConfigSound b.cfg) {c : CoreId} {k : Kind}
    (hp : lvtPresent b.cfg c k = true) (ms : List Micro) (w : Word) :
    runBody c (maskActions b.cfg k ++ ms) w b =
      runBody c ms (readBack (kindMask k) (b.lvt c k) b.drawn)
        (b.drew.setLvt c k (maskedWord k (b.lvt c k) b.drawn)) := by
  have h1 := microStep_lapicRead h c (.lvt k) w
  have h2 := microStep_lapicWrite (b := b.drew) h c (.lvt k) .setMaskBit (readBack (kindMask k) (b.lvt c k) b.drawn)
  simp only [readLapicReg, hp, if_true] at h1
  simp only [writeLapicReg, drew_cfg, hp, if_true, Res.keeping] at h2
  exact (runBody_ok h1 _).trans (runBody_ok h2 _)

theorem maskedWord_bit (k : Kind) (stored drawn : Word) : (maskedWord k stored drawn).getLsbD 16 = true := by
  simp [maskedWord, flagDisabled, bitWord]

theorem maskedWord_supported (k : Kind) (stored drawn : Word) :
    maskedWord k stored drawn &&& kindMask k = (stored &&& kindMask k) ||| 0x00010000#32 := by
  have h : flagDisabled &&& kindMask k = 0x00010000#32 := by cases k <;> decide
  rw [← h, ← readBack_and_mask (kindMask k) stored drawn, maskedWord]
  ext i hi
  simp only [BitVec.getElem_and, BitVec.getElem_or]
  cases (kindMask k)[i] <;> simp

/-- What separates two blocks between which only core c's LVT words and draws differ. -/
structure OnlyLvt (c : CoreId) (b b' : Block) : Prop where
  rest : NonLvtSame c b b'
  facade : FacadeSame b b'
  others : OtherLapicsSame c b b'
  router : RouterSame b b'
  history : b'.history = b.history

theorem OnlyLvt.trans {c : CoreId} {b b' b'' : Block} (h : OnlyLvt c b b') (h' : OnlyLvt c b' b'') :
    OnlyLvt c b b'' := by
  obtain ⟨⟨a1, a2, a3, a4, a5⟩, ⟨a6, a7, a8⟩, ⟨a9, a10⟩, ⟨a11, a12, a13, a14, a15⟩, a16⟩ := h
  obtain ⟨⟨b1, b2, b3, b4, b5⟩, ⟨b6, b7, b8⟩, ⟨b9, b10⟩, ⟨b11, b12, b13, b14, b15⟩, b16⟩ := h'
  exact ⟨⟨b1.trans a1, b2.trans a2, b3.trans a3, b4.trans a4, b5.trans a5⟩,
    ⟨b6.trans a6, b7.trans a7, b8.trans a8⟩, ⟨b9.trans a9, fun c' hc => (b10 c' hc).trans (a10 c' hc)⟩,
    ⟨b11.trans a11, b12.trans a12, b13.trans a13, b14.trans a14, b15.trans a15⟩, b16.trans a16⟩

theorem onlyLvt_setLvt {c : CoreId} {b : Block} (hc : c < b.lapics.length) (k : Kind) (w : Word) :
    OnlyLvt c b (b.setLvt c k w) := by
  refine ⟨?_, ⟨rfl, rfl, rfl⟩, (keeps_setLapic c b { b.lapic c with lvt := (b.lapic c).lvt.put k w } (fun h => h)).others,
    ⟨rfl, rfl, rfl, rfl, rfl⟩, rfl⟩
  unfold NonLvtSame Block.setLvt
  rw [lapic_setLapic _ _ hc]
  exact ⟨rfl, rfl, rfl, rfl, rfl⟩

theorem lvt_setLvt {c : CoreId} {b : Block} (hc : c < b.lapics.length) (k k' : Kind) (w : Word) :
    (b.setLvt c k w).lvt c k' = if k' = k then w else b.lvt c k' := by
  simp only [Block.lvt, Block.setLvt, lapic_setLapic _ _ hc]
  split
  · rename_i he; subst he; exact lvtRegs_get_put _ _ _
  · rename_i he; exact lvtRegs_get_put_other _ _ (Ne.symm he)

/-- Masking the present kinds of a list without repeats, one after the other: each listed register ends as `maskedWord`
of what it was, every other one as it was. -/
theorem runBody_maskKinds {cfg : Config} (h : ConfigSound cfg) (c : CoreId) (ms : List Micro) (ks : List Kind)
    (hn : ks.Nodup) (hp : ∀ k ∈ ks, lvtPresent cfg c k = true) (b : Block) (hb : b.cfg = cfg)
    (hc : c < b.lapics.length) (w : Word) :
    ∃ w' b', runBody c (ks.flatMap (maskActions cfg) ++ ms) w b = runBody c ms w' b' ∧ OnlyLvt c b b' ∧
      (∀ k, k ∉ ks → b'.lvt c k = b.lvt c k) ∧ ∀ k ∈ ks, ∃ d, b'.lvt c k = maskedWord k (b.lvt c k) d := by
  induction ks generalizing b w with
  | nil =>
    exact ⟨w, b, rfl, ⟨⟨rfl, rfl, rfl, rfl, rfl⟩, ⟨rfl, rfl, rfl⟩, ⟨rfl, fun _ _ => rfl⟩, ⟨rfl, rfl, rfl, rfl, rfl⟩,
      rfl⟩, fun _ _ => rfl, fun k h => by cases h⟩
  | cons k ks ih =>
    subst hb
    rw [List.nodup_cons] at hn
    have e1 := runBody_maskActions h (hp k (List.mem_cons_self ..)) (ks.flatMap (maskActions b.cfg) ++ ms) w
    have h0 : OnlyLvt c b b.drew :=
      ⟨⟨rfl, rfl, rfl, rfl, rfl⟩, ⟨rfl, rfl, rfl⟩, ⟨rfl, fun _ _ => rfl⟩, ⟨rfl, rfl, rfl, rfl, rfl⟩, rfl⟩
    have h1 := h0.trans (onlyLvt_setLvt (b := b.drew) hc k (maskedWord k (b.lvt c k) b.drawn))
    have hat := fun k' => lvt_setLvt (b := b.drew) hc k k' (maskedWord k (b.lvt c k) b.drawn)
    obtain ⟨w2, b2, e2, hs2, ho2, hm2⟩ := ih hn.2 (fun k' h' => hp k' (List.mem_cons_of_mem _ h')) _ h1.facade.1
      (by rw [h1.others.1]; exact hc) (readBack (kindMask k) (b.lvt c k) b.drawn)
    refine ⟨w2, b2, ?_, h1.trans hs2, ?_, ?_⟩
    · rw [List.flatMap_cons, List.append_assoc, e1, e2]
    · intro k' hne
      rw [List.mem_cons, not_or] at hne
      rw [ho2 k' hne.2, hat, if_neg hne.1]
      rfl
    · intro k' hm
      rcases List.mem_cons.mp hm with rfl | hm
      · exact ⟨b.drawn, by rw [ho2 k' hn.1, hat, if_pos rfl]⟩
      · obtain ⟨d, hd⟩ := hm2 k' hm
        refine ⟨d, ?_⟩
        have hne : k' ≠ k := fun he => hn.1 (he ▸ hm)
        rw [hd, hat, if_neg hne]
        rfl

/-! ### The router -/

section

variable {cfg : Config} (h : ConfigSound cfg) {l : Nat} (hl : l < min (numLines cfg) (linesAddressable cfg))
  (c : CoreId)
include h hl

/-- Reading a line's low register. -/
theorem runBody_readLo {b : Block} (hb : b.cfg = cfg) (ms : List Micro) (w : Word) :
    runBody c (readIorReg (loIndex cfg l) ++ ms) w b =
      runBody c ms (readBack rteLoMask (b.rte l).lo b.drawn) { b.drew with iorIndex := loIndex cfg l } := by
  subst hb
  exact (runBody_ok (microStep_indexWrite c (loIndex b.cfg l) w b) _).trans
    (runBody_ok (microStep_dataRead_lo (b := { b with iorIndex := loIndex b.cfg l }) h hl rfl c w) _)

/-- Writing a line's low register. -/
theorem runBody_writeLo {b : Block} (hb : b.cfg = cfg) (src : Src) (ms : List Micro) (w : Word) :
    runBody c (writeIorReg (loIndex cfg l) src ++ ms) w b =
      runBody c ms w ({ b with iorIndex := loIndex cfg l }.setRte l { b.rte l with lo := src.eval cfg w }) := by
  subst hb
  exact (runBody_ok (microStep_indexWrite c (loIndex b.cfg l) w b) _).trans
    (runBody_ok (microStep_dataWrite_lo (b := { b with iorIndex := loIndex b.cfg l }) h hl rfl c w src) _)

/-- Writing a line's high register. -/
theorem runBody_writeHi {b : Block} (hb : b.cfg = cfg) (src : Src) (ms : List Micro) (w : Word) :
    runBody c (writeIorReg (hiIndex cfg l) src ++ ms) w b =
      runBody c ms w ({ b with iorIndex := hiIndex cfg l }.setRte l { b.rte l with hi := src.eval cfg w }) := by
  subst hb
  exact (runBody_ok (microStep_indexWrite c (hiIndex b.cfg l) w b) _).trans
    (runBody_ok (microStep_dataWrite_hi (b := { b with iorIndex := hiIndex b.cfg l }) h hl rfl c w src) _)

end

/-- Reading the version register under the lock, from a free lock. -/
theorem runBody_readVersionLocked {b : Block} (hf : b.iorLock = .free) (c : CoreId) (ms : List Micro) (w : Word) :
    runBody c (readVersionLocked b.cfg ++ ms) w b =
      runBody c ms b.cfg.iorVersionWord { b with iorIndex := b.cfg.iorVerIndex } := by
  have h1 : microStep c .lock w b = .ok w { b with iorLock := .held c } := by simp [microStep, lockIor, hf]
  rw [readVersionLocked, List.append_assoc, List.append_assoc, List.singleton_append, runBody_ok h1]
  rw [readIorReg, List.cons_append, runBody_ok (microStep_indexWrite c _ w _), List.cons_append,
    runBody_ok (microStep_dataRead_version c w _ rfl), List.nil_append, List.singleton_append,
    runBody_ok (w' := b.cfg.iorVersionWord) (b' := { b with iorIndex := b.cfg.iorVerIndex })]
  simp [microStep, ← hf]

/-- A line's two words after `disable_body`, from those before and the word drawn by its read (R238). -/
def disabledRte (policy : DisablePolicy) (e : Rte) (drawn : Word) : Rte :=
  match policy with
  | .preserve => { e with lo := readBack rteLoMask e.lo drawn ||| flagDisabled }
  | .rewrite => { lo := rteLoWord (vectorField e.lo) flagDisabled, hi := rteHiWord 0x00#8 }

theorem disabledRte_mask (p : DisablePolicy) (e : Rte) (drawn : Word) :
    (disabledRte p e drawn).lo.getLsbD 16 = true := by
  cases p <;> simp [disabledRte, rteLoWord, flagDisabled, bitWord]

theorem disabledRte_vector (p : DisablePolicy) (e : Rte) (drawn : Word) :
    vectorField (disabledRte p e drawn).lo = vectorField e.lo := by
  have h : ∀ x : Word, vectorField (x ||| flagDisabled) = vectorField x := by
    intro x
    ext i hi
    have h0 : flagDisabled.getLsbD i = false := by
      have : ∀ j, j < 8 → flagDisabled.getLsbD j = false := by decide
      exact this i hi
    simp only [vectorField, BitVec.getElem_extractLsb', Nat.zero_add, BitVec.getLsbD_or, h0, Bool.or_false]
  cases p
  · simp only [disabledRte, h, vectorField_readBack_rte]
  · simp only [disabledRte, rteLoWord, h, vectorField_setWidth]

/-- The index `disable_body` leaves (R238). -/
def disabledIndex (cfg : Config) (l : Nat) : Byte :=
  match cfg.disablePolicy with
  | .preserve => loIndex cfg l
  | .rewrite => hiIndex cfg l

/-- What one line's `lock(IOR); disable_body(l); unlock(IOR)` does, from a free lock: the index register, the line's
words and the draw, and nothing else. -/
theorem runBody_disableLine {b : Block} (h : ConfigSound b.cfg) (hf : b.iorLock = .free) {l : Nat}
    (hl : l < min (numLines b.cfg) (linesAddressable b.cfg)) (hr : l < b.rtes.length) (c : CoreId) (ms : List Micro)
    (w : Word) :
    runBody c ([.lock] ++ disableBody b.cfg l ++ [.unlock] ++ ms) w b =
      runBody c ms (readBack rteLoMask (b.rte l).lo b.drawn)
        ({ b.drew with iorIndex := disabledIndex b.cfg l }.setRte l
          (disabledRte b.cfg.disablePolicy (b.rte l) b.drawn)) := by
  have h1 : microStep c .lock w b = .ok w { b with iorLock := .held c } := by simp [microStep, lockIor, hf]
  have e1 := runBody_readLo h hl c (b := { b with iorLock := .held c }) rfl
  simp only [disableBody, List.append_assoc, List.cons_append, List.nil_append]
  rw [runBody_ok h1]
  refine (e1 _ _).trans ?_
  cases hp : b.cfg.disablePolicy with
  | preserve =>
    refine (runBody_writeLo h hl c (by rfl) _ _ _).trans ?_
    refine (runBody_ok (w' := _) (b' := _) rfl _).trans ?_
    simp only [Block.setRte, Block.drew, disabledRte, disabledIndex, hp, Src.eval, ← hf]
    rfl
  | rewrite =>
    simp only [writeRte, List.append_assoc]
    refine (runBody_writeLo h hl c (by rfl) _ _ _).trans ?_
    refine (runBody_writeHi h hl c (by rfl) _ _ _).trans ?_
    refine (runBody_ok (w' := _) (b' := _) rfl _).trans ?_
    simp only [Block.setRte, Block.drew, disabledRte, disabledIndex, hp, Src.eval, List.set_set, ← hf]
    refine congrArg (runBody c ms _) ?_
    simp only [Block.rte, List.getD_eq_getElem?_getD, List.getElem?_set_self hr, Option.getD_some,
      vectorField_readBack_rte]

/-- What separates two blocks between which only lines' words, the index register and draws differ. -/
structure OnlyLines (b b' : Block) : Prop where
  cfg : b'.cfg = b.cfg
  enableType : b'.enableType = b.enableType
  facadeOnce : b'.facadeOnce = b.facadeOnce
  lapics : b'.lapics = b.lapics
  iorInited : b'.iorInited = b.iorInited
  iorRunner : b'.iorRunner = b.iorRunner
  rtes_length : b'.rtes.length = b.rtes.length
  iorLock : b'.iorLock = b.iorLock
  history : b'.history = b.history

/-- Disabling the lines of a list without repeats, line by line from a free lock: each listed line ends as
`disabledRte` of what it was, every other line as it was. -/
theorem runBody_disableLines {cfg : Config} (h : ConfigSound cfg) (c : CoreId) (ms : List Micro) (ls : List Nat)
    (hn : ls.Nodup) (b : Block) (hc : b.cfg = cfg) (hf : b.iorLock = .free)
    (hl : ∀ l ∈ ls, l < min (numLines cfg) (linesAddressable cfg)) (hr : ∀ l ∈ ls, l < b.rtes.length) (w : Word) :
    ∃ w' b', runBody c ((ls.flatMap fun l => [.lock] ++ disableBody cfg l ++ [.unlock]) ++ ms) w b =
        runBody c ms w' b' ∧ OnlyLines b b' ∧
      (∀ l, l ∉ ls → b'.rte l = b.rte l) ∧
      ∀ l ∈ ls, ∃ d, b'.rte l = disabledRte cfg.disablePolicy (b.rte l) d := by
  induction ls generalizing b w with
  | nil => exact ⟨w, b, rfl, ⟨rfl, rfl, rfl, rfl, rfl, rfl, rfl, rfl, rfl⟩, fun _ _ => rfl, fun l h => by cases h⟩
  | cons l ls ih =>
    subst hc
    rw [List.nodup_cons] at hn
    have hll := hl l (List.mem_cons_self ..)
    have hrl := hr l (List.mem_cons_self ..)
    have e1 := runBody_disableLine h hf hll hrl c
      ((ls.flatMap fun l => [.lock] ++ disableBody b.cfg l ++ [.unlock]) ++ ms) w
    generalize readBack rteLoMask (b.rte l).lo b.drawn = w1 at e1
    generalize hb1 : ({ b.drew with iorIndex := disabledIndex b.cfg l }.setRte l
      (disabledRte b.cfg.disablePolicy (b.rte l) b.drawn) : Block) = b1 at e1
    have hsame : OnlyLines b b1 := by
      subst hb1
      exact ⟨rfl, rfl, rfl, rfl, rfl, rfl, by simp, rfl, rfl⟩
    have hat : b1.rte l = disabledRte b.cfg.disablePolicy (b.rte l) b.drawn := by
      subst hb1
      exact rte_setRte _ _ hrl
    have hoff : ∀ l', l' ≠ l → b1.rte l' = b.rte l' := by
      intro l' hne
      subst hb1
      exact rte_setRte_other _ _ (Ne.symm hne)
    obtain ⟨w2, b2, e2, hs2, ho2, hm2⟩ := ih hn.2 b1 hsame.cfg (hsame.iorLock.trans hf)
      (fun l' h' => hl l' (List.mem_cons_of_mem _ h'))
      (fun l' h' => by rw [hsame.rtes_length]; exact hr l' (List.mem_cons_of_mem _ h')) w1
    refine ⟨w2, b2, ?_, ?_, ?_, ?_⟩
    · rw [List.flatMap_cons, List.append_assoc, e1, e2]
    · exact ⟨hs2.cfg.trans hsame.cfg, hs2.enableType.trans hsame.enableType, hs2.facadeOnce.trans hsame.facadeOnce,
        hs2.lapics.trans hsame.lapics, hs2.iorInited.trans hsame.iorInited, hs2.iorRunner.trans hsame.iorRunner,
        hs2.rtes_length.trans hsame.rtes_length, hs2.iorLock.trans hsame.iorLock, hs2.history.trans hsame.history⟩
    · intro l' hne
      rw [List.mem_cons, not_or] at hne
      rw [ho2 l' hne.2, hoff l' hne.1]
    · intro l' hm
      rcases List.mem_cons.mp hm with rfl | hm
      · exact ⟨_, (ho2 l' hn.1).trans hat⟩
      · obtain ⟨d, hd⟩ := hm2 l' hm
        refine ⟨d, ?_⟩
        rw [hd, hoff l' (fun he => hn.1 (he ▸ hm))]

end Sys2Proof.Machine
end

