-- ==== Sys2Proof/Tests/Slice0.lean ====
section
/-! SUPPORT. Small tests. Expected results are the vectors of spec/95_test_vectors.md (V, S, P and Programs A to E), named
in each docstring, or the selectors of spec/30_encoding.md R113 with the operand layout of log entry 2. After them, for
each statement of Certificates/Slice0/Obligations.lean that has hypotheses, states and operands that meet them. -/

namespace Sys2Proof.Tests

open Sys2Proof Sys2Proof.Machine

/-! ### Small states -/

/-- A state with its block changed. -/
def onBlock (f : Block → Block) (s : State) : State := { s with block := f s.block }

/-- A state with its parameters changed. -/
def onCfg (f : Config → Config) (s : State) : State := onBlock (fun b => { b with cfg := f b.cfg }) s

/-- Selected(MMIO), both controllers and the router initialized: two cores, 24 lines. -/
def ready : State :=
  onBlock (fun b => { b with
    enableType := .mmio, facadeOnce := .completed, iorInited := true
    lapics := b.lapics.map fun l => { l with inited := true } }) State.reset

/-- As `ready`, each controller with the given version word. -/
def readyWithVersion (w : Word) : State :=
  onCfg (fun cfg => { cfg with cores := cfg.cores.map fun p => { p with versionWord := w } }) ready

/-- As `ready`, with line l's entry given. -/
def readyWithLine (l : Nat) (e : Rte) : State := onBlock (fun b => b.setRte l e) ready

/-- Reset, with the two generation parameters given. -/
def resetWith (msr mmio : Bool) : State :=
  onCfg (fun cfg => { cfg with msrGenPresent := msr, mmioGenPresent := mmio }) State.reset

/-- Reset, with the router's version word given. -/
def resetWithLines (w : Word) : State :=
  onBlock (fun b => { b with rtes := List.replicate (countField w) default })
    (onCfg (fun cfg => { cfg with iorVersionWord := w }) State.reset)

/-- After facade_select on reset: Selected(MMIO), no controller initialized. -/
def selected : State := onBlock (fun b => { b with enableType := .mmio, facadeOnce := .completed }) State.reset

/-- The state the other core's turn makes: core 1 is inside an `ior_init` and holds the lock. -/
def otherHolds : State :=
  (onBlock (fun b => { b with iorLock := .held 1, iorRunner := some 1, iorInited := false }) ready).setStatus 1
    (.running (.call .iorInit) 0#32 [.dataRead, .unlock, .iorDone] (.const .unit))

def nextOf (o : Host.Outcome State Fault Refusal) : Option State :=
  match o with
  | .next s => some s
  | .fault _ => none
  | .refused _ => none

/-- What the operation returns to the caller. -/
def answer (i : Instr) (s : State) : Option Value :=
  (nextOf (exec i s)).bind fun t => (t.agents[s.caller]?).bind Agent.result

/-- The caller's agent afterwards. -/
def statusAfter (i : Instr) (s : State) : Option Status := (nextOf (exec i s)).bind fun t => t.status s.caller

def blockAfter (i : Instr) (s : State) : Option Block := (nextOf (exec i s)).map State.block

def rteAfter (i : Instr) (l : Nat) (s : State) : Option Rte := (blockAfter i s).map fun b => b.rte l

def lapicAfter (i : Instr) (s : State) : Option Lapic := (blockAfter i s).map fun b => b.lapic s.caller

def historyAfter (i : Instr) (s : State) : Option (List Event) := (blockAfter i s).map Block.history

/-! ### Well-formedness refuses ill-formed terms -/

/-- R93: delivery mode 0b001 in a kind that has the field. -/
theorem test_wf_refuses_mode_1 : (⟨.lint0, 0x00000100#32⟩ : Entry).wf = false := by decide

/-- R93: delivery mode 0b011. -/
theorem test_wf_refuses_mode_3 : (⟨.cmci, 0x00000300#32⟩ : Entry).wf = false := by decide

/-- R98: timer mode 0b11. -/
theorem test_wf_refuses_timer_mode_3 : (⟨.timer, 0x00060000#32⟩ : Entry).wf = false := by decide

/-- Log entry 2: a line that does not fit four bytes. -/
theorem test_wf_refuses_line : (Instr.vectorOf 4294967296).wf = false ∧ (Instr.vectorOf 4294967295).wf = true := by
  decide

/-- R116, R144: `lvt_set_delivery_mode(Entry{Timer, 0x00060028}, Fixed)` is an operation, though the entry is ill-formed,
and its answer is InvalidArgument (P2: every x). -/
theorem test_set_delivery_mode_of_ill_formed_timer :
    decode [0x0A#8, 0x01#8, 0x28#8, 0#8, 0x06#8, 0#8, 0#8, 0#8, 0#8, 0#8, 0#8, 0#8] =
      .ok (.lvtSetDeliveryMode ⟨.timer, 0x00060028#32⟩ .fixed) ∧
    answer (.lvtSetDeliveryMode ⟨.timer, 0x00060028#32⟩ .fixed) State.reset = some .invalidArgument := by decide

/-- R113: the selectors below, between and above the map's are no operation. -/
theorem test_decode_refuses_selectors :
    decodeTableWord 8 0x1E = none ∧ decodeTableWord 8 0x1F = none ∧ decodeTableWord 8 0x2A = none ∧
      decodeTableWord 8 0xFF = none := by decide

/-- A byte after the operands, a code of no kind, and a Boolean that is neither 0 nor 1 are rejected by name. -/
theorem test_decode_refuses_operands :
    decode [0x13#8, 0x01#8, 0#8, 0#8, 0#8, 0#8, 0#8, 0#8, 0#8, 0#8, 0#8, 0#8] = .error .unusedByteNotZero ∧
    decode [0x0F#8, 0x07#8, 0#8, 0#8, 0#8, 0#8, 0#8, 0#8, 0#8, 0#8, 0#8, 0#8] = .error .badOperand ∧
    decode [0x0D#8, 0x00#8, 0#8, 0#8, 0#8, 0#8, 0x02#8, 0#8, 0#8, 0#8, 0#8, 0#8] = .error .badOperand ∧
    decode [0x13#8] = .error .badLength := by decide

/-! ### Every constructor's request written out (selector of R113, operands of log entry 2) -/

/-- Codec, getters. -/
theorem test_decode_codec_getters :
    decode [0x00#8, 0x01#8, 0x28#8, 0#8, 0#8, 0#8, 0#8, 0#8, 0#8, 0#8, 0#8, 0#8] = .ok (.lvtDecode .timer 0x00000028#32) ∧
    decode [0x01#8, 0x04#8, 0#8, 0xA7#8, 0x01#8, 0#8, 0#8, 0#8, 0#8, 0#8, 0#8, 0#8] =
      .ok (.lvtEncode ⟨.lint0, 0x0001A700#32⟩) ∧
    decode [0x02#8, 0x03#8, 0xFF#8, 0x04#8, 0x01#8, 0#8, 0#8, 0#8, 0#8, 0#8, 0#8, 0#8] =
      .ok (.lvtVector ⟨.perfMon, 0x000104FF#32⟩) ∧
    decode [0x03#8, 0x02#8, 0#8, 0x07#8, 0#8, 0#8, 0#8, 0#8, 0#8, 0#8, 0#8, 0#8] =
      .ok (.lvtDeliveryMode ⟨.thermal, 0x00000700#32⟩) ∧
    decode [0x04#8, 0x78#8, 0x56#8, 0x34#8, 0x12#8, 0#8, 0#8, 0#8, 0#8, 0#8, 0#8, 0#8] =
      .ok (.lvtDeliveryStatus 0x12345678#32) ∧
    decode [0x05#8, 0x04#8, 0#8, 0x20#8, 0#8, 0#8, 0#8, 0#8, 0#8, 0#8, 0#8, 0#8] =
      .ok (.lvtPolarity ⟨.lint0, 0x00002000#32⟩) ∧
    decode [0x06#8, 0x05#8, 0#8, 0x80#8, 0#8, 0#8, 0#8, 0#8, 0#8, 0#8, 0#8, 0#8] =
      .ok (.lvtTriggerMode ⟨.lint1, 0x00008000#32⟩) ∧
    decode [0x07#8, 0x06#8, 0#8, 0#8, 0x01#8, 0#8, 0#8, 0#8, 0#8, 0#8, 0#8, 0#8] =
      .ok (.lvtMask ⟨.error, 0x00010000#32⟩) ∧
    decode [0x08#8, 0x01#8, 0#8, 0#8, 0x02#8, 0#8, 0#8, 0#8, 0#8, 0#8, 0#8, 0#8] =
      .ok (.lvtTimerMode ⟨.timer, 0x00020000#32⟩) := by decide

/-- Codec, setters and `lvt_new`. -/
theorem test_decode_codec_setters :
    decode [0x09#8, 0x00#8, 0#8, 0#8, 0xF8#8, 0xFF#8, 0x31#8, 0#8, 0#8, 0#8, 0#8, 0#8] =
      .ok (.lvtSetVector ⟨.cmci, 0xFFF80000#32⟩ 0x31#8) ∧
    decode [0x0A#8, 0x04#8, 0#8, 0x80#8, 0#8, 0#8, 0x07#8, 0#8, 0#8, 0#8, 0#8, 0#8] =
      .ok (.lvtSetDeliveryMode ⟨.lint0, 0x00008000#32⟩ .extInt) ∧
    decode [0x0B#8, 0x04#8, 0#8, 0#8, 0#8, 0#8, 0x01#8, 0#8, 0#8, 0#8, 0#8, 0#8] =
      .ok (.lvtSetPolarity ⟨.lint0, 0#32⟩ .activeLow) ∧
    decode [0x0C#8, 0x05#8, 0#8, 0xA0#8, 0#8, 0#8, 0x00#8, 0#8, 0#8, 0#8, 0#8, 0#8] =
      .ok (.lvtSetTriggerMode ⟨.lint1, 0x0000A000#32⟩ .edge) ∧
    decode [0x0D#8, 0x04#8, 0#8, 0x87#8, 0x01#8, 0#8, 0x00#8, 0#8, 0#8, 0#8, 0#8, 0#8] =
      .ok (.lvtSetMask ⟨.lint0, 0x00018700#32⟩ false) ∧
    decode [0x0E#8, 0x01#8, 0x28#8, 0#8, 0x04#8, 0#8, 0x02#8, 0#8, 0#8, 0#8, 0#8, 0#8] =
      .ok (.lvtSetTimerMode ⟨.timer, 0x00040028#32⟩ .tscDeadline) ∧
    decode [0x0F#8, 0x03#8, 0#8, 0#8, 0#8, 0#8, 0#8, 0#8, 0#8, 0#8, 0#8, 0#8] = .ok (.lvtNew .perfMon) := by decide

/-- Local controller, no operands: the host's numbering of the table's eight bits. -/
theorem test_decode_local_controller_selectors :
    decodeTableWord 8 0x10 = some .facadeSelect ∧ decodeTableWord 8 0x11 = some .supported ∧
    decodeTableWord 8 0x12 = some .initCurrentCpu ∧ decodeTableWord 8 0x13 = some .sendEoi ∧
    decodeTableWord 8 0x14 = some .version ∧ decodeTableWord 8 0x15 = some .supportsEoiBroadcastSuppression ∧
    decodeTableWord 8 0x16 = some .maxLvtEntries ∧ decodeTableWord 8 0x17 = some .readId ∧
    decodeTableWord 8 0x1A = some .maskAll := by decide

/-- Local controller, with operands. -/
theorem test_decode_local_controller_operands :
    decode [0x18#8, 0x01#8, 0x30#8, 0#8, 0x02#8, 0#8, 0#8, 0#8, 0#8, 0#8, 0#8, 0#8] =
      .ok (.setLvt ⟨.timer, 0x00020030#32⟩) ∧
    decode [0x19#8, 0x06#8, 0#8, 0#8, 0#8, 0#8, 0#8, 0#8, 0#8, 0#8, 0#8, 0#8] = .ok (.readLvt .error) ∧
    decode [0x1B#8, 0x08#8, 0x06#8, 0#8, 0x01#8, 0#8, 0x03#8, 0x01#8, 0#8, 0#8, 0#8, 0#8] =
      .ok (.writeInterruptCommand ⟨0x08#8, .startUp, .physical, .assert, .edge, .allExcludingSelf, 0x01#8⟩) ∧
    decode [0x1C#8, 0xF0#8, 0#8, 0#8, 0#8, 0#8, 0#8, 0#8, 0#8, 0#8, 0#8, 0#8] = .ok (.lapicRead32 0x000000F0#32) ∧
    decode [0x1D#8, 0x60#8, 0x03#8, 0#8, 0#8, 0x00#8, 0x01#8, 0#8, 0#8, 0#8, 0#8, 0#8] =
      .ok (.lapicWrite32 0x00000360#32 0x00000100#32) := by decide

/-- Router. -/
theorem test_decode_router :
    decode [0x20#8, 0x1A#8, 0#8, 0#8, 0#8, 0#8, 0#8, 0#8, 0#8, 0#8, 0#8, 0#8] = .ok (.iorReadReg 0x1A#8) ∧
    decode [0x21#8, 0x1B#8, 0x04#8, 0x03#8, 0x02#8, 0x01#8, 0#8, 0#8, 0#8, 0#8, 0#8, 0#8] =
      .ok (.iorWriteReg 0x1B#8 0x01020304#32) ∧
    decodeTableWord 8 0x22 = some .supportedInterrupts ∧ decodeTableWord 8 0x23 = some .iorInit ∧
    decode [0x24#8, 0x05#8, 0#8, 0#8, 0#8, 0x03#8, 0#8, 0#8, 0#8, 0#8, 0#8, 0#8] = .ok (.enable 5 0x03#8) ∧
    decode [0x25#8, 0x00#8, 0x01#8, 0#8, 0#8, 0#8, 0#8, 0#8, 0#8, 0#8, 0#8, 0#8] = .ok (.disable 256) ∧
    decodeTableWord 8 0x26 = some .disableAll ∧
    decode [0x27#8, 0x05#8, 0#8, 0#8, 0#8, 0x10#8, 0x02#8, 0#8, 0x01#8, 0#8, 0#8, 0#8] =
      .ok (.configure 5 0x10#8 0x02#8 false true false false) ∧
    decode [0x28#8, 0x18#8, 0#8, 0#8, 0#8, 0#8, 0#8, 0#8, 0#8, 0#8, 0#8, 0#8] = .ok (.vectorOf 24) ∧
    decode [0x29#8, 0x04#8, 0#8, 0#8, 0#8, 0x77#8, 0#8, 0#8, 0#8, 0#8, 0#8, 0#8] = .ok (.setVector 4 0x77#8) := by decide

/-! ### LVT codec -/

/-- V1, V8. -/
theorem test_lvt_decode :
    answer (.lvtDecode .timer 0x00060028#32) State.reset = some .invalidArgument ∧
    answer (.lvtDecode .cmci 0xFFF84800#32) State.reset = some (.entry ⟨.cmci, 0xFFF84800#32⟩) := by decide

/-- Program A, step 7. -/
theorem test_lvt_encode : answer (.lvtEncode ⟨.lint0, 0x0001A700#32⟩) State.reset = some (.word 0x0001A700#32) := by
  decide

/-- V18. -/
theorem test_lvt_vector : answer (.lvtVector ⟨.perfMon, 0x000104FF#32⟩) State.reset = some (.byte 0xFF#8) := by decide

/-- V9, V6. -/
theorem test_lvt_delivery_mode :
    answer (.lvtDeliveryMode ⟨.thermal, 0x00000700#32⟩) State.reset = some (.deliveryMode (some .extInt)) ∧
    answer (.lvtDeliveryMode ⟨.error, 0x00000300#32⟩) State.reset = some (.deliveryMode none) := by decide

/-- V21, V22. -/
theorem test_lvt_delivery_status :
    answer (.lvtDeliveryStatus 0x00001000#32) State.reset = some (.deliveryStatus .sendPending) ∧
    answer (.lvtDeliveryStatus 0xFFFFEFFF#32) State.reset = some (.deliveryStatus .idle) := by decide

/-- V13, V15. -/
theorem test_lvt_polarity :
    answer (.lvtPolarity ⟨.lint0, 0x00002000#32⟩) State.reset = some (.polarity (some .activeLow)) ∧
    answer (.lvtPolarity ⟨.thermal, 0x00002000#32⟩) State.reset = some (.polarity none) := by decide

/-- S2a, V16. -/
theorem test_lvt_trigger_mode :
    answer (.lvtTriggerMode ⟨.lint0, 0x00008000#32⟩) State.reset = some (.triggerMode (some .level)) ∧
    answer (.lvtTriggerMode ⟨.timer, 0x00008000#32⟩) State.reset = some (.triggerMode none) := by decide

/-- V17, S1. -/
theorem test_lvt_mask :
    answer (.lvtMask ⟨.lint1, 0x00010000#32⟩) State.reset = some (.bool true) ∧
    answer (.lvtMask ⟨.timer, 0x00000028#32⟩) State.reset = some (.bool false) := by decide

/-- V2, V7. -/
theorem test_lvt_timer_mode :
    answer (.lvtTimerMode ⟨.timer, 0x00040028#32⟩) State.reset = some (.timerMode (some .tscDeadline)) ∧
    answer (.lvtTimerMode ⟨.lint1, 0x00060000#32⟩) State.reset = some (.timerMode none) := by decide

/-- V32, V34. -/
theorem test_lvt_set_vector :
    answer (.lvtSetVector ⟨.cmci, 0xFFF80000#32⟩ 0x31#8) State.reset = some (.entry ⟨.cmci, 0xFFF80031#32⟩) ∧
    answer (.lvtSetVector ⟨.error, 0x00001000#32⟩ 0x00#8) State.reset = some (.entry ⟨.error, 0x00001000#32⟩) := by decide

/-- V25, V23. -/
theorem test_lvt_set_delivery_mode :
    answer (.lvtSetDeliveryMode ⟨.lint0, 0x00000700#32⟩ .fixed) State.reset = some (.entry ⟨.lint0, 0#32⟩) ∧
    answer (.lvtSetDeliveryMode ⟨.error, 0x000000FE#32⟩ .fixed) State.reset = some .invalidArgument := by decide

/-- Program A step 4, V28. -/
theorem test_lvt_set_polarity :
    answer (.lvtSetPolarity ⟨.lint0, 0x00008700#32⟩ .activeLow) State.reset = some (.entry ⟨.lint0, 0x0000A700#32⟩) ∧
    answer (.lvtSetPolarity ⟨.timer, 0x00000028#32⟩ .activeHigh) State.reset = some .invalidArgument := by decide

/-- V26, V27. -/
theorem test_lvt_set_trigger_mode :
    answer (.lvtSetTriggerMode ⟨.lint1, 0x0000A000#32⟩ .edge) State.reset = some (.entry ⟨.lint1, 0x00002000#32⟩) ∧
    answer (.lvtSetTriggerMode ⟨.error, 0#32⟩ .edge) State.reset = some .invalidArgument := by decide

/-- V33, Program A step 5. -/
theorem test_lvt_set_mask :
    answer (.lvtSetMask ⟨.lint0, 0x00018700#32⟩ false) State.reset = some (.entry ⟨.lint0, 0x00008700#32⟩) ∧
    answer (.lvtSetMask ⟨.lint0, 0x0000A700#32⟩ true) State.reset = some (.entry ⟨.lint0, 0x0001A700#32⟩) := by decide

/-- V30, V29. -/
theorem test_lvt_set_timer_mode :
    answer (.lvtSetTimerMode ⟨.timer, 0x00040028#32⟩ .oneShot) State.reset = some (.entry ⟨.timer, 0x00000028#32⟩) ∧
    answer (.lvtSetTimerMode ⟨.lint0, 0#32⟩ .oneShot) State.reset = some .invalidArgument := by decide

/-- Program A, step 1. -/
theorem test_lvt_new : answer (.lvtNew .lint0) State.reset = some (.entry ⟨.lint0, 0x00000000#32⟩) := by decide

/-! ### Facade and local controller -/

/-- V36, V38. -/
theorem test_facade_select :
    (blockAfter .facadeSelect (resetWith true true)).map Block.enableType = some .msr ∧
    statusAfter .facadeSelect (resetWith false false) =
      some (.faulted .unsupportedConfiguration (.call .facadeSelect)) := by decide

/-- V41. -/
theorem test_supported : answer .supported State.reset = some (.bool true) := by decide

/-- V53, V40. -/
theorem test_init_current_cpu :
    (lapicAfter .initCurrentCpu (onBlock (fun b => b.setLapic 0 { b.lapic 0 with svr := 0x12345678#32 }) selected)).map
      (fun l => (l.inited, l.svr)) = some (true, 0x123457FF#32) ∧
    statusAfter .initCurrentCpu State.reset = some (.faulted .orderingViolation (.call .initCurrentCpu)) := by decide

/-- Program B step 7, V42. -/
theorem test_send_eoi :
    historyAfter .sendEoi ready = some [.eoi 0] ∧
    statusAfter .sendEoi selected = some (.faulted .orderingViolation (.call .sendEoi)) := by decide

/-- R188 on Program B's version word. -/
theorem test_version : answer .version ready = some (.byte 0x15#8) := by decide

/-- R189 on Program B's version word (bit 24 set), V45. -/
theorem test_supports_eoi_broadcast_suppression :
    answer .supportsEoiBroadcastSuppression ready = some (.bool true) ∧
    answer .supportsEoiBroadcastSuppression (readyWithVersion 0x00050014#32) = some (.bool false) := by decide

/-- V44, V45. -/
theorem test_max_lvt_entries :
    answer .maxLvtEntries (readyWithVersion 0x00FF0010#32) = some (.count 256) ∧
    answer .maxLvtEntries (readyWithVersion 0x00050014#32) = some (.count 6) := by decide

/-- Program B: APIC_ID(1) = 1. -/
theorem test_id : answer .readId { ready with caller := 1 } = some (.byte 0x01#8) := by decide

/-- Program B step 4, V46. -/
theorem test_set_lvt :
    (lapicAfter (.setLvt ⟨.timer, 0x00020030#32⟩) ready).map (fun l => l.lvt.timer) = some 0x00020030#32 ∧
    statusAfter (.setLvt ⟨.cmci, 0x00000031#32⟩) (readyWithVersion 0x00050014#32) =
      some (.faulted .absentRegister (.call (.setLvt ⟨.cmci, 0x00000031#32⟩))) := by decide

/-- V48: the word a read of LINT0's register returns, whatever is drawn; V49: LINT1's word does not decode. -/
theorem test_read_lvt_words :
    readLapicReg 0 (.lvt .lint0) ((onBlock (fun b => b.setLvt 0 .lint0 0x0000A700#32) ready).block) =
      .ok ((0x0000A700#32 &&& 0x0001A7FF#32) ||| (Config.drawWord 0 &&& ~~~0x0001A7FF#32))
        ((onBlock (fun b => { b.setLvt 0 .lint0 0x0000A700#32 with drawCount := 1 }) ready).block) ∧
    lvtDecode .lint1 0x00000100#32 = none := ⟨rfl, rfl⟩

/-- V46's controller: the CMCI register cannot be read either. -/
theorem test_read_lvt_absent :
    statusAfter (.readLvt .cmci) (readyWithVersion 0x00050014#32) =
      some (.faulted .absentRegister (.call (.readLvt .cmci))) := by decide

/-- V47: with six entries the CMCI register is not touched. -/
theorem test_mask_all :
    answer .maskAll (readyWithVersion 0x00050014#32) = some .unit ∧
    (lapicAfter .maskAll (readyWithVersion 0x00050014#32)).map (fun l => l.lvt.cmci) = some 0#32 := by decide

/-- V50. -/
theorem test_write_interrupt_command_start_up :
    (lapicAfter (.writeInterruptCommand ⟨0x08#8, .startUp, .physical, .assert, .edge, .noShorthand, 0x01#8⟩) ready).map
      (fun l => (l.icrHi, l.icrLo)) = some (0x01000000#32, 0x00004608#32) ∧
    historyAfter (.writeInterruptCommand ⟨0x08#8, .startUp, .physical, .assert, .edge, .noShorthand, 0x01#8⟩) ready =
      some [.deliver (.ipi 0) [1] 0x08#8 .startUp .edge] := by decide

/-- V51, V52. -/
theorem test_write_interrupt_command_shorthands :
    (lapicAfter (.writeInterruptCommand ⟨0x40#8, .fixed, .physical, .assert, .edge, .allExcludingSelf, 0x00#8⟩) ready).map
      Lapic.icrLo = some 0x000C4040#32 ∧
    historyAfter (.writeInterruptCommand ⟨0x40#8, .fixed, .physical, .assert, .edge, .allExcludingSelf, 0x00#8⟩) ready =
      some [.deliver (.ipi 0) [1] 0x40#8 .fixed .edge] ∧
    (lapicAfter (.writeInterruptCommand ⟨0xFD#8, .nmi, .logical, .assert, .edge, .selfOnly, 0x00#8⟩) ready).map
      Lapic.icrLo = some 0x00044CFD#32 := by decide

/-- R333: after a core's first command another of the same core is one that may follow a pending one, and a command of
another core is not. -/
theorem test_commanded :
    (blockAfter (.writeInterruptCommand ⟨0x40#8, .fixed, .physical, .assert, .edge, .selfOnly, 0x00#8⟩) ready).map
      (fun b => (b.commanded 0, b.commanded 1)) = some (true, false) := by decide

/-- R183: the primitives have no prerequisite, before the selection and under Selected(MSR). -/
theorem test_lapic_primitives_have_no_prerequisite :
    answer (.lapicRead32 0x00000030#32) State.reset = some (.word 0x01060015#32) ∧
    (lapicAfter (.lapicWrite32 0x00000360#32 0x00000100#32)
      (onBlock (fun b => { b with enableType := .msr, facadeOnce := .completed }) State.reset)).map
        (fun l => l.lvt.lint1) = some 0x00000100#32 := by decide

/-- V78's offset, V76's. -/
theorem test_lapic_read32 :
    statusAfter (.lapicRead32 0x00000400#32) ready =
      some (.refused .unmappedOffset (.call (.lapicRead32 0x00000400#32))) ∧
    statusAfter (.lapicRead32 0x00000321#32) ready =
      some (.refused .unsupportedAccess (.call (.lapicRead32 0x00000321#32))) := by decide

/-- V49: the raw word is stored, and `read_lvt` of it faults. -/
theorem test_lapic_write32 :
    (lapicAfter (.lapicWrite32 0x00000360#32 0x00000100#32) ready).map (fun l => l.lvt.lint1) = some 0x00000100#32 := by
  decide

/-! ### I/O router -/

/-- V80, through the operation: the version register. -/
theorem test_ior_read_reg : answer (.iorReadReg 0x01#8) ready = some (.word 0x00170011#32) := by decide

/-- R230, R32: the high register of line 5 (index 0x1B); V79's index. -/
theorem test_ior_write_reg :
    rteAfter (.iorWriteReg 0x1B#8 0x02000000#32) 5 ready = some ⟨0#32, 0x02000000#32⟩ ∧
    statusAfter (.iorWriteReg 0x02#8 0#32) ready = some (.refused .unmappedIndex (.call (.iorWriteReg 0x02#8 0#32))) := by
  decide

/-- S4's word: 24 lines. -/
theorem test_supported_interrupts : answer .supportedInterrupts ready = some (.count 24) := by decide

/-- V55, V58. -/
theorem test_ior_init :
    statusAfter .iorInit (resetWithLines 0x00780011#32) = some (.refused .unaddressableLines (.call .iorInit)) ∧
    statusAfter .iorInit ready = some (.faulted .orderingViolation (.call .iorInit)) := by decide

/-- V57, and V66's high register. -/
theorem test_enable :
    statusAfter (.enable 0 0x00#8) State.reset = some (.faulted .orderingViolation (.call (.enable 0 0x00#8))) ∧
    (rteAfter (.enable 2 0x01#8) 2 (readyWithLine 2 ⟨0x0000A830#32, 0x0F000000#32⟩)).map Rte.hi = some 0x01000000#32 := by
  decide

/-- V68's and V69's high registers. -/
theorem test_disable :
    (rteAfter (.disable 2) 2 (readyWithLine 2 ⟨0x0000A830#32, 0x0F000000#32⟩)).map Rte.hi = some 0x0F000000#32 ∧
    (rteAfter (.disable 2) 2 (onCfg (fun cfg => { cfg with disablePolicy := .rewrite })
      (readyWithLine 2 ⟨0x0000A830#32, 0x0F000000#32⟩))).map Rte.hi = some 0x00000000#32 := by decide

/-- R239: it returns, with the lock free. -/
theorem test_disable_all :
    answer .disableAll ready = some .unit ∧ (blockAfter .disableAll ready).map Block.iorLock = some .free := by decide

/-- V60 to V63: the ends of the valid range. -/
theorem test_configure_range :
    rteAfter (.configure 1 0x1F#8 0x00#8 false true false false) 1 ready = some ⟨0x0001001F#32, 0#32⟩ ∧
    rteAfter (.configure 1 0x20#8 0x00#8 false true false false) 1 ready = some ⟨0x00000020#32, 0#32⟩ ∧
    rteAfter (.configure 1 0xEF#8 0x00#8 false true false false) 1 ready = some ⟨0x000000EF#32, 0#32⟩ ∧
    rteAfter (.configure 1 0xF0#8 0x00#8 false true false false) 1 ready = some ⟨0x000100F0#32, 0#32⟩ := by decide

/-- V64, V65. -/
theorem test_configure_flags :
    rteAfter (.configure 2 0x30#8 0x0F#8 true false true false) 2 ready = some ⟨0x0000A830#32, 0x0F000000#32⟩ ∧
    rteAfter (.configure 2 0x30#8 0x0F#8 false true false true) 2 ready = some ⟨0x00010030#32, 0x0F000000#32⟩ := by decide

/-- V59, and the last line. -/
theorem test_vector_of :
    statusAfter (.vectorOf 24) ready = some (.faulted .invalidLine (.call (.vectorOf 24))) ∧
    statusAfter (.vectorOf 23) ready = some .idle := by decide

/-- V70 to V72: the mask is forced on by an invalid old vector, and never cleared. -/
theorem test_set_vector_words :
    setVectorWord 0x000000F0#32 0x41#8 = 0x00010041#32 ∧ setVectorWord 0x00000030#32 0x05#8 = 0x00000005#32 ∧
    setVectorWord 0x00010030#32 0x31#8 = 0x00010031#32 := by decide

/-- R242: the high register stays. -/
theorem test_set_vector :
    (rteAfter (.setVector 4 0x41#8) 4 (readyWithLine 4 ⟨0x000000F0#32, 0x0F000000#32⟩)).map Rte.hi =
      some 0x0F000000#32 := by decide

/-! ### Single steps -/

/-- `ready`, with core 0's next request the access and the turn core 0's. -/
def accessState (a : Access) (s : State) : State :=
  { s with
    agents := s.agents.modify 0 fun x => { x with program := [.access a] }
    turns := [.op 0] }

/-- The state with one turn scheduled. -/
def withTurn (t : Turn) (s : State) : State := { s with turns := [t] }

def stepHistory (s : State) : Option (List Event) := (nextOf (step s)).map fun t => t.block.history

def stepStatus (s : State) : Option Status := (nextOf (step s)).bind fun t => t.status 0

/-- R180: `facade_select` placed by the host runs as the first operation after reset, and it is taken off the program and
the schedule. -/
theorem test_first_step_after_reset :
    (nextOf (step (State.reset.withFetchWord 8 0x10))).map (fun t => (t.block.enableType, t.turns, t.agents.map Agent.program)) =
      some (.mmio, [], [[], []]) := by decide

/-- The other selectors run as the first operation too, to a next state. -/
theorem test_first_step_every_selector :
    ((List.range 0x1E ++ (List.range 10).map (0x20 + ·)).all fun w =>
      (nextOf (step (State.reset.withFetchWord 8 w))).isSome) = true := by decide

/-- R113: a byte that is no selector is no operation. -/
theorem test_undecodable_is_refused :
    step (State.reset.withFetchWord 8 0x1F) = .refused (.undecodable .unknownSelector) := by
  rfl

/-- Program D, step 1: core 1 stops with the fault recorded; core 0 does not. -/
theorem test_fault_stops_one_core :
    (nextOf (step ({ State.reset with caller := 1 }.withRequest
      [0x24#8, 0#8, 0#8, 0#8, 0#8, 0#8, 0#8, 0#8, 0#8, 0#8, 0#8, 0#8]))).map
      (fun t => (t.status 0, t.status 1, t.unfailed)) =
      some (some .idle, some (.faulted .orderingViolation (.call (.enable 0 0x00#8))), false) := by decide

/-- Program B, steps 6 and 9. -/
theorem test_local_event :
    stepHistory (withTurn (.localEvent 0 .timer) (onBlock (fun b => b.setLvt 0 .timer 0x00020030#32) ready)) =
      some [.deliver (.lvt 0 .timer) [0] 0x30#8 .fixed .edge] ∧
    stepHistory (withTurn (.localEvent 0 .timer) (onBlock (fun b => b.setLvt 0 .timer 0x00030030#32) ready)) =
      some [] := by decide

/-- V74, V75. -/
theorem test_line_assert :
    stepHistory (withTurn (.lineAssert 6) (readyWithLine 6 ⟨0x00000031#32, 0x01000000#32⟩)) =
      some [.deliver (.line 6) [1] 0x31#8 .fixed .edge] ∧
    stepHistory (withTurn (.lineAssert 6) (readyWithLine 6 ⟨0x00010031#32, 0x01000000#32⟩)) = some [] := by decide

/-- Program C, step 9: line 7's word, level-triggered. -/
theorem test_line_assert_level :
    stepHistory (withTurn (.lineAssert 7) (readyWithLine 7 ⟨0x0000A031#32, 0x01000000#32⟩)) =
      some [.deliver (.line 7) [1] 0x31#8 .fixed .level] := by decide

/-- V76, V77, V78. -/
theorem test_raw_refusals :
    stepStatus (accessState ⟨0xFEE00321, 4, none⟩ ready) =
      some (.refused .unsupportedAccess (.access ⟨0xFEE00321, 4, none⟩)) ∧
    stepStatus (accessState ⟨0xFEC00000, 1, some 0#32⟩ ready) =
      some (.refused .unsupportedAccess (.access ⟨0xFEC00000, 1, some 0#32⟩)) ∧
    stepStatus (accessState ⟨0xFEE00400, 4, none⟩ ready) =
      some (.refused .unmappedOffset (.access ⟨0xFEE00400, 4, none⟩)) := by decide

/-- Log entry 28: an access that starts below a window and reaches into it is one of the block's; one that ends just below
it is not. -/
theorem test_raw_straddling :
    stepStatus (accessState ⟨0xFEDFFFFC, 8, none⟩ ready) =
      some (.refused .unsupportedAccess (.access ⟨0xFEDFFFFC, 8, none⟩)) ∧
    stepStatus (accessState ⟨0xFEDFFFFE, 4, some 0#32⟩ ready) =
      some (.refused .unsupportedAccess (.access ⟨0xFEDFFFFE, 4, some 0#32⟩)) ∧
    step (accessState ⟨0xFEDFFFFC, 4, none⟩ ready) = .refused .outsideBlock := ⟨by decide, by decide, rfl⟩

/-- V79 and V80, the index write and the data read. -/
theorem test_raw_router :
    (nextOf (step (accessState ⟨0xFEC00000, 4, some 0x12345601#32⟩ ready))).map (fun t => t.block.iorIndex) =
      some 0x01#8 ∧
    (nextOf (step (accessState ⟨0xFEC00010, 4, none⟩ (onBlock (fun b => { b with iorIndex := 0x01#8 }) ready)))).map
      (fun t => t.agents.map Agent.result) = some [some (.word 0x00170011#32), none] ∧
    stepStatus (accessState ⟨0xFEC00010, 4, none⟩ (onBlock (fun b => { b with iorIndex := 0x02#8 }) ready)) =
      some (.refused .unmappedIndex (.access ⟨0xFEC00010, 4, none⟩)) := by decide

/-- R72: core 0 waits while core 1 holds the device lock. -/
theorem test_lock_is_waited_for :
    statusAfter .supportedInterrupts (onBlock (fun b => { b with iorLock := .held 1 }) ready) =
      some (.running (.call .supportedInterrupts) 0#32
        [.lock, .indexWrite 0x01#8, .dataRead, .unlock] .count) := by decide

/-! ### States and operands that meet the hypotheses of the statements -/

theorem test_ready_sound : ConfigSound ready.block.cfg :=
  ⟨by decide, by decide, by decide, by decide, by decide, by decide, by decide, by decide, by decide, by decide⟩

theorem test_ready_armed : CallerArmed ready := ⟨by decide, by decide, by decide, by decide⟩

theorem test_ready_router : RouterReady ready := ⟨by decide, by decide, by decide⟩

/-- Lines 0 and 23 of the 24 are usable, line 24 is not. -/
theorem test_ready_lines : LineUsable ready.block 0 ∧ LineUsable ready.block 23 ∧ ¬ LineUsable ready.block 24 := by
  refine ⟨⟨by decide, by decide⟩, ⟨by decide, by decide⟩, fun h => absurd h.1 (by decide)⟩

/-- As `ready`, with six LVT entries per core: no CMCI register. -/
def sixEntries : State := readyWithVersion 0x00050014#32

theorem test_six_entries :
    CallerArmed sixEntries ∧ ConfigSound sixEntries.block.cfg ∧
      countField (lapicVersionWord sixEntries.block.cfg sixEntries.caller) = 6 :=
  ⟨⟨by decide, by decide, by decide, by decide⟩,
    ⟨by decide, by decide, by decide, by decide, by decide, by decide, by decide, by decide, by decide, by decide⟩,
    by decide⟩

/-- As `ready`, under the Rewrite policy. -/
def rewriting : State := onCfg (fun cfg => { cfg with disablePolicy := .rewrite }) ready

theorem test_rewriting : RouterReady rewriting ∧ ConfigSound rewriting.block.cfg ∧ LineUsable rewriting.block 23 :=
  ⟨⟨by decide, by decide, by decide⟩,
    ⟨by decide, by decide, by decide, by decide, by decide, by decide, by decide, by decide, by decide, by decide⟩,
    ⟨by decide, by decide⟩⟩

/-- As `ready`, with 256 lines, of which 120 can be addressed. -/
def manyLines : State := onCfg (fun cfg => { cfg with iorVersionWord := 0x00FF0020#32 }) ready

/-- DecodeOfEncodeIsTheOperation: well-formed operations, at the ends of their operands' ranges. -/
theorem test_hyps_DecodeOfEncodeIsTheOperation :
    (Instr.setVector 4294967295 0xFF#8).wf = true ∧ (Instr.lvtSetTimerMode ⟨.timer, 0xFFFDFFFF#32⟩ .oneShot).wf = true ∧
    (Instr.lvtSetDeliveryMode ⟨.lint1, 0xFFFFFFFF#32⟩ .extInt).wf = true := by decide

/-- DecodedRequestIsItsEncoding: a request that decodes, and the unlisted selectors at the ends of their ranges. -/
theorem test_hyps_DecodedRequestIsItsEncoding :
    decode [0x13#8, 0#8, 0#8, 0#8, 0#8, 0#8, 0#8, 0#8, 0#8, 0#8, 0#8, 0#8] = .ok .sendEoi ∧
    (List.replicate 11 (0#8 : Byte)).length = 11 ∧ (0x1E#8 : Byte).toNat = 0x1E ∧ (0x1F#8 : Byte).toNat = 0x1F ∧
    0x2A ≤ (0x2A#8 : Byte).toNat ∧ 0x2A ≤ (0xFF#8 : Byte).toNat := by decide

/-- The codec statements, SupportedAnswersInAnyState and SingleActionsRefineTheOperation: a ready caller. -/
theorem test_hyps_ready_caller : CallerReady State.reset := by decide

/-- LvtOptionalGettersReadTheirFields and the codec laws: well-formed entries of a kind with each set of fields. -/
theorem test_hyps_entries :
    (⟨.timer, 0x00040700#32⟩ : Entry).wf = true ∧ (⟨.lint0, 0x0001A700#32⟩ : Entry).wf = true ∧
    (⟨.cmci, 0xFFF84800#32⟩ : Entry).wf = true ∧ (⟨.error, 0x00060300#32⟩ : Entry).wf = true := by decide

/-- CodecKeepsEntriesWellFormed, LvtCodecLaws: each optional setter returns an entry somewhere. -/
theorem test_hyps_LvtCodecLaws :
    lvtSetDeliveryMode ⟨.cmci, 0#32⟩ .smi = some ⟨.cmci, 0x00000200#32⟩ ∧
    lvtSetPolarity ⟨.lint0, 0x00008700#32⟩ .activeLow = some ⟨.lint0, 0x0000A700#32⟩ ∧
    lvtSetTriggerMode ⟨.lint1, 0x0000A000#32⟩ .edge = some ⟨.lint1, 0x00002000#32⟩ ∧
    lvtSetTimerMode ⟨.timer, 0x00040028#32⟩ .oneShot = some ⟨.timer, 0x00000028#32⟩ := by decide

/-- FacadeSelectsMsrThenMmio: a second call, and the three choices of the parameters. -/
theorem test_hyps_FacadeSelectsMsrThenMmio :
    (CallerReady ready ∧ ready.block.facadeOnce = .completed) ∧
    (CallerReady (resetWith true false) ∧ (resetWith true false).block.facadeOnce = .notRun) ∧
    (CallerReady (resetWith false true) ∧ (resetWith false true).block.facadeOnce = .notRun) ∧
    (CallerReady (resetWith false false) ∧ (resetWith false false).block.facadeOnce = .notRun) := by decide

/-- SecondInitializationIsOrderingViolation: all three once-states are set. -/
theorem test_hyps_SecondInitializationIsOrderingViolation :
    CallerReady ready ∧ ready.block.facadeOnce = .completed ∧ ready.block.enableType = .mmio ∧
    (ready.block.lapic ready.caller).inited = true ∧ ready.block.iorInited = true := by decide

/-- InterfaceIsDispatchedOnEnableType: Unselected, and Selected(MSR). -/
theorem test_hyps_InterfaceIsDispatchedOnEnableType :
    CallerReady State.reset ∧ State.reset.block.enableType = .unselected ∧ needsInitedCore .maskAll = true ∧
    CallerReady (onBlock (fun b => { b with enableType := .msr, facadeOnce := .completed }) State.reset) := by decide

/-- OperationsNeedTheirInitialization: Selected(MMIO), nothing initialized. -/
theorem test_hyps_OperationsNeedTheirInitialization :
    CallerReady selected ∧ needsInitedCore .readId = true ∧ selected.block.enableType = .mmio ∧
    (selected.block.lapic selected.caller).inited = false ∧ needsInitedRouter .disableAll = true ∧
    selected.block.iorInited = false := by decide

theorem test_selected_sound : ConfigSound selected.block.cfg := test_ready_sound

/-- As `selected`, without the MMIO generation. -/
def noMmio : State := onCfg (fun cfg => { cfg with mmioGenPresent := false }) selected

/-- InitCurrentCpuArmsSvr: with the generation, and the default `ARM_WRITES`; and without it. -/
theorem test_hyps_InitCurrentCpuArmsSvr :
    (CallerReady selected ∧ ConfigSound selected.block.cfg ∧ selected.block.enableType = .mmio ∧
      selected.caller < selected.block.lapics.length ∧ (selected.block.lapic selected.caller).inited = false ∧
      selected.block.cfg.mmioGenPresent = true ∧ (coreParams selected.block.cfg selected.caller).lapicMapOk = true ∧
      selected.block.cfg.armWrites = [ArmFn.svrEnable].map fun f => ⟨selected.block.cfg.off.svr, f⟩) ∧
    (CallerReady noMmio ∧ ConfigSound noMmio.block.cfg ∧ noMmio.block.enableType = .mmio ∧
      noMmio.caller < noMmio.block.lapics.length ∧ (noMmio.block.lapic noMmio.caller).inited = false ∧
      noMmio.block.cfg.mmioGenPresent = false) :=
  ⟨⟨by decide, test_selected_sound, by decide, by decide, by decide, by decide, by decide, by decide⟩,
    by decide,
    ⟨by decide, by decide, by decide, by decide, by decide, by decide, by decide, by decide, by decide, by decide⟩,
    by decide, by decide, by decide, by decide⟩

/-- As `selected`, arming the SVR and the CMCI register, which is there (seven entries). -/
def armsCmci : State :=
  onCfg (fun cfg => { cfg with armWrites := [⟨cfg.off.svr, .svrEnable⟩, ⟨cfg.off.cmci, .masked 0#32 0x00010000#32⟩] }) selected

/-- InitCurrentCpuCompletes. -/
theorem test_hyps_InitCurrentCpuCompletes :
    CallerReady armsCmci ∧ armsCmci.block.enableType = .mmio ∧ armsCmci.caller < armsCmci.block.lapics.length ∧
    (armsCmci.block.lapic armsCmci.caller).inited = false ∧ armsCmci.block.cfg.mmioGenPresent = true ∧
    (coreParams armsCmci.block.cfg armsCmci.caller).lapicMapOk = true ∧
    (∀ a ∈ armsCmci.block.cfg.armWrites, ∃ r ∈ lapicRegs, a.off = lapicOffset armsCmci.block.cfg r ∧
      (r = .lvt .cmci → 7 ≤ countField (lapicVersionWord armsCmci.block.cfg armsCmci.caller))) := by decide

theorem test_arms_cmci_sound : ConfigSound armsCmci.block.cfg :=
  ⟨by decide, by decide, by decide, by decide, by decide, by decide, by decide, by decide, by decide, by decide⟩

/-- As `selected`, with no mapping granted. -/
def unmapped : State :=
  onCfg (fun cfg => { cfg with cores := cfg.cores.map fun p => { p with lapicMapOk := false, iorMapOk := false } }) selected

/-- FailedMappingIsUnsupportedConfiguration. -/
theorem test_hyps_FailedMappingIsUnsupportedConfiguration :
    CallerReady unmapped ∧ unmapped.block.enableType = .mmio ∧ (unmapped.block.lapic unmapped.caller).inited = false ∧
    unmapped.block.cfg.mmioGenPresent = true ∧ (coreParams unmapped.block.cfg unmapped.caller).lapicMapOk = false ∧
    unmapped.block.iorInited = false ∧ unmapped.block.iorRunner = none ∧
    (coreParams unmapped.block.cfg unmapped.caller).iorMapOk = false := by decide

/-- SendEoiRecordsTheEvent, VersionAndIdReads, MaskAllMasksEveryPresentRegister, WriteInterruptCommandDelivers: an
armed caller, with and without the CMCI register. -/
theorem test_hyps_local_controller :
    (CallerArmed ready ∧ ConfigSound ready.block.cfg) ∧ (CallerArmed sixEntries ∧ ConfigSound sixEntries.block.cfg) :=
  ⟨⟨test_ready_armed, test_ready_sound⟩, test_six_entries.1, test_six_entries.2.1⟩

/-- SetLvtStoresTheWord and the register statements: CMCI at exactly seven entries; the other kinds at six. -/
theorem test_hyps_SetLvtStoresTheWord :
    (CallerArmed ready ∧ ConfigSound ready.block.cfg ∧
      countField (lapicVersionWord ready.block.cfg ready.caller) = 7) ∧
    (CallerArmed sixEntries ∧ ConfigSound sixEntries.block.cfg ∧
      (Kind.error = .cmci → 7 ≤ countField (lapicVersionWord sixEntries.block.cfg sixEntries.caller))) :=
  ⟨⟨test_ready_armed, test_ready_sound, by decide⟩, test_six_entries.1, test_six_entries.2.1, by decide⟩

/-- V49's state: LINT1 holds a word that does not decode. -/
def badLint1 : State := onBlock (fun b => b.setLvt 0 .lint1 0x00000100#32) ready

/-- ReadLvtReturnsSupportedBits: a stored word that decodes, and one that does not (V49). -/
theorem test_hyps_ReadLvtReturnsSupportedBits :
    (CallerArmed ready ∧ ConfigSound ready.block.cfg ∧
      (⟨.lint1, ready.block.lvt ready.caller .lint1⟩ : Entry).wf = true) ∧
    (CallerArmed badLint1 ∧ ConfigSound badLint1.block.cfg ∧
      (⟨.lint1, badLint1.block.lvt badLint1.caller .lint1⟩ : Entry).wf = false) ∧
    (Kind.lint1, 0x0001A7FF#32) ∈ [(.cmci, 0x000107FF#32), (.timer, 0x000700FF#32), (.thermal, 0x000107FF#32),
      (.perfMon, 0x000107FF#32), (.lint0, 0x0001A7FF#32), (.lint1, 0x0001A7FF#32), (Kind.error, 0x000100FF#32)] :=
  ⟨⟨test_ready_armed, test_ready_sound, by decide⟩,
    ⟨⟨by decide, by decide, by decide, by decide⟩, test_ready_sound, by decide⟩, by decide⟩

/-- ReadLvtAfterSetLvt: the first operation completes. -/
theorem test_hyps_ReadLvtAfterSetLvt :
    CallerArmed ready ∧ ConfigSound ready.block.cfg ∧ (⟨.lint0, 0x0000A700#32⟩ : Entry).wf = true ∧
      ∃ t, exec (.setLvt ⟨.lint0, 0x0000A700#32⟩) ready = .next t :=
  ⟨test_ready_armed, test_ready_sound, by decide, _, rfl⟩

/-- As `sixEntries`, before the selection. -/
def sixUnselected : State := onBlock (fun b => { b with enableType := .unselected, facadeOnce := .notRun }) sixEntries

/-- AbsentCmciFaults: six entries; the primitives before the selection. -/
theorem test_hyps_AbsentCmciFaults :
    CallerArmed sixEntries ∧ ConfigSound sixEntries.block.cfg ∧
    countField (lapicVersionWord sixEntries.block.cfg sixEntries.caller) < 7 ∧
    Instr.readLvt .cmci ∈ [.setLvt ⟨.cmci, 0#32⟩, .readLvt .cmci] ∧
    CallerReady sixUnselected ∧ ConfigSound sixUnselected.block.cfg ∧
    countField (lapicVersionWord sixUnselected.block.cfg sixUnselected.caller) < 7 ∧
    Instr.lapicRead32 0x2F0#32 ∈
      [.lapicRead32 sixUnselected.block.cfg.off.cmci, .lapicWrite32 sixUnselected.block.cfg.off.cmci 0#32] :=
  ⟨test_six_entries.1, test_six_entries.2.1, by decide, by decide, by decide, test_six_entries.2.1, by decide, by decide⟩

/-- LapicRead32ReturnsEachRegister, LapicWrite32StoresEachRegister and IcrLowWriteIssuesTheCommand: right after reset, and
on a core that has issued a command. -/
theorem test_hyps_lapic_primitives :
    (CallerPresent State.reset ∧ ConfigSound State.reset.block.cfg ∧
      State.reset.block.commanded State.reset.caller = false) ∧
    (CallerPresent (onBlock (fun b => b.record (.deliver (.ipi 0) [1] 0#8 .init .edge)) ready) ∧
      (onBlock (fun b => b.record (.deliver (.ipi 0) [1] 0#8 .init .edge)) ready).block.commanded 0 = true) :=
  ⟨⟨⟨by decide, by decide⟩, test_ready_sound, by decide⟩, ⟨by decide, by decide⟩, by decide⟩

/-- IcrLowWriteIssuesTheCommand and LocalEventDelivers: words with a reserved and with an unreserved mode code. -/
theorem test_hyps_mode_codes :
    (0x00000300#32 : Word).extractLsb' 8 3 = 0b011#3 ∧ (0x00000700#32 : Word).extractLsb' 8 3 = 0b111#3 ∧
    (0x00000600#32 : Word).extractLsb' 8 3 = 0b110#3 := by decide

/-- InvariantsHoldAtReset has no hypotheses; the host's reset state is one of the states it speaks of. -/
theorem test_reset_is_a_power_on :
    State.reset = State.powerOn Config.reference { lapics := [], rtes := [], index := 0#8, drawCount := 0 } := rfl

/-- LapicAccessWithNoRegisterIsRefused: V76's offset; V78's. -/
theorem test_hyps_LapicAccessWithNoRegisterIsRefused :
    CallerReady ready ∧ ConfigSound ready.block.cfg ∧
    Instr.lapicRead32 0x321#32 ∈ [.lapicRead32 0x321#32, .lapicWrite32 0x321#32 0#32] ∧
    Instr.lapicRead32 0x400#32 ∈ [.lapicRead32 0x400#32, .lapicWrite32 0x400#32 0#32] ∧
    (0x321#32 : Word).toNat % 4 ≠ 0 ∧ (0x400#32 : Word).toNat % 4 = 0 ∧
    (∀ r ∈ lapicRegs, lapicOffset ready.block.cfg r ≠ 0x400#32) :=
  ⟨by decide, test_ready_sound, by decide, by decide, by decide, by decide, by decide⟩

/-- RouterOperationsWait: another core holds the lock; another core runs `ior_init`. -/
theorem test_hyps_RouterOperationsWait :
    (CallerReady (onBlock (fun b => { b with iorLock := .held 1 }) ready) ∧ needsInitedRouter (.vectorOf 0) = true ∧
      (onBlock (fun b => { b with iorLock := .held 1 }) ready).block.iorInited = true) ∧
    (CallerReady otherHolds ∧ otherHolds.block.iorInited = false ∧ otherHolds.block.iorRunner = some 1) := by decide

/-- InvalidLineFaults: N = 24; and N = 256 where 120 can be addressed. -/
theorem test_hyps_InvalidLineFaults :
    (RouterReady ready ∧ lineArgument (.disable 24) = some 24 ∧
      min (numLines ready.block.cfg) (linesAddressable ready.block.cfg) = 24) ∧
    (RouterReady manyLines ∧ lineArgument (.setVector 120 0#8) = some 120 ∧
      min (numLines manyLines.block.cfg) (linesAddressable manyLines.block.cfg) = 120) :=
  ⟨⟨test_ready_router, by decide, by decide⟩, ⟨by decide, by decide, by decide⟩, by decide, by decide⟩

/-- The router statements on a usable line: SupportedInterruptsReturnsN, IorReadRegReturnsEachRegister,
IorWriteRegStoresEachRegister, EnableUnmasksWithRecordedVector, DisableMasksUnderBothPolicies (both policies),
ConfigureForcesMaskOnInvalidVector, VectorOfReturnsTheStoredVector, SetVectorForcesMaskOnOldInvalidVector. -/
theorem test_hyps_router_line :
    (RouterReady ready ∧ ConfigSound ready.block.cfg ∧ LineUsable ready.block 23 ∧
      ready.block.cfg.disablePolicy = .preserve) ∧
    (RouterReady rewriting ∧ ConfigSound rewriting.block.cfg ∧ LineUsable rewriting.block 23 ∧
      rewriting.block.cfg.disablePolicy = .rewrite) :=
  ⟨⟨test_ready_router, test_ready_sound, test_ready_lines.2.1, by decide⟩,
    test_rewriting.1, test_rewriting.2.1, test_rewriting.2.2, by decide⟩

/-- UnmappedIndexIsRefused: V79's index, and the first one after line 23's high register. -/
theorem test_hyps_UnmappedIndexIsRefused :
    RouterReady ready ∧ Instr.iorReadReg 0x02#8 ∈ [.iorReadReg 0x02#8, .iorWriteReg 0x02#8 0#32] ∧
    (0x02#8 : Byte) ≠ ready.block.cfg.iorVerIndex ∧
    (∀ l, l < numLines ready.block.cfg → ready.block.cfg.iorRteBase.toNat + 2 * l ≠ (0x02#8 : Byte).toNat ∧
      ready.block.cfg.iorRteBase.toNat + 2 * l + 1 ≠ (0x02#8 : Byte).toNat) ∧
    (0x40#8 : Byte) ≠ ready.block.cfg.iorVerIndex ∧
    (∀ l, l < numLines ready.block.cfg → ready.block.cfg.iorRteBase.toNat + 2 * l ≠ (0x40#8 : Byte).toNat ∧
      ready.block.cfg.iorRteBase.toNat + 2 * l + 1 ≠ (0x40#8 : Byte).toNat) :=
  ⟨test_ready_router, by decide, by decide, by decide, by decide, by decide⟩

/-- DisableAllMasksEveryLine. -/
theorem test_hyps_DisableAllMasksEveryLine :
    RouterReady ready ∧ ConfigSound ready.block.cfg ∧ ready.block.rtes.length = numLines ready.block.cfg :=
  ⟨test_ready_router, test_ready_sound, by decide⟩

/-- V54's and V55's reset states. -/
def reset120 : State := resetWithLines 0x00770011#32
def reset121 : State := resetWithLines 0x00780011#32

/-- IorInitMasksEveryLine: 120 lines, the most that can be addressed (V54). -/
theorem test_hyps_IorInitMasksEveryLine :
    CallerReady reset120 ∧ ConfigSound reset120.block.cfg ∧ reset120.block.rtes.length = numLines reset120.block.cfg ∧
    reset120.block.iorInited = false ∧ reset120.block.iorRunner = none ∧ reset120.block.iorLock = .free ∧
    (coreParams reset120.block.cfg reset120.caller).iorMapOk = true ∧
    numLines reset120.block.cfg = linesAddressable reset120.block.cfg :=
  ⟨by decide,
    ⟨by decide, by decide, by decide, by decide, by decide, by decide, by decide, by decide, by decide, by decide⟩,
    by decide, by decide, by decide, by decide, by decide, by decide⟩

/-- UnaddressableLinesAreRefused: 121 lines, one too many (V55). -/
theorem test_hyps_UnaddressableLinesAreRefused :
    CallerReady reset121 ∧ reset121.block.iorInited = false ∧ reset121.block.iorRunner = none ∧
    reset121.block.iorLock = .free ∧ (coreParams reset121.block.cfg reset121.caller).iorMapOk = true ∧
    (256 - reset121.block.cfg.iorRteBase.toNat) / 2 + 1 = numLines reset121.block.cfg := by decide

/-- LocalEventDelivers: a masked and an unmasked source, CMCI at exactly seven entries. -/
theorem test_hyps_LocalEventDelivers :
    (withTurn (.localEvent 1 .cmci) ready).turns = [.localEvent 1 .cmci] ∧ 1 < ready.block.cfg.cores.length ∧
    7 ≤ countField (lapicVersionWord ready.block.cfg 1) ∧ (ready.block.lvt 1 .cmci).getLsbD 16 = false ∧
    ((ready.block.setLvt 1 .cmci 0x00010000#32).lvt 1 .cmci).getLsbD 16 = true := by decide

/-- LineAssertDelivers: the last line, masked and not. -/
theorem test_hyps_LineAssertDelivers :
    (withTurn (.lineAssert 23) ready).turns = [.lineAssert 23] ∧ 23 < numLines ready.block.cfg ∧
    (ready.block.rte 23).lo.getLsbD 16 = false ∧
    ((ready.block.setRte 23 ⟨0x00010000#32, 0#32⟩).rte 23).lo.getLsbD 16 = true := by decide

/-- As `ready`, the index register at the version register's number. -/
def atVersion : State := onBlock (fun b => { b with iorIndex := 0x01#8 }) ready

/-- RawWindowAccesses: an access of each clause, inside the windows, by an idle core whose turn it is. -/
theorem test_hyps_RawWindowAccesses :
    (accessState ⟨0xFEC00010, 4, none⟩ atVersion).turns = [.op 0] ∧
    (accessState ⟨0xFEC00010, 4, none⟩ atVersion).agents[0]? =
      some { status := .idle, program := [.access ⟨0xFEC00010, 4, none⟩], result := none } ∧
    accessesBlock atVersion.block.cfg ⟨0xFEE00321, 4, none⟩ = true ∧
    accessesBlock atVersion.block.cfg ⟨0xFEC00000, 1, some 0#32⟩ = true ∧
    accessesBlock atVersion.block.cfg ⟨0xFEC00000, 4, some 0x12345601#32⟩ = true ∧
    atVersion.block.cfg.iorBase + atVersion.block.cfg.iorRegSelOff.toNat = 0xFEC00000 ∧
    accessesBlock atVersion.block.cfg ⟨0xFEC00010, 4, none⟩ = true ∧
    atVersion.block.cfg.iorBase + atVersion.block.cfg.iorWinOff.toNat = 0xFEC00010 ∧
    atVersion.block.iorLock = .free ∧ atVersion.block.iorIndex = atVersion.block.cfg.iorVerIndex := by decide

/-- StepRunsTheDecodedOperation. -/
theorem test_hyps_StepRunsTheDecodedOperation :
    (State.reset.withFetchWord 8 0x10).turns = [.op 0] ∧
    (State.reset.withFetchWord 8 0x10).agents[0]? =
      some { status := .idle, program := [.op (tableBytes 8 0x10)], result := none } ∧
    decode (tableBytes 8 0x10) = .ok .facadeSelect := by decide

/-- FetchWordRunsTheOperation. -/
theorem test_hyps_FetchWordRunsTheOperation : CallerReady ready ∧ decodeTableWord 8 0x13 = some .sendEoi := by decide

/-- NoOperationTouchesAnotherController. -/
theorem test_hyps_NoOperationTouchesAnotherController :
    ∃ t, exec (.setLvt ⟨.timer, 0x00020030#32⟩) ready = .next t := ⟨_, rfl⟩

/-- OperationsStayInTheirUnit: an operation of the router, and another one. -/
theorem test_hyps_OperationsStayInTheirUnit :
    (needsInitedRouter (.configure 5 0x10#8 0x02#8 false true false false) = true ∧
      ∃ t, exec (.configure 5 0x10#8 0x02#8 false true false false) ready = .next t) ∧
    (needsInitedRouter .sendEoi = false ∧ Instr.sendEoi ≠ .iorInit ∧ ∃ t, exec .sendEoi ready = .next t) :=
  ⟨⟨by decide, _, rfl⟩, by decide, by decide, _, rfl⟩

/-- Core 0 has a recorded fault, core 1 a recorded refusal, and core 1's turn is next. -/
def bothStopped : State :=
  { ((ready.setStatus 0 (.faulted .invalidLine (.call (.vectorOf 24)))).setStatus 1
      (.refused .unmappedOffset (.call (.lapicRead32 0x400#32)))) with refusedMark := true, turns := [.op 1] }

/-- NoStepErasesARecord. -/
theorem test_hyps_NoStepErasesARecord :
    (∃ t, step bothStopped = .next t) ∧
    bothStopped.status 0 = some (.faulted .invalidLine (.call (.vectorOf 24))) ∧
    bothStopped.status 1 = some (.refused .unmappedOffset (.call (.lapicRead32 0x400#32))) ∧
    bothStopped.refusedMark = true := ⟨⟨_, rfl⟩, by decide, by decide, by decide⟩

/-- `otherHolds`, core 0's turn next, and a line operation its next request. -/
def waiting : State :=
  { otherHolds with
    agents := otherHolds.agents.modify 0 fun a => { a with program := [.op (tableBytes 8 0x22)] }
    turns := [.op 0] }

theorem test_waiting_running : waiting.status 1 =
    some (.running (.call .iorInit) 0#32 [.dataRead, .unlock, .iorDone] (.const .unit)) := by decide

theorem test_waiting_status (c : CoreId) (work : Work) (w : Word) (rest : List Micro) (ret : Ret)
    (h : waiting.status c = some (.running work w rest ret)) : c = 1 ∧ rest = [.dataRead, .unlock, .iorDone] := by
  match c with
  | 0 => exact absurd h (by simp [show waiting.status 0 = some .idle by decide])
  | 1 =>
    rw [test_waiting_running] at h
    cases h
    exact ⟨rfl, rfl⟩
  | n + 2 => cases h

/-- StepKeepsLockDiscipline, LockHolderIsAloneAtTheRouter: core 1 holds the lock inside its operation. -/
theorem test_hyps_LockHolderIsAloneAtTheRouter :
    LockDiscipline waiting ∧ waiting.block.iorLock = .held 1 ∧ waiting.turns = [.op 0] ∧ ∃ t, step waiting = .next t := by
  refine ⟨⟨fun c h => ?_, fun c work w rest ret h => ?_⟩, by decide, by decide, _, rfl⟩
  · cases h
    exact ⟨_, _, _, _, test_waiting_running⟩
  · obtain ⟨rfl, rfl⟩ := test_waiting_status c work w rest ret h
    decide

/-- StepKeepsShape. -/
theorem test_hyps_StepKeepsShape : Shaped waiting ∧ ∃ t, step waiting = .next t :=
  ⟨⟨by decide, by decide, by decide⟩, _, rfl⟩

/-- StepKeepsSelection, OneTimeFlagsNeverTransitionBack: selected, initialized, with an operation under way. -/
theorem test_hyps_StepKeepsSelection :
    Selection waiting ∧ waiting.block.enableType = .mmio ∧ (waiting.block.lapic 0).inited = true ∧
      ∃ t, step waiting = .next t := by
  refine ⟨⟨by decide, fun c _ => by decide, fun c work w rest ret h => ?_⟩, by decide, by decide, _, rfl⟩
  obtain ⟨rfl, rfl⟩ := test_waiting_status c work w rest ret h
  decide

/-- Core 1 is at the last line of its `ior_init`, the lines before it masked, and has the next turn. -/
def midInit : State :=
  { (onBlock (fun b => { b with
      iorLock := .held 1, iorRunner := some 1, iorInited := false, iorIndex := 0x3E#8
      rtes := List.replicate 23 ⟨0x00010000#32, 0#32⟩ ++ [default] }) ready).setStatus 1
      (.running (.call .iorInit) 0#32 [.dataRead, .indexWrite 0x3E#8, .dataWrite .setMaskBit, .unlock, .iorDone]
        (.const .unit)) with
    turns := [.op 1] }

theorem test_mid_init_status (c : CoreId) (work : Work) (w : Word) (rest : List Micro) (ret : Ret)
    (h : midInit.status c = some (.running work w rest ret)) :
    c = 1 ∧ w = 0#32 ∧ rest = [.dataRead, .indexWrite 0x3E#8, .dataWrite .setMaskBit, .unlock, .iorDone] := by
  match c with
  | 0 => exact absurd h (by simp [show midInit.status 0 = some .idle by decide])
  | 1 => cases h; exact ⟨rfl, rfl, rfl⟩
  | n + 2 => cases h

/-- StepKeepsSelection, third invariant: within an `ior_init`, no line written by anyone else. -/
theorem test_hyps_StepKeepsSelection_masks :
    ConfigSound midInit.block.cfg ∧ Shaped midInit ∧ LockDiscipline midInit ∧ MaskDiscipline [] midInit ∧
      WithinOperations midInit ∧ ∃ t, step midInit = .next t := by
  refine ⟨test_ready_sound, ⟨by decide, by decide, by decide⟩, ⟨fun c h => ?_, fun c work w rest ret h => ?_⟩,
    ⟨fun h => ?_, fun c h => ?_, fun c work w rest ret h hn => ?_,
      fun c work w rest ret h => ?_⟩, fun work h => ?_, _, rfl⟩
  · cases h
    exact ⟨_, _, _, _, rfl⟩
  · obtain ⟨rfl, -, rfl⟩ := test_mid_init_status c work w rest ret h
    decide
  · exact absurd h (by decide)
  · cases h
    exact ⟨by decide, _, _, _, _, rfl, by decide⟩
  · obtain ⟨rfl, -, -⟩ := test_mid_init_status c work w rest ret h
    exact absurd rfl hn
  · obtain ⟨rfl, -, rfl⟩ := test_mid_init_status c work w rest ret h
    cases h
    decide
  · cases h
    rfl

/-- After `ior_init`, with every line masked but line 5. -/
def afterInitBlock : Block := { ready.block with rtes := (List.replicate 24 ⟨0x00010000#32, 0#32⟩).set 5 default }

/-- As `afterInitBlock`, and core 0's turn: its next request is the given one. -/
def afterInit (r : Request) : State :=
  { ready with
    block := afterInitBlock
    agents := ready.agents.modify 0 fun a => { a with program := [r] }
    turns := [.op 0] }

/-- StepKeepsSelection, third invariant: line 5 written since, and a line operation next. -/
theorem test_hyps_StepKeepsSelection_written (r : Request) : MaskDiscipline [5] (afterInit r) := by
  have masked : ∀ l, l < numLines afterInitBlock.cfg → l ∉ [5] → (afterInitBlock.rte l).lo.getLsbD 16 = true := by
    decide
  refine ⟨fun _ => masked, fun c h => by (cases h), fun c work w rest ret h => ?_, fun c work w rest ret h => ?_⟩
  all_goals
    match c with
    | 0 => cases h
    | 1 => cases h
    | n + 2 => cases h

/-- R36, R230: the line an `enable` writes counts; that of a direct `ior_write_reg` is written outside the operations R36
names. -/
theorem test_lines_that_count :
    operationWrites (afterInit (.op (encode (.enable 7 0x01#8)))) = [7] ∧
    WithinOperations (afterInit (.op (encode (.enable 7 0x01#8)))) ∧
    stepWrites (afterInit (.op (encode (.iorWriteReg 0x1E#8 0#32)))) = [7] ∧
    operationWrites (afterInit (.op (encode (.iorWriteReg 0x1E#8 0#32)))) = [] ∧
    ¬ WithinOperations (afterInit (.op (encode (.iorWriteReg 0x1E#8 0#32)))) ∧
    ¬ WithinOperations (afterInit (.access ⟨0xFEC00010, 4, some 0#32⟩)) := by
  refine ⟨by decide, fun work h => ?_, by decide, by decide, fun h => ?_, fun h => ?_⟩
  · rw [show (afterInit (.op (encode (.enable 7 0x01#8)))).turnWork = some (.call (.enable 7 0x01#8)) by decide] at h
    cases h
    rfl
  · exact absurd (h (.call (.iorWriteReg 0x1E#8 0#32)) (by decide)) (by decide)
  · exact absurd (h (.access ⟨0xFEC00010, 4, some 0#32⟩) (by decide)) (by decide)

end Sys2Proof.Tests
end

section
/-! PROOFS. What a step runs (spec/10_state.md R20, R71), and where an operation faults at once. -/

namespace Sys2Proof.Machine

/-! ### What a step runs -/

/-- A turn of an idle core with a request that decodes performs that operation, the turn and the request taken. -/
theorem step_of_idle_request {s : State} {c : CoreId} {ts : List Turn} {a : Agent} {bytes : List Byte}
    {more : List Request} {i : Instr} (hturn : s.turns = .op c :: ts) (hag : s.agents[c]? = some a)
    (hidle : a.status = .idle) (hprog : a.program = .op bytes :: more) (hd : decode bytes = .ok i) :
    step s = exec i ({ s with turns := ts }.fetched c more) := by
  simp only [step, nextTurn, hturn, takeTurn, opTurn, hag, hidle, hprog, performRequest, hd]

/-- Taking the request that was just placed gives back the agents there were. -/
theorem fetched_withRequest (s : State) (bytes : List Byte) {a : Agent} (hag : s.agents[s.caller]? = some a) :
    ({ s.withRequest bytes with turns := s.turns } : State).fetched s.caller a.program = s := by
  have hagents : ((s.withRequest bytes).agents.modify s.caller fun x => { x with program := a.program }) =
      s.agents := by
    apply List.ext_getElem?
    intro c
    by_cases hc : c = s.caller
    · subst hc
      simp [State.withRequest, hag]
    · simp [State.withRequest, Ne.symm hc]
  simp only [State.fetched, hagents]
  rfl

theorem decode_of_decodeTableWord {nbits w : Nat} {i : Instr} (h : decodeTableWord nbits w = some i) :
    decode (tableBytes nbits w) = .ok i := by
  unfold decodeTableWord at h
  split at h <;> cases h
  assumption

/-- A status is that of an agent. -/
theorem agent_of_status {s : State} {c : CoreId} {st : Status} (h : s.status c = some st) :
    ∃ a, s.agents[c]? = some a ∧ a.status = st :=
  Option.map_eq_some_iff.mp h

/-! ### Operations that fault -/

theorem runBody_fault {c : CoreId} {m : Micro} {w : Word} {b : Block} {r : FaultReason}
    (h : microStep c m w b = .fault r) (ms : List Micro) : runBody c (m :: ms) w b = .fault r (b.release c) := by
  rw [runBody_cons, h]

/-- A ready caller whose actions end in a fault has that fault recorded. -/
theorem exec_of_fault {s : State} (hr : CallerReady s) {i : Instr} {r : FaultReason} {b : Block}
    (h : runBody s.caller (progOf s.block.cfg s.caller i).body 0#32 s.block = .fault r b) :
    exec i s = .next (s.recordFault s.caller r (.call i) b) := by
  rw [exec_ready hr, h]
  rfl

/-- A controller with fewer than seven entries has no CMCI register (R27). -/
theorem lvtPresent_cmci_of_lt {cfg : Config} {c : CoreId} (h : countField (lapicVersionWord cfg c) < 7) :
    lvtPresent cfg c .cmci = false := by
  simp [lvtPresent, h]

theorem microStep_requireLvt_absent {c : CoreId} {k : Kind} {b : Block} (h : lvtPresent b.cfg c k = false) (w : Word) :
    microStep c (.requireLvt k) w b = .fault .absentRegister := by
  simp [microStep, checkOr, h]

theorem microStep_lapicRead_absent {c : CoreId} {k : Kind} {b : Block} (hs : ConfigSound b.cfg)
    (h : lvtPresent b.cfg c k = false) (w : Word) :
    microStep c (.lapicRead (lvtOffset b.cfg k)) w b = .fault .absentRegister := by
  have hread := microStep_lapicRead hs c (.lvt k) w
  simpa [readLapicReg, h] using hread

theorem microStep_lapicWrite_absent {c : CoreId} {k : Kind} {b : Block} (hs : ConfigSound b.cfg)
    (h : lvtPresent b.cfg c k = false) (src : Src) (w : Word) :
    microStep c (.lapicWrite (lvtOffset b.cfg k) src) w b = .fault .absentRegister := by
  have hwrite := microStep_lapicWrite hs c (.lvt k) src w
  simpa [writeLapicReg, h, Res.keeping] using hwrite

/-- An interface operation of an armed caller that first requires an absent register. -/
theorem exec_requireLvt_absent {s : State} (ha : CallerArmed s) {i : Instr} {k : Kind} {ms : List Micro}
    (hbody : (progOf s.block.cfg s.caller i).body = .dispatch :: .requireInited :: .requireLvt k :: ms)
    (h : lvtPresent s.block.cfg s.caller k = false) :
    exec i s = .next (s.recordFault s.caller .absentRegister (.call i) (s.block.release s.caller)) := by
  refine exec_of_fault ha.1 ?_
  rw [hbody, runBody_lmi ha]
  exact runBody_fault (microStep_requireLvt_absent h _) _

end Sys2Proof.Machine

open Sys2Proof Sys2Proof.Machine

/-- Settles O48, by running the schedule's one turn. -/
theorem stepRunsTheDecodedOperation : Obligations.StepRunsTheDecodedOperation :=
  fun _ _ _ _ _ _ _ hturn hag hidle hprog hd => step_of_idle_request hturn hag hidle hprog hd

/-- Settles O49: taking the placed request leaves the state before the placement. -/
theorem fetchWordRunsTheOperation : Obligations.FetchWordRunsTheOperation := by
  intro s nbits w i hready hdec
  obtain ⟨a, hag, hidle⟩ := agent_of_status hready
  have hplaced : (s.withFetchWord nbits w).agents[s.caller]? =
      some { a with program := .op (tableBytes nbits w) :: a.program } := by
    simp [State.withFetchWord, State.withRequest, hag]
  rw [step_of_idle_request rfl hplaced hidle rfl (decode_of_decodeTableWord hdec)]
  exact congrArg (exec i) (fetched_withRequest s (tableBytes nbits w) hag)

/-- Settles O24: the check of R192 and R193 faults before the access, and the bare access itself does. -/
theorem absentCmciFaults : Obligations.AbsentCmciFaults := by
  intro s e v i hs hkind hlt hcase
  have habs := lvtPresent_cmci_of_lt hlt
  rcases hcase with ⟨ha, hi⟩ | ⟨hr, hi⟩
  · rcases List.mem_pair.mp hi with rfl | rfl
    · exact exec_requireLvt_absent ha rfl (by rw [hkind]; exact habs)
    · exact exec_requireLvt_absent ha rfl habs
  · rcases List.mem_pair.mp hi with rfl | rfl
    · exact exec_of_fault hr (runBody_fault (microStep_lapicRead_absent hs habs _) _)
    · exact exec_of_fault hr (runBody_fault (microStep_lapicWrite_absent hs habs _ _) _)

/-- Settles O51, from the frame of a run of actions. -/
theorem noOperationTouchesAnotherController : Obligations.NoOperationTouchesAnotherController := by
  intro s t i h
  obtain ⟨-, rfl⟩ := exec_next h
  have hk := runBody_keeps s.caller (progOf s.block.cfg s.caller i).body 0#32 s.block
  rw [settle_block]
  exact ⟨hk.others, hk.cfg⟩
end

section
/-! PROOFS. What every step keeps: the shape, the flags, and the invariants at reset. -/

namespace Sys2Proof.Machine

/-- No step makes or removes an agent. -/
theorem StepCase.agents_length {s t : State} (h : StepCase s t) : t.agents.length = s.agents.length := by
  cases h with
  | nothing ht => rw [ht.2.1]
  | localEvent c k ht => rw [ht.2.1]
  | lineAssert l ht => rw [ht.2.1]
  | begun c s' work p hturn hidle hb hst hm hlen hp ht =>
    rcases ht with ⟨rfl, -⟩ | rfl <;> rw [settle_agents_length, hlen]
  | continued c s' work w rest ret hturn hrun hb hst hm hlen ht =>
    rcases ht with ⟨rfl, -⟩ | ⟨rfl, -⟩ <;> rw [settle_agents_length, hlen]

/-- Under the selection invariant no action of any core changes a selection made (R21). -/
theorem Keeps.enableType_of_selected {c : CoreId} {b b' : Block} (h : Keeps c b b')
    (hiff : b.enableType ≠ .unselected ↔ b.facadeOnce = .completed) (hsel : b.enableType ≠ .unselected) :
    b'.enableType = b.enableType :=
  h.enableType (hiff.mp hsel)

/-! ### Reset -/

section Reset

variable (cfg : Config) (u : PowerOn)

/-- No core is initialized after reset (R320), one that does not exist included. -/
theorem powerOn_inited (c : CoreId) : ((Block.powerOn cfg u).lapic c).inited = false := by
  by_cases hc : c < cfg.cores.length
  · simp [Block.powerOn, Block.lapic, Lapic.powerOn, List.getD_eq_getElem?_getD, hc]
  · have hlen : (Block.powerOn cfg u).lapics.length ≤ c := by simpa [Block.powerOn] using hc
    rw [Block.lapic, List.getD_eq_getElem?_getD, List.getElem?_eq_none hlen]
    rfl

/-- No core is inside an operation after reset (R321). -/
theorem powerOn_not_running {c : CoreId} {work : Work} {w : Word} {rest : List Micro} {ret : Ret} :
    (State.powerOn cfg u).status c ≠ some (.running work w rest ret) := by
  intro h
  obtain ⟨a, hag, hst⟩ := agent_of_status h
  have hmem := List.mem_of_getElem? hag
  obtain ⟨-, -, rfl⟩ := List.mem_map.mp hmem
  cases hst

theorem shaped_powerOn : Shaped (State.powerOn cfg u) := by
  constructor <;> simp [State.powerOn, Block.powerOn]

theorem selection_powerOn : Selection (State.powerOn cfg u) where
  selected_iff_completed := by simp [State.powerOn, Block.powerOn]
  inited_selected c h := absurd ((powerOn_inited cfg u c).symm.trans h) Bool.false_ne_true
  pending_selected _ _ _ _ _ h := absurd h (powerOn_not_running cfg u)

theorem lockDiscipline_powerOn : LockDiscipline (State.powerOn cfg u) where
  holder_running _ h := LockState.noConfusion h
  running_shaped _ _ _ _ _ h := absurd h (powerOn_not_running cfg u)

theorem maskDiscipline_powerOn : MaskDiscipline [] (State.powerOn cfg u) where
  untouched_masked h := absurd h Bool.false_ne_true
  runner_masks _ h := by cases h
  others_begin _ _ _ _ _ h := absurd h (powerOn_not_running cfg u)
  underway _ _ _ _ _ h := absurd h (powerOn_not_running cfg u)

end Reset

end Sys2Proof.Machine

open Sys2Proof Sys2Proof.Machine

/-- Settles O55, from what every step keeps. -/
theorem stepKeepsShape : Obligations.StepKeepsShape := by
  intro s t hs h
  have hcase := step_cases h
  obtain ⟨c, hk⟩ := hcase.keeps
  exact {
    agents_length := by rw [hcase.agents_length, hk.cfg, hs.agents_length]
    lapics_length := by rw [hk.others.1, hk.cfg, hs.lapics_length]
    rtes_length := by rw [hk.rtes_length, hk.cfg, hs.rtes_length] }

/-- Settles O54, from what every step keeps. -/
theorem oneTimeFlagsNeverTransitionBack : Obligations.OneTimeFlagsNeverTransitionBack := by
  intro s t hs h
  obtain ⟨c, hk⟩ := (step_cases h).keeps
  exact ⟨hk.enableType_of_selected hs.selected_iff_completed, hk.facadeOnce, hk.inited, hk.iorInited⟩

/-- Settles O58: after reset no flag is set, no lock held and no core inside an operation. -/
theorem invariantsHoldAtReset : Obligations.InvariantsHoldAtReset :=
  fun cfg u => ⟨shaped_powerOn cfg u, selection_powerOn cfg u, lockDiscipline_powerOn cfg u,
    maskDiscipline_powerOn cfg u⟩
end

section
/-! PROOFS. What one action does to the flags of spec/10_state.md R21 to R23 and to the device lock (R33, R72), and what is
left of an operation where a run of it ends. -/

namespace Sys2Proof.Machine

/-! ### Raw accesses -/

/-- What a raw access that is performed comes to (R61, R62): one access of the local-controller window, or, with no other
core at the lock, one of the router's two registers. -/
theorem rawAccess_cases {c : CoreId} {a : Access} {b b' : Block} {w : Word} (h : rawAccess c a b = .ok w b') :
    (∃ off v u, lapicWrite32 c off v b = .ok u b') ∨ (∃ off, lapicRead32 c off b = .ok w b') ∨
      b.lockedOut c = false ∧
        ((∃ v, b' = indexWrite v b) ∨ b' = b.drew ∨ (∃ v u, dataWrite v b = .ok u b') ∨ dataRead b = .ok w b') := by
  unfold rawAccess iorWindowAccess at h
  split at h
  · cases h
  split at h
  · dsimp only at h
    split at h
    · obtain ⟨-, u, hw⟩ := keeping_ok h; exact .inl ⟨_, _, u, hw⟩
    · exact .inr (.inl ⟨_, h⟩)
  split at h
  · split at h
    · cases h
    rename_i hlock
    refine .inr (.inr ⟨by simpa using hlock, ?_⟩)
    split at h
    · split at h
      · cases h; exact .inl ⟨_, rfl⟩
      · cases h; exact .inr (.inl rfl)
    split at h
    · split at h
      · obtain ⟨-, u, hw⟩ := keeping_ok h; exact .inr (.inr (.inl ⟨_, u, hw⟩))
      · exact .inr (.inr (.inr h))
    · cases h
  · cases h

/-! ### The flags of the Facade and of the controllers -/

/-- The Enable-Type flag, the Facade once-state and every core's init flag are the same. -/
structure FlagsSame (b b' : Block) : Prop where
  enableType : b'.enableType = b.enableType
  facadeOnce : b'.facadeOnce = b.facadeOnce
  inited : ∀ c, (b'.lapic c).inited = (b.lapic c).inited

theorem FlagsSame.refl (b : Block) : FlagsSame b b := ⟨rfl, rfl, fun _ => rfl⟩

theorem FlagsSame.of_lapics {b b' : Block} (he : b'.enableType = b.enableType) (hf : b'.facadeOnce = b.facadeOnce)
    (hl : b'.lapics = b.lapics) : FlagsSame b b' :=
  ⟨he, hf, fun c => by rw [Block.lapic, hl]; rfl⟩

/-- A change of a controller that leaves its init flag. -/
theorem flagsSame_setLapic (b : Block) (c : CoreId) {l : Lapic} (hl : l.inited = (b.lapic c).inited) :
    FlagsSame b (b.setLapic c l) where
  enableType := rfl
  facadeOnce := rfl
  inited c' := by
    by_cases hc : c = c'
    · subst hc
      by_cases hlt : c < b.lapics.length
      · rw [lapic_setLapic b l hlt, hl]
      · rw [Block.setLapic, List.set_eq_of_length_le (Nat.le_of_not_lt hlt)]
    · rw [lapic_setLapic_other b l hc]

theorem flagsSame_issueCommand (c : CoreId) (lo : Word) (b : Block) : FlagsSame b (b.issueCommand c lo) := by
  obtain ⟨he, hf, hi⟩ := flagsSame_setLapic b c (l := { b.lapic c with icrLo := lo }) rfl
  unfold Block.issueCommand Block.ipiMode
  dsimp only
  split <;> exact ⟨by simp, by simp, fun c' => by simpa [Block.lapic] using hi c'⟩

theorem lapicRead32_flags {c : CoreId} {off : Word} {b b' : Block} {w : Word} (h : lapicRead32 c off b = .ok w b') :
    FlagsSame b b' := by
  unfold lapicRead32 at h
  split at h
  · rename_i r _
    cases r <;> simp only [readLapicReg] at h
    case lvt k => split at h <;> cases h; exact .of_lapics rfl rfl rfl
    all_goals cases h; exact .of_lapics rfl rfl rfl
  · cases h

theorem lapicWrite32_flags {c : CoreId} {off v : Word} {b b' : Block} {u : Unit}
    (h : lapicWrite32 c off v b = .ok u b') : FlagsSame b b' := by
  unfold lapicWrite32 at h
  split at h
  · rename_i r _
    cases r <;> simp only [writeLapicReg] at h
    case lvt k => split at h <;> cases h; exact flagsSame_setLapic b c rfl
    case icrLo => cases h; exact flagsSame_issueCommand c v b
    case svr => cases h; exact flagsSame_setLapic b c rfl
    case icrHi => cases h; exact flagsSame_setLapic b c rfl
    all_goals cases h; exact .of_lapics rfl rfl rfl
  · cases h

theorem dataRead_flags {b b' : Block} {w : Word} (h : dataRead b = .ok w b') : FlagsSame b b' := by
  unfold dataRead at h
  split at h <;> cases h <;> exact .of_lapics rfl rfl rfl

theorem dataWrite_flags {v : Word} {b b' : Block} {u : Unit} (h : dataWrite v b = .ok u b') : FlagsSame b b' := by
  unfold dataWrite at h
  split at h <;> cases h <;> exact .of_lapics rfl rfl rfl

theorem rawAccess_flags {c : CoreId} {a : Access} {b b' : Block} {w : Word} (h : rawAccess c a b = .ok w b') :
    FlagsSame b b' := by
  rcases rawAccess_cases h with ⟨_, _, _, hw⟩ | ⟨_, hr⟩ | ⟨-, ⟨_, rfl⟩ | rfl | ⟨_, _, hw⟩ | hr⟩
  · exact lapicWrite32_flags hw
  · exact lapicRead32_flags hr
  · exact .of_lapics rfl rfl rfl
  · exact .of_lapics rfl rfl rfl
  · exact dataWrite_flags hw
  · exact dataRead_flags hr

/-- Only `facade_select` and the end of an `init_current_cpu` touch the flags (R180, R186). -/
theorem microStep_flags {c : CoreId} {m : Micro} {w w' : Word} {b b' : Block} (h : microStep c m w b = .ok w' b')
    (hs : m ≠ .facadeSelect) (hi : m ≠ .markInited) : FlagsSame b b' := by
  cases m <;> simp only [microStep] at h
  case facadeSelect => exact absurd rfl hs
  case markInited => exact absurd rfl hi
  case dispatch => obtain ⟨-, -, rfl⟩ := dispatchTo_ok h; exact .refl _
  case lapicRead => exact lapicRead32_flags h
  case lapicWrite => obtain ⟨-, _, hw⟩ := keeping_ok h; exact lapicWrite32_flags hw
  case iorOnce => obtain ⟨-, -, -, rfl⟩ := iorOnce_ok h; exact .of_lapics rfl rfl rfl
  case requireAddressable => split at h <;> cases h; exact .refl _
  case iorDone => cases h; exact .of_lapics rfl rfl rfl
  case lock => obtain ⟨-, -, rfl⟩ := lockIor_ok h; exact .of_lapics rfl rfl rfl
  case unlock => cases h; exact .of_lapics rfl rfl rfl
  case indexWrite => cases h; exact .of_lapics rfl rfl rfl
  case dataRead => exact dataRead_flags h
  case dataWrite => obtain ⟨-, _, hw⟩ := keeping_ok h; exact dataWrite_flags hw
  case access => exact rawAccess_flags h
  all_goals obtain ⟨-, -, rfl⟩ := checkOr_ok h; exact .refl _

/-! ### The device lock -/

/-- The index register, the entries and the lock are the same. -/
structure UnderLockSame (b b' : Block) : Prop where
  iorIndex : b'.iorIndex = b.iorIndex
  rtes : b'.rtes = b.rtes
  iorLock : b'.iorLock = b.iorLock

theorem UnderLockSame.refl (b : Block) : UnderLockSame b b := ⟨rfl, rfl, rfl⟩

theorem RouterSame.underLock {b b' : Block} (h : RouterSame b b') : UnderLockSame b b' := by
  obtain ⟨-, -, hindex, hrtes, hlock⟩ := h
  exact ⟨hindex, hrtes, hlock⟩

/-- A raw access leaves the lock, and where another core holds it all the router as well (R72; log entry 11). -/
theorem rawAccess_lock {c : CoreId} {a : Access} {b b' : Block} {w : Word} (h : rawAccess c a b = .ok w b') :
    b'.iorLock = b.iorLock ∧ (b.lockedOut c = true → UnderLockSame b b') := by
  refine ⟨(rawAccess_router h).iorLock, fun hout => ?_⟩
  rcases rawAccess_cases h with ⟨_, _, _, hw⟩ | ⟨_, hr⟩ | ⟨hin, -⟩
  · exact (lapicWrite32_router hw).underLock
  · exact (lapicRead32_router hr).underLock
  · exact absurd (hin.symm.trans hout) Bool.false_ne_true

/-- What an action other than `lock` and `unlock` does to the lock, by its role: it leaves it, and it leaves the index
register and the entries too unless it is one made under the lock, or a raw access with no other core at the lock. -/
theorem microStep_lock {c : CoreId} {m : Micro} {w w' : Word} {b b' : Block} (h : microStep c m w b = .ok w' b')
    (hl : m ≠ .lock) (hu : m ≠ .unlock) :
    b'.iorLock = b.iorLock ∧ (lockRole m ≠ .under → b.lockedOut c = true ∨ lockRole m ≠ .outside →
      UnderLockSame b b') := by
  have same : UnderLockSame b b' → b'.iorLock = b.iorLock ∧ (lockRole m ≠ .under →
      b.lockedOut c = true ∨ lockRole m ≠ .outside → UnderLockSame b b') := fun hs => ⟨hs.iorLock, fun _ _ => hs⟩
  cases m <;> simp only [microStep] at h
  case lock => exact absurd rfl hl
  case unlock => exact absurd rfl hu
  case dispatch => obtain ⟨-, -, rfl⟩ := dispatchTo_ok h; exact same (.refl _)
  case facadeSelect => obtain ⟨-, -, rfl | rfl⟩ := facadeSelect_ok h <;> exact same ⟨rfl, rfl, rfl⟩
  case markInited => cases h; exact same ⟨rfl, rfl, rfl⟩
  case lapicRead => exact same (lapicRead32_router h).underLock
  case lapicWrite => obtain ⟨-, _, hw⟩ := keeping_ok h; exact same (lapicWrite32_router hw).underLock
  case iorOnce => obtain ⟨-, -, -, rfl⟩ := iorOnce_ok h; exact same ⟨rfl, rfl, rfl⟩
  case requireAddressable => split at h <;> cases h; exact same (.refl _)
  case iorDone => cases h; exact same ⟨rfl, rfl, rfl⟩
  case indexWrite => cases h; exact ⟨rfl, fun hr => absurd rfl hr⟩
  case dataRead => exact same (dataRead_router h).1.underLock
  case dataWrite =>
    obtain ⟨-, _, hw⟩ := keeping_ok h
    exact ⟨(dataWrite_router hw).1.iorLock, fun hr => absurd rfl hr⟩
  case access => exact ⟨(rawAccess_lock h).1, fun _ ho => (rawAccess_lock h).2 (ho.resolve_right fun hr => hr rfl)⟩
  all_goals obtain ⟨-, -, rfl⟩ := checkOr_ok h; exact same (.refl _)

theorem lockShape_lock (inside : Bool) (ms : List Micro) :
    lockShape inside (.lock :: ms) = (!inside && lockShape true ms) := rfl

theorem lockShape_unlock (inside : Bool) (ms : List Micro) :
    lockShape inside (.unlock :: ms) = (inside && lockShape false ms) := rfl

/-- An action made under the lock comes where the lock is held. -/
theorem lockShape_under {inside : Bool} {m : Micro} {ms : List Micro} (h : lockShape inside (m :: ms) = true)
    (hm : lockRole m = .under) : inside = true := by
  rw [lockShape, hm, Bool.and_eq_true] at h
  exact h.1

theorem lockRole_takes_iff {m : Micro} : lockRole m = .takes ↔ m = .lock := by cases m <;> simp [lockRole]

theorem lockRole_releases_iff {m : Micro} : lockRole m = .releases ↔ m = .unlock := by cases m <;> simp [lockRole]

theorem lockShape_tail {inside : Bool} {m : Micro} {ms : List Micro} (h : lockShape inside (m :: ms) = true)
    (hl : m ≠ .lock) (hu : m ≠ .unlock) : lockShape inside ms = true := by
  rw [lockShape] at h
  cases hm : lockRole m <;> rw [hm] at h
  case takes => exact absurd (lockRole_takes_iff.mp hm) hl
  case releases => exact absurd (lockRole_releases_iff.mp hm) hu
  case neutral => exact h
  all_goals exact (Bool.and_eq_true _ _ ▸ h).2

/-- What is left of an operation goes on in the shape of R72. -/
theorem microStep_lockShape {c : CoreId} {m : Micro} {ms : List Micro} {w w' : Word} {b b' : Block}
    (h : microStep c m w b = .ok w' b') (hs : lockShape (decide (b.iorLock = .held c)) (m :: ms) = true) :
    lockShape (decide (b'.iorLock = .held c)) ms = true := by
  by_cases hl : m = .lock
  · subst hl
    obtain ⟨-, -, rfl⟩ := lockIor_ok h
    rw [lockShape_lock, Bool.and_eq_true] at hs
    simpa using hs.2
  by_cases hu : m = .unlock
  · subst hu
    cases h
    rw [lockShape_unlock, Bool.and_eq_true] at hs
    simpa using hs.2
  · rw [(microStep_lock h hl hu).1]
    exact lockShape_tail hs hl hu

/-- What another core knows of the index register, under the lock or not, an action of core c leaves (R72). -/
theorem microStep_indexFor {c d : CoreId} {m : Micro} {ms : List Micro} {w w' : Word} {b b' : Block}
    (h : microStep c m w b = .ok w' b') (hs : lockShape (decide (b.iorLock = .held c)) (m :: ms) = true) (hd : d ≠ c) :
    b'.indexFor d = b.indexFor d := by
  by_cases hl : m = .lock
  · subst hl
    obtain ⟨-, hfree, rfl⟩ := lockIor_ok h
    simp [Block.indexFor, hfree, Ne.symm hd]
  by_cases hu : m = .unlock
  · subst hu
    cases h
    rw [lockShape_unlock, Bool.and_eq_true, decide_eq_true_eq] at hs
    simp [Block.indexFor, hs.1, Ne.symm hd]
  · obtain ⟨hlock, hsame⟩ := microStep_lock h hl hu
    by_cases hheld : b.iorLock = .held d
    · have hout : b.lockedOut c = true := by simp [Block.lockedOut, hheld, hd]
      have hnot : lockRole m ≠ .under := fun hm => by
        have hc := of_decide_eq_true (lockShape_under hs hm)
        rw [hheld, LockState.held.injEq] at hc
        exact hd hc
      simp only [Block.indexFor, hlock, (hsame hnot (.inl hout)).iorIndex]
    · simp [Block.indexFor, hlock, hheld]

/-! ### The shape of every operation -/

theorem lockShape_of_neutral {ms : List Micro} (h : ∀ m ∈ ms, lockRole m = .neutral) (inside : Bool) (ms' : List Micro) :
    lockShape inside (ms ++ ms') = lockShape inside ms' := by
  induction ms with
  | nil => rfl
  | cons m ms ih =>
    rw [List.cons_append, lockShape, h m (List.mem_cons_self ..)]
    exact ih fun m' hm' => h m' (List.mem_cons_of_mem _ hm')

theorem lockShape_disableBody (cfg : Config) (l : Nat) (ms : List Micro) :
    lockShape true (disableBody cfg l ++ ms) = lockShape true ms := by
  unfold disableBody
  cases cfg.disablePolicy <;> rfl

theorem lockShape_disableLine (cfg : Config) (l : Nat) (ms : List Micro) :
    lockShape false ([.lock] ++ disableBody cfg l ++ [.unlock] ++ ms) = lockShape false ms := by
  rw [List.append_assoc, List.append_assoc]
  exact lockShape_disableBody cfg l (.unlock :: ms)

theorem lockShape_disableLines (cfg : Config) (n : Nat) (ms : List Micro) :
    lockShape false (disableLines cfg n ++ ms) = lockShape false ms := by
  unfold disableLines
  induction List.range n with
  | nil => rfl
  | cons l ls ih => rw [List.flatMap_cons, List.append_assoc, lockShape_disableLine, ih]

/-- Every operation takes and releases the lock in turn (R72, R235). -/
theorem lockShape_body (cfg : Config) (c : CoreId) (i : Instr) : lockShape false (progOf cfg c i).body = true := by
  cases i with
  | initCurrentCpu =>
    simp only [progOf, progInitCurrentCpu]
    split
    · refine (lockShape_of_neutral (ms := _ ++ _) (fun m hm => ?_) false [.markInited]).trans rfl
      simp only [armActions, List.cons_append, List.nil_append, List.mem_cons, List.mem_flatMap, List.not_mem_nil,
        or_false] at hm
      rcases hm with rfl | rfl | rfl | ⟨a, -, rfl | rfl⟩ <;> rfl
    · rfl
  | maskAll =>
    rw [← List.append_nil (progOf cfg c .maskAll).body]
    refine (lockShape_of_neutral (fun m hm => ?_) false []).trans rfl
    simp only [progOf, progMaskAll, progLmi, maskActions, List.cons_append, List.nil_append, List.mem_cons,
      List.mem_flatMap, List.not_mem_nil, or_false] at hm
    rcases hm with rfl | rfl | ⟨k, -, rfl | rfl⟩ <;> rfl
  | iorInit =>
    exact lockShape_disableLines cfg (numLines cfg) [.iorDone]
  | disableAll =>
    refine Eq.trans ?_ (lockShape_disableLines cfg (min (numLines cfg) (linesAddressable cfg)) [])
    rw [List.append_nil]
    rfl
  | disable l => exact lockShape_disableBody cfg l [.unlock]
  | _ => rfl

theorem lockShape_workBody (cfg : Config) (c : CoreId) (work : Work) : lockShape false (work.body cfg c) = true := by
  cases work with
  | call i => exact lockShape_body cfg c i
  | access a => rfl

/-! ### Where a run of actions ends -/

/-- The actions left where a run ends: those of an operation that waits, none otherwise. -/
def Halt.left : Halt → List Micro
  | .done _ _ => []
  | .blocked _ rest _ => rest
  | .fault _ _ => []
  | .refuse _ _ => []

/-- The word last read where a run ends; after a fault or a refusal no action is left that could use it. -/
def Halt.word : Halt → Word
  | .done w _ => w
  | .blocked w _ _ => w
  | .fault _ _ => 0#32
  | .refuse _ _ => 0#32

theorem runBody_left_suffix (c : CoreId) (ms : List Micro) (w : Word) (b : Block) : (runBody c ms w b).left <:+ ms := by
  cases h : runBody c ms w b with
  | blocked w' rest b' => exact runBody_suffix h
  | _ => exact List.nil_suffix

theorem microHalt_left_suffix (c : CoreId) (w : Word) (ms : List Micro) (b : Block) :
    (microHalt c w ms b).left <:+ ms := by
  cases h : microHalt c w ms b with
  | blocked w' rest b' => exact microHalt_suffix h
  | _ => exact List.nil_suffix

/-- A core that is inside an operation after core c's work was settled: core c itself, with what its run left, or another
one, as it was. -/
theorem settle_running {s : State} {c d : CoreId} {work work' : Work} {ret ret' : Ret} {h : Halt} {w : Word}
    {rest : List Micro} (hr : (s.settle c work ret h).status d = some (.running work' w rest ret')) :
    d = c ∧ work' = work ∧ w = h.word ∧ rest = h.left ∨ d ≠ c ∧ s.status d = some (.running work' w rest ret') := by
  rw [status_settle] at hr
  by_cases hd : d = c
  · rw [if_pos hd] at hr
    obtain ⟨_, -, hst⟩ := Option.map_eq_some_iff.mp hr
    cases h <;> cases hst
    exact .inl ⟨hd, rfl, rfl, rfl⟩
  · rw [if_neg hd] at hr
    exact .inr ⟨hd, hr⟩

/-- A predicate of the actions left, the word and the block that every action keeps, and that holds with nothing left after
a fault or a refusal, holds where a run ends. -/
theorem runBody_induction {c : CoreId} {P : List Micro → Word → Block → Prop}
    (hstep : ∀ {m ms w w' b b'}, P (m :: ms) w b → microStep c m w b = .ok w' b' → P ms w' b')
    (hstop : ∀ {ms w b}, P ms w b → P [] 0#32 (b.release c)) {ms : List Micro} {w : Word} {b : Block} (h : P ms w b) :
    P (runBody c ms w b).left (runBody c ms w b).word (runBody c ms w b).block := by
  induction ms generalizing w b with
  | nil => exact h
  | cons m ms ih =>
    rw [runBody_cons]
    cases hm : microStep c m w b with
    | ok w' b' => exact ih (hstep h hm)
    | wait => exact h
    | fault r => exact hstop h
    | refuse r => exact hstop h

/-- The same where a single action ends: it leaves the actions as they were, or all but the first, or none. -/
theorem microHalt_cases {c : CoreId} {P : List Micro → Word → Block → Prop} {ms : List Micro} {w : Word} {b : Block}
    (h : P ms w b) (hstep : ∀ {m ms' w' b'}, ms = m :: ms' → microStep c m w b = .ok w' b' → P ms' w' b')
    (hstop : P [] 0#32 (b.release c)) :
    P (microHalt c w ms b).left (microHalt c w ms b).word (microHalt c w ms b).block := by
  cases ms with
  | nil => exact h
  | cons m ms =>
    rw [microHalt]
    cases hm : microStep c m w b with
    | ok w' b' => exact hstep rfl hm
    | wait => exact h
    | fault r => exact hstop
    | refuse r => exact hstop

end Sys2Proof.Machine
end

section
/-! PROOFS. The first and second invariant of spec/10_state.md R36. -/

namespace Sys2Proof.Machine

/-! ### What is left of an init_current_cpu -/

/-- Once dispatched, an operation may set the flag. -/
theorem armShape_true (ms : List Micro) : armShape true ms = true := by
  induction ms with
  | nil => rfl
  | cons m ms ih => simp [armShape, ih]

theorem armShape_mono {x y : Bool} (h : x = true → y = true) {ms : List Micro} (hs : armShape x ms = true) :
    armShape y ms = true := by
  cases y with
  | true => exact armShape_true ms
  | false => cases x with
    | true => exact absurd (h rfl) Bool.false_ne_true
    | false => exact hs

theorem armShape_of_not_mem {ms : List Micro} (h : Micro.markInited ∉ ms) (x : Bool) : armShape x ms = true := by
  induction ms generalizing x with
  | nil => rfl
  | cons m ms ih =>
    rw [List.mem_cons, not_or] at h
    simp [armShape, Ne.symm h.1, ih h.2]

/-- Every operation that sets the flag dispatches first (R186, R181). -/
theorem armShape_body (cfg : Config) (c : CoreId) (i : Instr) : armShape false (progOf cfg c i).body = true := by
  have hd : ∀ l, Micro.markInited ∉ disableBody cfg l := fun l => by
    unfold disableBody; cases cfg.disablePolicy <;> simp [readIorReg, writeIorReg, writeRte]
  cases i with
  | initCurrentCpu =>
    simp only [progOf, progInitCurrentCpu]
    split <;> exact armShape_true _
  | maskAll => exact armShape_true _
  | iorInit =>
    refine armShape_of_not_mem ?_ false
    simp [progOf, progIorInit, readVersionLocked, readIorReg, disableLines, hd]
  | disable l =>
    refine armShape_of_not_mem ?_ false
    simp [progOf, progDisable, progRouter, hd]
  | disableAll =>
    refine armShape_of_not_mem ?_ false
    simp [progOf, progDisableAll, readVersionLocked, readIorReg, disableLines, hd]
  | _ => rfl

/-! ### One action -/

/-- The first and second invariant of R36 in a block, and the shape of what is left of an operation under way in it. -/
structure SelectionWith (rest : List Micro) (b : Block) : Prop where
  selected_iff_completed : b.enableType ≠ .unselected ↔ b.facadeOnce = .completed
  inited_selected : ∀ c, (b.lapic c).inited = true → b.enableType ≠ .unselected
  pending_selected : armShape (decide (b.enableType ≠ .unselected)) rest = true

/-- Where the flags are as they were, only the rest matters. -/
theorem SelectionWith.of_flags {rest rest' : List Micro} {b b' : Block} (h : SelectionWith rest b) (hf : FlagsSame b b')
    (hs : armShape (decide (b.enableType ≠ .unselected)) rest' = true) : SelectionWith rest' b' where
  selected_iff_completed := by rw [hf.enableType, hf.facadeOnce]; exact h.selected_iff_completed
  inited_selected c hc := by rw [hf.enableType]; rw [hf.inited] at hc; exact h.inited_selected c hc
  pending_selected := by rw [hf.enableType]; exact hs

theorem SelectionWith.release {rest : List Micro} {b : Block} (h : SelectionWith rest b) (c : CoreId) :
    SelectionWith [] (b.release c) :=
  h.of_flags (.of_lapics rfl rfl rfl) rfl

/-- A block with a selection made and completed, whatever its init flags. -/
theorem selectionWith_of_selected {rest : List Micro} {b : Block} (hs : b.enableType ≠ .unselected)
    (hc : b.facadeOnce = .completed) : SelectionWith rest b where
  selected_iff_completed := ⟨fun _ => hc, fun _ => hs⟩
  inited_selected _ _ := hs
  pending_selected := by rw [decide_eq_true hs]; exact armShape_true rest

theorem SelectionWith.microStep {c : CoreId} {m : Micro} {ms : List Micro} {w w' : Word} {b b' : Block}
    (h : SelectionWith (m :: ms) b) (hm : microStep c m w b = .ok w' b') : SelectionWith ms b' := by
  have hshape := h.pending_selected
  by_cases hf : m = .facadeSelect
  · subst hf
    obtain ⟨-, -, rfl | rfl⟩ := facadeSelect_ok hm <;> exact selectionWith_of_selected EnableType.noConfusion rfl
  by_cases hi : m = .markInited
  · subst hi
    cases hm
    simp only [armShape, reduceCtorEq, if_false, if_true, Bool.and_eq_true, decide_eq_true_eq] at hshape
    exact selectionWith_of_selected hshape.1 (h.selected_iff_completed.mp hshape.1)
  by_cases hd : m = .dispatch
  · subst hd
    obtain ⟨hmmio, -, rfl⟩ := dispatchTo_ok hm
    have hsel : b'.enableType ≠ .unselected := by rw [hmmio]; exact EnableType.noConfusion
    exact selectionWith_of_selected hsel (h.selected_iff_completed.mp hsel)
  · rw [armShape, if_neg hd, if_neg hi] at hshape
    exact h.of_flags (microStep_flags hm hf hi) hshape

/-! ### One step -/

theorem flagsSame_localEvent (c : CoreId) (k : Kind) (b : Block) : FlagsSame b (b.localEvent c k) := by
  simp only [Block.localEvent]
  split
  · exact .refl b
  · unfold Block.localMode
    split
    · split <;> exact .of_lapics rfl rfl rfl
    · exact .of_lapics rfl rfl rfl

theorem flagsSame_lineAssert (l : Nat) (b : Block) : FlagsSame b (b.lineAssert l) := by
  simp only [Block.lineAssert]
  split <;> exact .of_lapics rfl rfl rfl

/-- The invariant after core c's work was settled, from what its run left. -/
theorem Selection.settle {s s' : State} (hs : Selection s) {c : CoreId} (hst : ∀ d, s'.status d = s.status d)
    {h : Halt} (hk : Keeps c s.block h.block) (ha : SelectionWith h.left h.block) (work : Work) (ret : Ret) :
    Selection (s'.settle c work ret h) := by
  refine ⟨?_, ?_, fun d work' w rest ret' hr => ?_⟩ <;> rw [settle_block]
  · exact ha.selected_iff_completed
  · exact ha.inited_selected
  · rcases settle_running hr with ⟨-, -, -, rfl⟩ | ⟨-, hd⟩
    · exact ha.pending_selected
    · refine armShape_mono (fun hsel => ?_) (hs.pending_selected d work' w rest ret' (hst d ▸ hd))
      have hsel := of_decide_eq_true hsel
      rw [hk.enableType_of_selected hs.selected_iff_completed hsel]
      exact decide_eq_true hsel

/-- The invariant where the flags and the agents are as they were. -/
theorem Selection.of_flags {s t : State} (hs : Selection s) (hf : FlagsSame s.block t.block)
    (hst : ∀ c, t.status c = s.status c) : Selection t where
  selected_iff_completed := by rw [hf.enableType, hf.facadeOnce]; exact hs.selected_iff_completed
  inited_selected c hc := by rw [hf.enableType]; rw [hf.inited] at hc; exact hs.inited_selected c hc
  pending_selected c work w rest ret hr := by
    rw [hf.enableType]; rw [hst] at hr; exact hs.pending_selected c work w rest ret hr

/-- The state's invariant, for a core with the given actions left. -/
theorem Selection.withRest {s : State} (hs : Selection s) {rest : List Micro}
    (h : armShape (decide (s.block.enableType ≠ .unselected)) rest = true) : SelectionWith rest s.block :=
  ⟨hs.selected_iff_completed, hs.inited_selected, h⟩

/-- Every step keeps the first and second invariant of R36. -/
theorem Selection.step {s t : State} (hs : Selection s) (h : step s = .next t) : Selection t := by
  have delivered : ∀ b, t.agents = s.agents → t.block = b → FlagsSame s.block b → Selection t := fun b hag hb hf =>
    hs.of_flags (hb ▸ hf) fun c => by rw [State.status, hag]; rfl
  have ran : ∀ (c : CoreId) (rest : List Micro) (w : Word), SelectionWith rest s.block →
      SelectionWith (runBody c rest w s.block).left (runBody c rest w s.block).block := fun c rest w ha =>
    runBody_induction (P := fun rest _ b => SelectionWith rest b) SelectionWith.microStep (fun ha => ha.release c) ha
  cases step_cases h with
  | nothing ht => exact delivered _ ht.2.1 ht.1 (.refl _)
  | localEvent c k ht => exact delivered _ ht.2.1 ht.1 (flagsSame_localEvent c k _)
  | lineAssert l ht => exact delivered _ ht.2.1 ht.1 (flagsSame_lineAssert l _)
  | begun c s' work p hturn hidle hb hst hm hlen hp ht =>
    have hshape : armShape false p.body = true := by
      rcases hp with ⟨i, -, rfl⟩ | ⟨a, -, rfl, -⟩
      · exact armShape_body _ c i
      · rfl
    have ha := hs.withRest (armShape_mono (fun hf => absurd hf Bool.false_ne_true) hshape)
    rcases ht with ⟨rfl, -⟩ | rfl
    · exact hs.settle hst (runBody_keeps c _ _ _) (ran c _ _ ha) work p.ret
    · exact hs.settle hst (h := .blocked 0#32 p.body s.block) (.refl c _) ha work p.ret
  | continued c s' work w rest ret hturn hrun hb hst hm hlen ht =>
    have ha := hs.withRest (hs.pending_selected c work w rest ret hrun)
    rcases ht with ⟨rfl, -⟩ | ⟨rfl, -⟩
    · exact hs.settle hst (runBody_keeps c _ _ _) (ran c _ _ ha) work ret
    · refine hs.settle hst (microHalt_keeps c _ _ _) ?_ work ret
      exact microHalt_cases (P := fun rest _ b => SelectionWith rest b) ha (fun he hm => (he ▸ ha).microStep hm)
        (ha.release c)

end Sys2Proof.Machine
end

section
/-! PROOFS. The third invariant of spec/10_state.md R36. -/

namespace Sys2Proof.Machine

/-! ### One core's part and the others' -/

/-- A version word names at least one line (R105). -/
theorem numLines_pos (cfg : Config) : 0 < numLines cfg := Nat.succ_pos _

theorem lineHeld_mono {b : Block} {written written' : List Nat} (h : written ⊆ written') {l : Nat}
    (hl : b.lineHeld written l = true) : b.lineHeld written' l = true := by
  simp only [Block.lineHeld, Bool.or_eq_true, decide_eq_true_eq] at hl ⊢
  exact hl.imp_left fun hmem => h hmem

/-- What the third invariant needs of a block and of one core c in it that has the actions `rest` left and read `w` last:
the invariant itself, that what is left of an `ior_init` c runs masks every line, that c is at the beginning of any it
does not run, and c's part of the lock discipline. -/
structure CoreMasks (written : List Nat) (c : CoreId) (rest : List Micro) (w : Word) (b : Block) : Prop where
  untouched : b.iorInited = true → ∀ l, l < numLines b.cfg → l ∉ written → (b.rte l).lo.getLsbD 16 = true
  runner : b.iorRunner = some c → b.iorInited = false ∧ ∀ l, l < numLines b.cfg →
    endsMasked b.cfg l (b.indexFor c) (decide (w = b.cfg.iorVersionWord)) (b.lineHeld written l) rest = true
  begins : b.iorRunner ≠ some c → rest = (progIorInit b.cfg).body ∨ Micro.iorOnce ∉ rest ∧ Micro.iorDone ∉ rest
  locked : lockShape (decide (b.iorLock = .held c)) rest = true
  lines : b.rtes.length = numLines b.cfg
  sound : ConfigSound b.cfg

/-- What core c leaves of the third invariant's part of every other core d: what d knows of the index register, whether d
runs `ior_init`, and while it does that it is not completed and every line held. -/
structure OthersKept (written : List Nat) (c : CoreId) (b b' : Block) : Prop where
  index : ∀ d, d ≠ c → b'.indexFor d = b.indexFor d
  runner : ∀ d, d ≠ c → (b'.iorRunner = some d ↔ b.iorRunner = some d)
  inited : ∀ d, d ≠ c → b.iorRunner = some d → b'.iorInited = b.iorInited
  lineHeld : ∀ d, d ≠ c → b.iorRunner = some d → ∀ l, b.lineHeld written l = true → b'.lineHeld written l = true

theorem OthersKept.refl (written : List Nat) (c : CoreId) (b : Block) : OthersKept written c b b :=
  ⟨fun _ _ => rfl, fun _ _ => Iff.rfl, fun _ _ _ => rfl, fun _ _ _ _ h => h⟩

theorem OthersKept.trans {written : List Nat} {c : CoreId} {b b' b'' : Block} (h : OthersKept written c b b')
    (h' : OthersKept written c b' b'') : OthersKept written c b b'' where
  index d hd := (h'.index d hd).trans (h.index d hd)
  runner d hd := (h'.runner d hd).trans (h.runner d hd)
  inited d hd hr := (h'.inited d hd ((h.runner d hd).mpr hr)).trans (h.inited d hd hr)
  lineHeld d hd hr l hl := h'.lineHeld d hd ((h.runner d hd).mpr hr) l (h.lineHeld d hd hr l hl)

theorem othersKept_release (written : List Nat) (c : CoreId) (b : Block) : OthersKept written c b (b.release c) where
  index d hd := by
    by_cases hc : b.iorLock = .held c
    · simp [Block.indexFor, Block.release, hc, Ne.symm hd]
    · simp [Block.indexFor, Block.release, hc]
  runner d hd := by
    by_cases hc : b.iorRunner = some c
    · simp [Block.release, hc, Ne.symm hd]
    · simp [Block.release, hc]
  inited _ _ _ := rfl
  lineHeld _ _ _ _ h := h

/-- A core whose operation is stopped has nothing left, and neither the lock nor the run-once (log entry 7). -/
theorem CoreMasks.release {written : List Nat} {c : CoreId} {rest : List Micro} {w : Word} {b : Block}
    (h : CoreMasks written c rest w b) (w' : Word) : CoreMasks written c [] w' (b.release c) where
  untouched := h.untouched
  runner hr := by
    simp only [Block.release] at hr
    split at hr
    · cases hr
    · exact absurd hr ‹_›
  begins _ := .inr ⟨List.not_mem_nil, List.not_mem_nil⟩
  locked := by
    have hfree : (b.release c).iorLock ≠ .held c := by
      simp only [Block.release]
      split
      · exact LockState.noConfusion
      · assumption
    rw [decide_eq_false hfree]
    rfl
  lines := h.lines
  sound := h.sound

/-- With nothing left a core does not run `ior_init`. -/
theorem CoreMasks.left_of_runner {written : List Nat} {c : CoreId} {rest : List Micro} {w : Word} {b : Block}
    (h : CoreMasks written c rest w b) (hr : b.iorRunner = some c) : rest ≠ [] := by
  rintro rfl
  exact absurd ((h.runner hr).2 0 (numLines_pos _)) Bool.false_ne_true

/-! ### One action -/

/-- An action of the core that runs `ior_init`. -/
theorem CoreMasks.microStep_of_runner {written : List Nat} {c : CoreId} {m : Micro} {ms : List Micro} {w w' : Word}
    {b b' : Block} (h : CoreMasks written c (m :: ms) w b) (hm : microStep c m w b = .ok w' b')
    (hr : b.iorRunner = some c) : CoreMasks written c ms w' b' := by
  obtain ⟨hinit, hends⟩ := h.runner hr
  have hk := microStep_keeps hm
  have hlines : b'.rtes.length = numLines b'.cfg := by rw [hk.rtes_length, hk.cfg, h.lines]
  have hsound : ConfigSound b'.cfg := hk.cfg ▸ h.sound
  have hlock := microStep_lockShape hm h.locked
  have hcase := fun l (hl : l < numLines b.cfg) => microStep_runner hm hr
    (fun hu => of_decide_eq_true (lockShape_under h.locked hu)) (h.lines.symm ▸ hl) (hends l hl)
  by_cases hdone : m = .iorDone
  · have hcase := fun l hl => (hcase l hl).resolve_right fun hn => hn.1 hdone
    obtain ⟨-, rfl, -, hnone, -⟩ := hcase 0 (numLines_pos _)
    refine ⟨fun _ l hl hw => ?_, fun hr' => ?_, fun _ => .inr ⟨List.not_mem_nil, List.not_mem_nil⟩, hlock, hlines,
      hsound⟩
    · obtain ⟨-, -, -, -, hheld⟩ := hcase l (hk.cfg ▸ hl)
      simpa [Block.lineHeld, hw] using hheld
    · rw [hnone] at hr'; cases hr'
  · have hcase := fun l hl => (hcase l hl).resolve_left fun hn => hdone hn.1
    obtain ⟨-, hinited, hrunner, -⟩ := hcase 0 (numLines_pos _)
    rw [hinit] at hinited
    refine ⟨fun hi => ?_, fun _ => ⟨hinited, fun l hl => ?_⟩, fun hn => absurd hrunner hn, hlock, hlines, hsound⟩
    · exact absurd (hinited.symm.trans hi) Bool.false_ne_true
    · rw [hk.cfg] at hl ⊢
      obtain ⟨-, -, -, hends'⟩ := hcase l hl
      exact hends'

/-- The run-once entry of an `ior_init`: what is left of it masks every line, whatever was written before. -/
theorem CoreMasks.microStep_iorOnce {written : List Nat} {c : CoreId} {w w' : Word} {b b' : Block}
    (h : CoreMasks written c (progIorInit b.cfg).body w b) (hm : microStep c .iorOnce w b = .ok w' b') :
    CoreMasks written c (progIorInit b.cfg).body.tail w' b' := by
  have hlock := microStep_lockShape hm (iorInit_body b.cfg ▸ h.locked)
  obtain ⟨-, hinit, -, rfl⟩ := iorOnce_ok hm
  refine ⟨fun hi => absurd (hinit.symm.trans hi) Bool.false_ne_true, fun _ => ⟨hinit, fun l hl => ?_⟩,
    fun hn => absurd rfl hn, hlock, h.lines, h.sound⟩
  exact endsMasked_mono (.inl rfl) id id (endsMasked_iorInit h.sound hl _ _)

/-- An action that is no part of an `ior_init`, the lines it writes counted. -/
theorem CoreMasks.microStep_of_other {written : List Nat} {c : CoreId} {m : Micro} {ms : List Micro} {w w' : Word}
    {b b' : Block} (h : CoreMasks written c (m :: ms) w b) (hm : microStep c m w b = .ok w' b')
    (hr : b.iorRunner ≠ some c) (hno : Micro.iorOnce ∉ m :: ms ∧ Micro.iorDone ∉ m :: ms)
    (hw : foreignWrite c m b ⊆ written) : CoreMasks written c ms w' b' := by
  have hk := microStep_keeps hm
  obtain ⟨honce, hdone⟩ := hno
  rw [List.mem_cons, not_or] at honce hdone
  obtain ⟨hinit, hrunner, hlo⟩ := microStep_foreign hm hr (Ne.symm honce.1) (Ne.symm hdone.1)
  exact {
    untouched := fun hi l hl hnot => by
      rw [hlo l fun hmem => hnot (hw hmem)]
      exact h.untouched (hinit ▸ hi) l (hk.cfg ▸ hl) hnot
    runner := fun hr' => absurd (hrunner ▸ hr') hr
    begins := fun _ => .inr ⟨honce.2, hdone.2⟩
    locked := microStep_lockShape hm h.locked
    lines := by rw [hk.rtes_length, hk.cfg, h.lines]
    sound := hk.cfg ▸ h.sound }

/-- Every action of core c keeps its part. -/
theorem CoreMasks.microStep {written : List Nat} {c : CoreId} {m : Micro} {ms : List Micro} {w w' : Word}
    {b b' : Block} (h : CoreMasks written c (m :: ms) w b) (hm : microStep c m w b = .ok w' b')
    (hw : foreignWrite c m b ⊆ written) : CoreMasks written c ms w' b' := by
  by_cases hr : b.iorRunner = some c
  · exact h.microStep_of_runner hm hr
  · rcases h.begins hr with hbody | hno
    · obtain ⟨rfl, rfl⟩ := List.cons.inj (hbody.trans (iorInit_body b.cfg))
      exact CoreMasks.microStep_iorOnce h hm
    · exact h.microStep_of_other hm hr hno hw

/-- Every action of core c leaves the others' parts. -/
theorem CoreMasks.othersKept {written : List Nat} {c : CoreId} {m : Micro} {ms : List Micro} {w w' : Word}
    {b b' : Block} (h : CoreMasks written c (m :: ms) w b) (hm : Machine.microStep c m w b = .ok w' b')
    (hw : foreignWrite c m b ⊆ written) : OthersKept written c b b' := by
  have hindex := fun d (hd : d ≠ c) => microStep_indexFor hm h.locked hd
  by_cases honce : m = .iorOnce
  · subst honce
    obtain ⟨-, -, hnone, rfl⟩ := iorOnce_ok hm
    exact ⟨hindex, fun d hd => by simp [hnone, Ne.symm hd], fun _ _ _ => rfl, fun _ _ _ _ hl => hl⟩
  by_cases hdone : m = .iorDone
  · subst hdone
    have hr : b.iorRunner = some c := by
      by_contra hn
      rcases h.begins hn with hbody | ⟨-, hno⟩
      · cases (List.cons.inj (hbody.trans (iorInit_body b.cfg))).1
      · exact hno (List.mem_cons_self ..)
    have hother : ∀ d, d ≠ c → b.iorRunner ≠ some d := fun d hd he => hd (Option.some.inj (he.symm.trans hr))
    cases hm
    exact ⟨hindex, fun d hd => ⟨fun he => (by cases he), fun he => absurd he (hother d hd)⟩,
      fun d hd he => absurd he (hother d hd), fun d hd he => absurd he (hother d hd)⟩
  · obtain ⟨hinit, hrunner, -⟩ := microStep_router hm honce hdone
    refine ⟨hindex, fun d _ => by rw [hrunner], fun _ _ _ => hinit, fun d hd he l hl => ?_⟩
    have hr : b.iorRunner ≠ some c := fun hc => hd (Option.some.inj (he.symm.trans hc))
    obtain ⟨-, -, hlo⟩ := microStep_foreign hm hr honce hdone
    by_cases hmem : l ∈ foreignWrite c m b
    · simp [Block.lineHeld, hw hmem]
    · rw [Block.lineHeld, hlo l hmem]
      exact hl

/-! ### A run of actions -/

/-- A run of core c's actions from block b keeps its own part and the others', once the lines it writes are counted. -/
theorem CoreMasks.runBody {written : List Nat} {c : CoreId} {ms : List Micro} {w : Word} {b : Block}
    (h : CoreMasks written c ms w b) (hw : foreignWrites c ms w b ⊆ written) :
    CoreMasks written c (runBody c ms w b).left (runBody c ms w b).word (runBody c ms w b).block ∧
      OthersKept written c b (runBody c ms w b).block := by
  have hrun := runBody_induction (c := c) (ms := ms) (w := w) (b := b)
    (P := fun rest w' b' => CoreMasks written c rest w' b' ∧ OthersKept written c b b' ∧
      foreignWrites c rest w' b' ⊆ written)
    (fun {m ms w w' b' b''} hp hm => by
      obtain ⟨hcore, hothers, hwrites⟩ := hp
      simp only [foreignWrites, hm, List.append_subset] at hwrites
      exact ⟨hcore.microStep hm hwrites.1, hothers.trans (hcore.othersKept hm hwrites.1), hwrites.2⟩)
    (fun {ms w b'} hp =>
      ⟨hp.1.release _, hp.2.1.trans (othersKept_release written c b'), List.nil_subset _⟩)
    ⟨h, .refl written c b, hw⟩
  exact ⟨hrun.1, hrun.2.1⟩

/-- The same for a single action. -/
theorem CoreMasks.microHalt {written : List Nat} {c : CoreId} {ms : List Micro} {w : Word} {b : Block}
    (h : CoreMasks written c ms w b) (hw : foreignWrites c (ms.take 1) w b ⊆ written) :
    CoreMasks written c (microHalt c w ms b).left (microHalt c w ms b).word (microHalt c w ms b).block ∧
      OthersKept written c b (microHalt c w ms b).block := by
  refine microHalt_cases (P := fun rest w' b' => CoreMasks written c rest w' b' ∧ OthersKept written c b b')
    ⟨h, .refl written c b⟩ ?_ ⟨h.release _, othersKept_release written c b⟩
  rintro m ms' w' b' rfl hm
  simp only [List.take_succ_cons, List.take_zero, foreignWrites, hm, List.append_nil] at hw
  exact ⟨h.microStep hm hw, h.othersKept hm hw⟩

/-! ### One step -/

/-- The lines that count after a step, of those before it: all, once an `ior_init` has begun. -/
theorem sinceInit_subset {s : State} {written written' : List Nat} (h : writtenAfter s written ⊆ written')
    (hb : s.block.iorInited = true ∨ s.block.iorRunner.isSome = true) : written ⊆ written' := by
  rw [writtenAfter, sinceInit, if_pos hb] at h
  exact (List.append_subset.mp h).1

theorem flag_of_runner {b : Block} {c : CoreId} (h : b.iorRunner = some c) :
    b.iorInited = true ∨ b.iorRunner.isSome = true := .inr (by rw [h]; rfl)

theorem routerSame_localEvent (c : CoreId) (k : Kind) (b : Block) : RouterSame b (b.localEvent c k) := by
  simp only [Block.localEvent]
  split
  · exact routerSame_refl b
  · unfold Block.localMode
    split
    · split <;> exact ⟨rfl, rfl, rfl, rfl, rfl⟩
    · exact ⟨rfl, rfl, rfl, rfl, rfl⟩

theorem routerSame_lineAssert (l : Nat) (b : Block) : RouterSame b (b.lineAssert l) := by
  simp only [Block.lineAssert]
  split <;> exact ⟨rfl, rfl, rfl, rfl, rfl⟩

section

variable {s : State} {written written' : List Nat} (hm : MaskDiscipline written s)
  (hsub : s.block.iorInited = true ∨ s.block.iorRunner.isSome = true → written ⊆ written')

include hm hsub

/-- The invariant where the router and the agents are as they were. -/
theorem MaskDiscipline.of_routerSame {t : State} (hr : RouterSame s.block t.block) (hcfg : t.block.cfg = s.block.cfg)
    (hst : ∀ c, t.status c = s.status c) : MaskDiscipline written' t := by
  obtain ⟨hinit, hrunner, hindex, hrtes, hlock⟩ := hr
  have hrte : ∀ l, t.block.rte l = s.block.rte l := fun l => by rw [Block.rte, hrtes]; rfl
  refine ⟨fun hi l hl hnot => ?_, fun c hc => ?_, fun c work w rest ret h hn => ?_, fun c work w rest ret h => ?_⟩
  · rw [hinit] at hi
    rw [hrte]
    exact hm.untouched_masked hi l (hcfg ▸ hl) fun hmem => hnot (hsub (.inl hi) hmem)
  · rw [hrunner] at hc
    obtain ⟨hno, work, w, rest, ret, hrun, hends⟩ := hm.runner_masks c hc
    refine ⟨hinit.trans hno, work, w, rest, ret, (hst c).trans hrun, fun l hl => ?_⟩
    rw [hcfg] at hl ⊢
    rw [Block.indexFor, Block.lineHeld, hlock, hindex, hrte]
    exact endsMasked_mono (.inr rfl) id (lineHeld_mono (hsub (flag_of_runner hc))) (hends l hl)
  · rw [hcfg]
    exact hm.others_begin c work w rest ret (hst c ▸ h) (hrunner ▸ hn)
  · rw [hcfg]
    exact hm.underway c work w rest ret (hst c ▸ h)

/-- The invariant after core c's work was settled, from what its run left of its own part and of the others'. -/
theorem MaskDiscipline.settle {s' : State} {c : CoreId} {work : Work} {st : Status} (hc : s.status c = some st)
    (hst : ∀ d, s'.status d = s.status d) {h : Halt} (hcfg : h.block.cfg = s.block.cfg)
    (hcore : CoreMasks written' c h.left h.word h.block ∧ OthersKept written' c s.block h.block)
    (hsuf : h.left <:+ work.body s.block.cfg c) (ret : Ret) : MaskDiscipline written' (s'.settle c work ret h) := by
  obtain ⟨hcore, hothers⟩ := hcore
  refine ⟨?_, fun d hd => ?_, fun d work' w rest ret' hr hn => ?_, fun d work' w rest ret' hr => ?_⟩ <;>
    rw [settle_block] at *
  · exact hcore.untouched
  · by_cases hdc : d = c
    · subst hdc
      obtain ⟨hno, hends⟩ := hcore.runner hd
      refine ⟨hno, work, h.word, h.left, ret, ?_, hends⟩
      rw [status_settle, if_pos rfl, hst, hc]
      cases h with
      | blocked w rest b => rfl
      | _ => exact absurd rfl (hcore.left_of_runner hd)
    · have hd' := (hothers.runner d hdc).mp hd
      obtain ⟨hno, work', w, rest, ret', hrun, hends⟩ := hm.runner_masks d hd'
      refine ⟨(hothers.inited d hdc hd').trans hno, work', w, rest, ret', ?_, fun l hl => ?_⟩
      · rw [status_settle, if_neg hdc, hst, hrun]
      · rw [hcfg] at hl ⊢
        rw [hothers.index d hdc]
        exact endsMasked_mono (.inr rfl) id
          (fun hl => hothers.lineHeld d hdc hd' l (lineHeld_mono (hsub (flag_of_runner hd')) hl)) (hends l hl)
  · rcases settle_running hr with ⟨rfl, rfl, rfl, rfl⟩ | ⟨hdc, hd⟩
    · exact hcore.begins hn
    · rw [hcfg]
      exact hm.others_begin d work' w rest ret' (hst d ▸ hd) fun he => hn ((hothers.runner d hdc).mpr he)
  · rw [hcfg]
    rcases settle_running hr with ⟨rfl, rfl, rfl, rfl⟩ | ⟨-, hd⟩
    · exact hsuf
    · exact hm.underway d work' w rest ret' (hst d ▸ hd)

/-- The part of a core that begins a piece of work. -/
theorem MaskDiscipline.coreMasks_of_idle (hs : ConfigSound s.block.cfg) (hshape : Shaped s) (hl : LockDiscipline s)
    {c : CoreId} (hidle : s.status c = some .idle) (work : Work) :
    CoreMasks written' c (work.body s.block.cfg c) 0#32 s.block where
  untouched hi l hlt hnot := hm.untouched_masked hi l hlt fun hmem => hnot (hsub (.inl hi) hmem)
  runner hr := by
    obtain ⟨-, _, _, _, _, hrun, -⟩ := hm.runner_masks c hr
    cases hidle.symm.trans hrun
  begins _ := by
    by_cases hi : work = .call .iorInit
    · exact .inl (by rw [hi]; rfl)
    · refine .inr ?_
      cases work with
      | call i => exact iorOnce_not_mem _ c fun he => hi (by rw [he])
      | access a => simp [Work.body, progAccess]
  locked := by
    have hfree : s.block.iorLock ≠ .held c := fun hheld => by
      obtain ⟨_, _, _, _, hrun⟩ := hl.holder_running c hheld
      cases hidle.symm.trans hrun
    rw [decide_eq_false hfree]
    exact lockShape_workBody _ c work
  lines := hshape.rtes_length
  sound := hs

/-- The part of a core that is inside an operation. -/
theorem MaskDiscipline.coreMasks_of_running (hs : ConfigSound s.block.cfg) (hshape : Shaped s) (hl : LockDiscipline s)
    {c : CoreId} {work : Work} {w : Word} {rest : List Micro} {ret : Ret}
    (hrun : s.status c = some (.running work w rest ret)) : CoreMasks written' c rest w s.block where
  untouched hi l hlt hnot := hm.untouched_masked hi l hlt fun hmem => hnot (hsub (.inl hi) hmem)
  runner hr := by
    obtain ⟨hno, _, _, _, _, hrun', hends⟩ := hm.runner_masks c hr
    cases hrun.symm.trans hrun'
    exact ⟨hno, fun l hlt =>
      endsMasked_mono (.inr rfl) id (lineHeld_mono (hsub (flag_of_runner hr))) (hends l hlt)⟩
  begins := hm.others_begin c work w rest ret hrun
  locked := hl.running_shaped c work w rest ret hrun
  lines := hshape.rtes_length
  sound := hs

end

/-- Every step keeps the third invariant of R36 with the lines its writes reach counted, those of an `ior_init`
excepted. -/
theorem MaskDiscipline.step {s t : State} {written : List Nat} (hm : MaskDiscipline written s)
    (hs : ConfigSound s.block.cfg) (hshape : Shaped s) (hl : LockDiscipline s) (h : step s = .next t) :
    MaskDiscipline (writtenAfter s written) t := by
  have hsub := sinceInit_subset (s := s) (written := written) (List.Subset.refl _)
  have hnew : stepWrites s ⊆ writtenAfter s written := List.subset_append_right _ _
  have delivered : ∀ b, t.agents = s.agents → t.block = b → RouterSame s.block b → b.cfg = s.block.cfg →
      MaskDiscipline (writtenAfter s written) t := fun b hag hb hr hc =>
    hm.of_routerSame hsub (hb ▸ hr) (hb ▸ hc) fun c => by rw [State.status, hag]; rfl
  cases step_cases h with
  | nothing ht => exact delivered _ ht.2.1 ht.1 (routerSame_refl _) rfl
  | localEvent c k ht => exact delivered _ ht.2.1 ht.1 (routerSame_localEvent c k _) (keeps_localEvent 0 c k _).cfg
  | lineAssert l ht => exact delivered _ ht.2.1 ht.1 (routerSame_lineAssert l _) (keeps_lineAssert 0 l _).cfg
  | begun c s' work p hturn hidle hb hst hmark hlen hp ht =>
    have hbody : p.body = work.body s.block.cfg c := by
      rcases hp with ⟨i, rfl, rfl⟩ | ⟨a, rfl, rfl, -⟩ <;> rfl
    have hcore := hm.coreMasks_of_idle hsub hs hshape hl hidle work
    rw [← hbody] at hcore
    rcases ht with ⟨rfl, hwrites⟩ | rfl
    · exact hm.settle hsub hidle hst (runBody_keeps c _ _ _).cfg (hcore.runBody (hwrites ▸ hnew))
        (hbody ▸ runBody_left_suffix c _ _ _) p.ret
    · exact hm.settle hsub hidle hst (h := .blocked 0#32 p.body s.block) rfl ⟨hcore, .refl _ c _⟩
        (hbody ▸ List.suffix_rfl) p.ret
  | continued c s' work w rest ret hturn hrun hb hst hmark hlen ht =>
    have hcore := hm.coreMasks_of_running hsub hs hshape hl hrun
    have hsuf := hm.underway c work w rest ret hrun
    rcases ht with ⟨rfl, hwrites⟩ | ⟨rfl, hwrites⟩
    · exact hm.settle hsub hrun hst (runBody_keeps c _ _ _).cfg (hcore.runBody (hwrites ▸ hnew))
        ((runBody_left_suffix c _ _ _).trans hsuf) ret
    · exact hm.settle hsub hrun hst (microHalt_keeps c _ _ _).cfg (hcore.microHalt (hwrites ▸ hnew))
        ((microHalt_left_suffix c _ _ _).trans hsuf) ret

/-- Within the router operations the lines that count are those R36 names. -/
theorem writtenByOperations_eq {s : State} {written : List Nat} (hm : MaskDiscipline written s)
    (h : WithinOperations s) : writtenByOperations s written = writtenAfter s written := by
  rw [writtenByOperations, writtenAfter, stepWrites_within hm h]

end Sys2Proof.Machine

open Sys2Proof Sys2Proof.Machine

/-- Settles O56: the third invariant is proved with every write counted, and within the router operations those are the
writes R36 names. -/
theorem stepKeepsSelection : Obligations.StepKeepsSelection := by
  refine ⟨fun s t hs h => hs.step h, fun s t written hs hshape hl hm h => ?_⟩
  have hafter := hm.step hs hshape hl h
  exact ⟨fun hw => writtenByOperations_eq hm hw ▸ hafter, hafter⟩
end

section
/-! PROOFS. The device-lock discipline of spec/20_memory.md R72: what one core's actions leave of it, and of the router
while another core holds the lock. -/

namespace Sys2Proof.Machine

/-! ### One action -/

/-- While another core holds the lock, no action of core c touches the lock, the index register or an entry (R72). -/
theorem microStep_underLock {c d : CoreId} {m : Micro} {ms : List Micro} {w w' : Word} {b b' : Block}
    (h : microStep c m w b = .ok w' b') (hs : lockShape (decide (b.iorLock = .held c)) (m :: ms) = true) (hd : d ≠ c)
    (hheld : b.iorLock = .held d) : UnderLockSame b b' := by
  have hnot : decide (b.iorLock = .held c) = false := decide_eq_false (by simp [hheld, hd])
  rw [hnot] at hs
  have hl : m ≠ .lock := by
    rintro rfl
    obtain ⟨-, hfree, -⟩ := lockIor_ok h
    cases hfree.symm.trans hheld
  have hu : m ≠ .unlock := by
    rintro rfl
    exact Bool.false_ne_true hs
  have hrole : lockRole m ≠ .under := fun hm => Bool.false_ne_true (lockShape_under hs hm)
  have hout : b.lockedOut c = true := by simp [Block.lockedOut, hheld, hd]
  exact (microStep_lock h hl hu).2 hrole (.inl hout)

/-- An action of core c gives the lock to no other core. -/
theorem microStep_held_other {c d : CoreId} {m : Micro} {w w' : Word} {b b' : Block}
    (h : microStep c m w b = .ok w' b') (hd : d ≠ c) (hheld : b'.iorLock = .held d) : b.iorLock = .held d := by
  by_cases hl : m = .lock
  · subst hl
    obtain ⟨-, -, rfl⟩ := lockIor_ok h
    exact absurd (LockState.held.inj hheld).symm hd
  by_cases hu : m = .unlock
  · subst hu
    cases h
    cases hheld
  · rwa [← (microStep_lock h hl hu).1]

/-! ### One core's part and the others' -/

/-- What core c's work, begun in block b, leaves of the lock discipline in block b' with the actions `rest` left: they
take and release the lock in turn, no other core has come to hold the lock, and where another one held it the lock, the
index register and the entries are as they were. -/
structure CoreLocks (c : CoreId) (b : Block) (rest : List Micro) (b' : Block) : Prop where
  shaped : lockShape (decide (b'.iorLock = .held c)) rest = true
  others : ∀ d, d ≠ c → b'.iorLock = .held d → b.iorLock = .held d
  alone : ∀ d, d ≠ c → b.iorLock = .held d → UnderLockSame b b'

theorem CoreLocks.start {c : CoreId} {b : Block} {rest : List Micro}
    (h : lockShape (decide (b.iorLock = .held c)) rest = true) : CoreLocks c b rest b :=
  ⟨h, fun _ _ hd => hd, fun _ _ _ => .refl b⟩

theorem CoreLocks.microStep {c : CoreId} {b b' b'' : Block} {m : Micro} {ms : List Micro} {w w' : Word}
    (h : CoreLocks c b (m :: ms) b') (hm : microStep c m w b' = .ok w' b'') : CoreLocks c b ms b'' where
  shaped := microStep_lockShape hm h.shaped
  others d hd hheld := h.others d hd (microStep_held_other hm hd hheld)
  alone d hd hheld := by
    obtain ⟨hindex, hrtes, hlock⟩ := h.alone d hd hheld
    obtain ⟨hindex', hrtes', hlock'⟩ := microStep_underLock hm h.shaped hd (hlock.trans hheld)
    exact ⟨hindex'.trans hindex, hrtes'.trans hrtes, hlock'.trans hlock⟩

/-- A core that has stopped does not hold the lock (log entry 7). -/
theorem release_not_held (c : CoreId) (b : Block) : (b.release c).iorLock ≠ .held c := by
  by_cases h : b.iorLock = .held c <;> simp [Block.release, h]

/-- A core that does not hold the lock leaves it when it stops. -/
theorem release_iorLock_of_not_held {c : CoreId} {b : Block} (h : b.iorLock ≠ .held c) :
    (b.release c).iorLock = b.iorLock := by
  simp [Block.release, h]

/-- A core that stops has nothing left, and not the lock. -/
theorem CoreLocks.release {c : CoreId} {b b' : Block} {rest : List Micro} (h : CoreLocks c b rest b') :
    CoreLocks c b [] (b'.release c) where
  shaped := by rw [decide_eq_false (release_not_held c b')]; rfl
  others d hd hheld := by
    by_cases hc : b'.iorLock = .held c
    · simp [Block.release, hc] at hheld
    · exact h.others d hd (release_iorLock_of_not_held hc ▸ hheld)
  alone d hd hheld := by
    obtain ⟨hindex, hrtes, hlock⟩ := h.alone d hd hheld
    have hc : b'.iorLock ≠ .held c := by simp [hlock, hheld, hd]
    exact ⟨hindex, hrtes, (release_iorLock_of_not_held hc).trans hlock⟩

theorem CoreLocks.runBody {c : CoreId} {b : Block} {ms : List Micro}
    (h : lockShape (decide (b.iorLock = .held c)) ms = true) (w : Word) :
    CoreLocks c b (runBody c ms w b).left (runBody c ms w b).block :=
  runBody_induction (P := fun rest _ b' => CoreLocks c b rest b') CoreLocks.microStep CoreLocks.release (.start h)

theorem CoreLocks.microHalt {c : CoreId} {b : Block} {ms : List Micro}
    (h : lockShape (decide (b.iorLock = .held c)) ms = true) (w : Word) :
    CoreLocks c b (microHalt c w ms b).left (microHalt c w ms b).block :=
  microHalt_cases (P := fun rest _ b' => CoreLocks c b rest b') (.start h)
    (fun he hm => (CoreLocks.start (he ▸ h)).microStep hm) (CoreLocks.start h).release

/-! ### One step -/

/-- The actions of a core that begins a piece of work: it does not hold the lock, and the work is in order. -/
theorem LockDiscipline.shaped_of_idle {s : State} (hl : LockDiscipline s) {c : CoreId}
    (hidle : s.status c = some .idle) (work : Work) :
    lockShape (decide (s.block.iorLock = .held c)) (work.body s.block.cfg c) = true := by
  have hnot : s.block.iorLock ≠ .held c := fun hheld => by
    obtain ⟨_, _, _, _, hrun⟩ := hl.holder_running c hheld
    cases hidle.symm.trans hrun
  rw [decide_eq_false hnot]
  exact lockShape_workBody _ c work

/-- What a step comes to under the lock discipline: it leaves the router and the agents' statuses, or the core whose turn
it is does its work, the others left to theirs. -/
inductive LockStep (s t : State) : Prop where
  | same (hr : RouterSame s.block t.block) (hst : ∀ c, t.status c = s.status c)
  | worked (c : CoreId) (s' : State) (work : Work) (ret : Ret) (h : Halt)
      (hturn : s.turns.head? ∈ [some (.op c), some (.micro c)]) (hsome : (s.status c).isSome = true)
      (hst : ∀ d, s'.status d = s.status d) (ht : t = s'.settle c work ret h)
      (hlocks : CoreLocks c s.block h.left h.block)

theorem LockDiscipline.lockStep {s t : State} (hl : LockDiscipline s) (h : step s = .next t) : LockStep s t := by
  have delivered : ∀ b, t.agents = s.agents → t.block = b → RouterSame s.block b → LockStep s t := fun b hag hb hr =>
    .same (hb ▸ hr) fun c => by rw [State.status, hag]; rfl
  cases step_cases h with
  | nothing ht => exact delivered _ ht.2.1 ht.1 (routerSame_refl _)
  | localEvent c k ht => exact delivered _ ht.2.1 ht.1 (routerSame_localEvent c k _)
  | lineAssert l ht => exact delivered _ ht.2.1 ht.1 (routerSame_lineAssert l _)
  | begun c s' work p hturn hidle hb hst hm hlen hp ht =>
    have hbody : p.body = work.body s.block.cfg c := by
      rcases hp with ⟨i, rfl, rfl⟩ | ⟨a, rfl, rfl, -⟩ <;> rfl
    have hshape := hbody ▸ hl.shaped_of_idle hidle work
    have hsome : (s.status c).isSome = true := by rw [hidle]; rfl
    rcases ht with ⟨rfl, -⟩ | rfl
    · exact .worked c s' work p.ret _ hturn hsome hst rfl (.runBody hshape _)
    · exact .worked c s' work p.ret (.blocked 0#32 p.body s.block) hturn hsome hst rfl (.start hshape)
  | continued c s' work w rest ret hturn hrun hb hst hm hlen ht =>
    have hshape := hl.running_shaped c work w rest ret hrun
    have hsome : (s.status c).isSome = true := by rw [hrun]; rfl
    rcases ht with ⟨rfl, -⟩ | ⟨rfl, -⟩
    · exact .worked c s' work ret _ hturn hsome hst rfl (.runBody hshape _)
    · exact .worked c s' work ret _ hturn hsome hst rfl (.microHalt hshape _)

/-- The discipline where the lock and the agents' statuses are as they were. -/
theorem LockDiscipline.of_same {s t : State} (hl : LockDiscipline s) (hlock : t.block.iorLock = s.block.iorLock)
    (hst : ∀ c, t.status c = s.status c) : LockDiscipline t where
  holder_running c hheld := by rw [hst]; exact hl.holder_running c (hlock ▸ hheld)
  running_shaped c work w rest ret hr := by rw [hlock]; exact hl.running_shaped c work w rest ret (hst c ▸ hr)

/-- A core that holds the lock where its work ends has the release left, so it waits inside an operation (R72). -/
theorem CoreLocks.status_of_held {c : CoreId} {b : Block} {h : Halt} (hlocks : CoreLocks c b h.left h.block)
    (hheld : h.block.iorLock = .held c) (work : Work) (ret : Ret) :
    ∃ w rest, h.status work ret = .running work w rest ret := by
  have hshape := hlocks.shaped
  rw [decide_eq_true hheld] at hshape
  cases h with
  | blocked w rest b' => exact ⟨w, rest, rfl⟩
  | _ => exact absurd hshape Bool.false_ne_true

/-- Core c's work done in order keeps what another core d has of the lock. -/
theorem CoreLocks.held_other_iff {c d : CoreId} {b b' : Block} {rest : List Micro} (h : CoreLocks c b rest b')
    (hd : d ≠ c) : b'.iorLock = .held d ↔ b.iorLock = .held d :=
  ⟨h.others d hd, fun hheld => (h.alone d hd hheld).iorLock.trans hheld⟩

/-- The discipline after core c's work was settled. -/
theorem LockDiscipline.settle {s s' : State} (hl : LockDiscipline s) {c : CoreId} {h : Halt}
    (hsome : (s.status c).isSome = true) (hst : ∀ d, s'.status d = s.status d)
    (hlocks : CoreLocks c s.block h.left h.block) (work : Work) (ret : Ret) :
    LockDiscipline (s'.settle c work ret h) := by
  refine ⟨fun d hheld => ?_, fun d work' w rest ret' hr => ?_⟩ <;> rw [settle_block] at *
  · rw [status_settle, hst, hst]
    by_cases hd : d = c
    · subst hd
      obtain ⟨st, hsome⟩ := Option.isSome_iff_exists.mp hsome
      obtain ⟨w, rest, hrun⟩ := hlocks.status_of_held hheld work ret
      exact ⟨work, w, rest, ret, by rw [if_pos rfl, hsome, Option.map_some, hrun]⟩
    · rw [if_neg hd]
      exact hl.holder_running d ((hlocks.held_other_iff hd).mp hheld)
  · rcases settle_running hr with ⟨rfl, -, -, rfl⟩ | ⟨hd, hother⟩
    · exact hlocks.shaped
    · rw [decide_eq_decide.mpr (hlocks.held_other_iff hd)]
      exact hl.running_shaped d work' w rest ret' (hst d ▸ hother)

end Sys2Proof.Machine

open Sys2Proof Sys2Proof.Machine

/-- Settles O57: every action of a core leaves its own part of the discipline and the others'. -/
theorem stepKeepsLockDiscipline : Obligations.StepKeepsLockDiscipline := by
  intro s t hl h
  cases hl.lockStep h with
  | same hr hst => exact hl.of_same hr.underLock.iorLock hst
  | worked c s' work ret halt hturn hsome hst ht hlocks => exact ht ▸ hl.settle hsome hst hlocks work ret

/-- Settles O59: the other core's actions neither take nor use the lock while core c holds it. -/
theorem lockHolderIsAloneAtTheRouter : Obligations.LockHolderIsAloneAtTheRouter := by
  intro s t c c' ts hl hheld hne hturns h
  have hsame : UnderLockSame s.block t.block := by
    cases hl.lockStep h with
    | same hr hst => exact hr.underLock
    | worked d s' work ret halt hturn hsome hst ht hlocks =>
      have hd : d = c' := by rcases hturns with he | he <;> simpa [he, eq_comm] using hturn
      subst hd ht
      rw [settle_block]
      exact hlocks.alone c hne.symm hheld
  exact ⟨hsame.iorIndex, hsame.rtes, hsame.iorLock.trans hheld⟩
end

section
/-! PROOFS. Accesses with no register and raw accesses (spec/20_memory.md R61 to R65), waiting for the device lock (R72) and
the run-once (R74), failed mappings (R70), and an operation as its single actions (R71). -/

namespace Sys2Proof.Machine

/-! ### Operations that are refused, and operations that wait -/

theorem runBody_refuse {c : CoreId} {m : Micro} {w : Word} {b : Block} {r : RefusalReason}
    (h : microStep c m w b = .refuse r) (ms : List Micro) : runBody c (m :: ms) w b = .refuse r (b.release c) := by
  rw [runBody_cons, h]

theorem runBody_wait {c : CoreId} {m : Micro} {w : Word} {b : Block} (h : microStep c m w b = .wait)
    (ms : List Micro) : runBody c (m :: ms) w b = .blocked w (m :: ms) b := by
  rw [runBody_cons, h]

/-- A ready caller whose actions end in a refusal has that refusal recorded. -/
theorem exec_of_refuse {s : State} (hr : CallerReady s) {i : Instr} {r : RefusalReason} {b : Block}
    (h : runBody s.caller (progOf s.block.cfg s.caller i).body 0#32 s.block = .refuse r b) :
    exec i s = .next (s.recordRefusal s.caller r (.call i) b) := by
  rw [exec_ready hr, h]
  rfl

/-- A ready caller whose actions end waiting is suspended before the action it waits for. -/
theorem exec_of_blocked {s : State} (hr : CallerReady s) {i : Instr} {w : Word} {rest : List Micro} {b : Block}
    (h : runBody s.caller (progOf s.block.cfg s.caller i).body 0#32 s.block = .blocked w rest b) :
    exec i s = .next (s.suspend s.caller (.call i) w rest (progOf s.block.cfg s.caller i).ret b) := by
  rw [exec_ready hr, h]
  rfl

/-! ### Offsets and indices with no register -/

/-- A misaligned offset reaches no register of the local-controller window (R65). -/
theorem lapicTarget_misaligned {cfg : Config} (h : ConfigSound cfg) {off : Word} (hoff : off.toNat % 4 ≠ 0) :
    lapicTarget cfg off = .error .unsupportedAccess := by
  have hbase := h.bases_aligned.1
  rw [lapicTarget, if_pos (by omega)]

/-- An aligned offset that is no register's is unmapped (R61). -/
theorem lapicTarget_unmapped {cfg : Config} (h : ConfigSound cfg) {off : Word} (hoff : off.toNat % 4 = 0)
    (hno : ∀ r ∈ lapicRegs, lapicOffset cfg r ≠ off) : lapicTarget cfg off = .error .unmappedOffset := by
  have hbase := h.bases_aligned.1
  have hnone : lapicRegAt cfg off = none := List.find?_eq_none.mpr fun r hr => by simpa using hno r hr
  rw [lapicTarget, if_neg (by omega), hnone]

/-- Both primitives are refused for the reason their offset is (R183). -/
theorem exec_lapic_of_error {s : State} (hr : CallerReady s) {off v : Word} {i : Instr}
    (hi : i ∈ [.lapicRead32 off, .lapicWrite32 off v]) {r : RefusalReason}
    (h : lapicTarget s.block.cfg off = .error r) :
    exec i s = .next (s.recordRefusal s.caller r (.call i) (s.block.release s.caller)) := by
  rcases List.mem_pair.mp hi with rfl | rfl
  · exact exec_of_refuse hr (runBody_refuse (by simp [microStep, lapicRead32, h]) _)
  · exact exec_of_refuse hr (runBody_refuse (by simp [microStep, lapicWrite32, h, Res.keeping]) _)

/-- An index that is neither the version register's nor a line's has no register (R63). -/
theorem iorRegAt_unmapped {cfg : Config} {idx : Byte} (hver : idx ≠ cfg.iorVerIndex)
    (hline : ∀ l, l < numLines cfg →
      cfg.iorRteBase.toNat + 2 * l ≠ idx.toNat ∧ cfg.iorRteBase.toNat + 2 * l + 1 ≠ idx.toNat) :
    iorRegAt cfg idx = none := by
  rw [iorRegAt, if_neg hver]
  split
  · have hge : ¬ (idx.toNat - cfg.iorRteBase.toNat) / 2 < numLines cfg := fun hlt => by
      obtain ⟨hlo, hhi⟩ := hline _ hlt
      omega
    exact if_neg hge
  · rfl

/-! ### The frame of a router operation -/

theorem microStep_requireIorInited {b : Block} (h : b.iorInited = true) (c : CoreId) (w : Word) :
    microStep c .requireIorInited w b = .ok w b := by
  simp [microStep, checkOr, h]

theorem microStep_lock_free {b : Block} (h : b.iorLock = .free) (c : CoreId) (w : Word) :
    microStep c .lock w b = .ok w { b with iorLock := .held c } := by
  simp [microStep, lockIor, h]

theorem microStep_lock_held {b : Block} {d : CoreId} (h : b.iorLock = .held d) (c : CoreId) (w : Word) :
    microStep c .lock w b = .wait := by
  simp [microStep, lockIor, h]

/-- A router operation takes the lock right after its prerequisite (R235). -/
theorem router_body_lock (cfg : Config) (c : CoreId) {i : Instr} (h : needsInitedRouter i = true) :
    ∃ ms, (progOf cfg c i).body = .requireIorInited :: .lock :: ms := by
  cases i <;> cases h <;> exact ⟨_, rfl⟩

/-- With its prerequisite met and the lock free a router operation goes on with its body under the lock (R235). -/
theorem runBody_router {s : State} (h : RouterReady s) (body : List Micro) :
    runBody s.caller (.requireIorInited :: .lock :: body) 0#32 s.block =
      runBody s.caller body 0#32 { s.block with iorLock := .held s.caller } := by
  obtain ⟨-, hinit, hfree⟩ := h
  rw [runBody_ok (microStep_requireIorInited hinit _ _), runBody_ok (microStep_lock_free hfree _ _)]

/-- A core that took a free lock and stops leaves the lock as one that did not take it. -/
theorem release_after_lock {b : Block} (h : b.iorLock = .free) (c : CoreId) :
    ({ b with iorLock := .held c } : Block).release c = b.release c := by
  simp [Block.release, h]

theorem microStep_dataRead_unmapped {b : Block} (h : iorRegAt b.cfg b.iorIndex = none) (c : CoreId) (w : Word) :
    microStep c .dataRead w b = .refuse .unmappedIndex := by
  simp [microStep, dataRead, h]

theorem microStep_dataWrite_unmapped {b : Block} (h : iorRegAt b.cfg b.iorIndex = none) (c : CoreId) (src : Src)
    (w : Word) : microStep c (.dataWrite src) w b = .refuse .unmappedIndex := by
  simp [microStep, dataWrite, h, Res.keeping]

/-- A router operation that writes the index register and whose next action is then refused (R230). -/
theorem exec_router_of_refuse {s : State} (h : RouterReady s) {i : Instr} {idx : Byte} {m : Micro} {ms : List Micro}
    {r : RefusalReason}
    (hbody : (progOf s.block.cfg s.caller i).body = .requireIorInited :: .lock :: .indexWrite idx :: m :: ms)
    (hm : microStep s.caller m 0#32 { s.block with iorLock := .held s.caller, iorIndex := idx } = .refuse r) :
    exec i s = .next (s.recordRefusal s.caller r (.call i) ({ s.block with iorIndex := idx }.release s.caller)) := by
  have ⟨hready, _, hfree⟩ := h
  refine exec_of_refuse hready ?_
  rw [hbody, runBody_router h, runBody_ok (microStep_indexWrite _ _ _ _), runBody_refuse hm]
  exact congrArg (Halt.refuse r) (release_after_lock (b := { s.block with iorIndex := idx }) hfree s.caller)

/-! ### The first actions of the two initializations -/

/-- A core that entered the run-once of `ior_init` and stops leaves its record as one that did not enter it (R74). -/
theorem release_after_iorOnce {b : Block} (h : b.iorRunner = none) (c : CoreId) :
    ({ b with iorRunner := some c } : Block).release c = b.release c := by
  simp [Block.release, h]

theorem microStep_iorOnce_first {b : Block} (hi : b.iorInited = false) (hr : b.iorRunner = none) (c : CoreId)
    (w : Word) : microStep c .iorOnce w b = .ok w { b with iorRunner := some c } := by
  simp [microStep, iorOnce, hi, hr]

theorem microStep_iorOnce_running {b : Block} {d : CoreId} (hi : b.iorInited = false) (hr : b.iorRunner = some d)
    (c : CoreId) (w : Word) : microStep c .iorOnce w b = .wait := by
  simp [microStep, iorOnce, hi, hr]

theorem microStep_mapIor_refused {b : Block} {c : CoreId} (h : (coreParams b.cfg c).iorMapOk = false) (w : Word) :
    microStep c .mapIor w b = .fault .unsupportedConfiguration := by
  simp [microStep, checkOr, h]

theorem microStep_mapLapic_refused {b : Block} {c : CoreId} (h : (coreParams b.cfg c).lapicMapOk = false) (w : Word) :
    microStep c .mapLapic w b = .fault .unsupportedConfiguration := by
  simp [microStep, checkOr, h]

theorem microStep_dispatch_mmio {b : Block} (h : b.enableType = .mmio) (c : CoreId) (w : Word) :
    microStep c .dispatch w b = .ok w b := by
  simp [microStep, dispatchTo, h]

theorem microStep_requireNotInited {b : Block} {c : CoreId} (h : (b.lapic c).inited = false) (w : Word) :
    microStep c .requireNotInited w b = .ok w b := by
  simp [microStep, checkOr, h]

/-- With the MMIO generation present `init_current_cpu` maps its window after its two checks (R186). -/
theorem initCurrentCpu_body {cfg : Config} (c : CoreId) (h : cfg.mmioGenPresent = true) :
    ∃ ms, (progOf cfg c .initCurrentCpu).body = .dispatch :: .requireNotInited :: .mapLapic :: ms := by
  simp only [progOf, progInitCurrentCpu, h, if_true]
  exact ⟨_, rfl⟩

/-! ### Raw accesses -/

/-- A turn of an idle core with a raw access to the block performs it, the turn and the request taken. -/
theorem step_of_idle_access {s : State} {c : CoreId} {ts : List Turn} {ag : Agent} {a : Access}
    {more : List Request} (hturn : s.turns = .op c :: ts) (hag : s.agents[c]? = some ag)
    (hidle : ag.status = .idle) (hprog : ag.program = .access a :: more) (ha : accessesBlock s.block.cfg a = true) :
    step s = .next (({ s with turns := ts }.fetched c more).settle c (.access a) (progAccess a).ret
      (runBody c [.access a] 0#32 s.block)) := by
  simp only [step, nextTurn, hturn, takeTurn, opTurn, hag, hidle, hprog, performRequest, ha, if_true]
  rfl

/-- A wrong width or alignment is refused whatever window it is in (R65). -/
theorem rawAccess_unsupported {a : Access} (h : a.width ≠ 4 ∨ a.addr % 4 ≠ 0) (c : CoreId) (b : Block) :
    rawAccess c a b = .refuse .unsupportedAccess := if_pos h

theorem lockedOut_of_free {b : Block} (h : b.iorLock = .free) (c : CoreId) : b.lockedOut c = false := by
  simp [Block.lockedOut, h]

/-- With the lock free, an aligned 32-bit access inside the router window reaches that window (R62). -/
theorem rawAccess_ior {b : Block} (hs : ConfigSound b.cfg) (hfree : b.iorLock = .free) {off : Nat}
    (halign : off % 4 = 0) (hin : off + 4 ≤ b.cfg.iorWindowSize) (value : Option Word) (c : CoreId) :
    rawAccess c ⟨b.cfg.iorBase + off, 4, value⟩ b = iorWindowAccess off value b := by
  have hbase := hs.bases_aligned.2
  have hdisjoint := hs.windows_disjoint
  have haddr : (b.cfg.iorBase + off) % 4 = 0 := by omega
  have hlapic : inLapicWindow b.cfg (b.cfg.iorBase + off) = false := by
    simp only [inLapicWindow, Bool.and_eq_false_iff, decide_eq_false_iff_not]
    omega
  have hior : inIorWindow b.cfg (b.cfg.iorBase + off) = true := by
    simp only [inIorWindow, Bool.and_eq_true, decide_eq_true_eq]
    omega
  simp [rawAccess, haddr, hlapic, hior, lockedOut_of_free hfree]

/-- A 32-bit write of the index register, with the lock free (R62, R30). -/
theorem rawAccess_indexWrite {b : Block} (hs : ConfigSound b.cfg) (hfree : b.iorLock = .free) (v : Word)
    (c : CoreId) :
    rawAccess c ⟨b.cfg.iorBase + b.cfg.iorRegSelOff.toNat, 4, some v⟩ b = .ok v (indexWrite v b) := by
  obtain ⟨-, halign, -, hin, -⟩ := hs.router_offsets
  rw [rawAccess_ior hs hfree halign hin, iorWindowAccess, if_pos rfl]

/-- A 32-bit read of the data register, with the lock free (R62, R63). -/
theorem rawAccess_dataRead {b : Block} (hs : ConfigSound b.cfg) (hfree : b.iorLock = .free) (c : CoreId) :
    rawAccess c ⟨b.cfg.iorBase + b.cfg.iorWinOff.toNat, 4, none⟩ b = dataRead b := by
  obtain ⟨hne, -, halign, -, hin⟩ := hs.router_offsets
  have hoff : b.cfg.iorWinOff.toNat ≠ b.cfg.iorRegSelOff.toNat := fun he => hne (BitVec.eq_of_toNat_eq he.symm)
  rw [rawAccess_ior hs hfree halign hin, iorWindowAccess, if_neg hoff, if_pos rfl]

/-- The value an operation returned is kept as its core's result (log entry 1). -/
theorem result_complete (s : State) (c : CoreId) (v : Value) (b : Block) :
    ((s.complete c v b).agents[c]?).map Agent.result = (s.agents[c]?).map fun _ => some v := by
  simp [State.complete, Function.comp_def]

/-! ### An operation as its single actions -/

/-- Settling a core's work does not depend on what the core was suspended with. -/
theorem settle_suspend (s : State) (c : CoreId) (work : Work) (w : Word) (rest : List Micro) (ret ret' : Ret)
    (b : Block) (h : Halt) : (s.suspend c work w rest ret b).settle c work ret' h = s.settle c work ret' h := by
  cases h <;>
    simp [State.settle, State.complete, State.suspend, State.recordFault, State.recordRefusal, State.setStatus,
      List.modify_modify_eq, Function.comp_def]

/-- A core that has stopped has no action left (R284). -/
theorem advance_of_stopped {s : State} {c : CoreId} {st : Status} (h : s.status c = some st)
    (hst : st.stopped = true) : s.advance c = s := by
  cases st with
  | idle => exact absurd hst Bool.false_ne_true
  | running work w rest ret => exact absurd hst Bool.false_ne_true
  | faulted r work => simp only [State.advance, h]
  | refused r work => simp only [State.advance, h]

section

variable {s : State} {c : CoreId} {st : Status} (hst : s.status c = some st) (work : Work) (ret : Ret)
include hst

/-- A single action of a core suspended before the actions `ms`. -/
theorem advance_suspend (ms : List Micro) (w : Word) (b : Block) :
    (s.suspend c work w ms ret b).advance c = s.settle c work ret (microHalt c w ms b) := by
  have hrun : (s.suspend c work w ms ret b).status c = some (.running work w ms ret) := by
    rw [status_suspend, if_pos rfl, hst, Option.map_some]
  rw [advance_running hrun, settle_suspend, suspend_block]

/-- A core whose work ended in a fault or a refusal stays as it is. -/
theorem advance_settle_stopped {h : Halt} (hstop : (h.status work ret).stopped = true) :
    (s.settle c work ret h).advance c = s.settle c work ret h := by
  refine advance_of_stopped (st := h.status work ret) ?_ hstop
  rw [status_settle, if_pos rfl, hst, Option.map_some]

/-- The actions `ms` one by one, and the return after them, come to what they come to at once: a core that waits or has
stopped on the way stays as it is (R71). -/
theorem iterate_advance_suspend (ms : List Micro) (w : Word) (b : Block) :
    (fun t : State => t.advance c)^[ms.length + 1] (s.suspend c work w ms ret b) =
      s.settle c work ret (runBody c ms w b) := by
  induction ms generalizing w b with
  | nil => exact advance_suspend hst work ret [] w b
  | cons m ms ih =>
    have hfirst := advance_suspend hst work ret (m :: ms) w b
    rw [microHalt] at hfirst
    rw [Function.iterate_succ_apply, runBody_cons, hfirst]
    cases hm : microStep c m w b with
    | ok w' b' => exact ih w' b'
    | wait =>
      rw [hm] at hfirst
      exact Function.iterate_fixed hfirst _
    | fault r => exact Function.iterate_fixed (advance_settle_stopped hst work ret rfl) _
    | refuse r => exact Function.iterate_fixed (advance_settle_stopped hst work ret rfl) _

end

end Sys2Proof.Machine

open Sys2Proof Sys2Proof.Machine

/-- Settles O30, from the register an offset reaches. -/
theorem lapicAccessWithNoRegisterIsRefused : Obligations.LapicAccessWithNoRegisterIsRefused :=
  fun _ _ _ _ hready hs hi =>
    ⟨fun hoff => exec_lapic_of_error hready hi (lapicTarget_misaligned hs hoff),
      fun hoff hno => exec_lapic_of_error hready hi (lapicTarget_unmapped hs hoff hno)⟩

/-- Settles O31: the lock is the second action of a router operation, the run-once the first of `ior_init`. -/
theorem routerOperationsWait : Obligations.RouterOperationsWait := by
  intro s i c hready
  refine ⟨fun hneeds hinit hheld => ?_, fun hinit hrunner => ?_⟩
  · obtain ⟨ms, hbody⟩ := router_body_lock s.block.cfg s.caller hneeds
    refine ⟨ms, _, exec_of_blocked hready ?_⟩
    rw [hbody, runBody_ok (microStep_requireIorInited hinit _ _), runBody_wait (microStep_lock_held hheld _ _)]
  · exact ⟨_, _, exec_of_blocked hready (runBody_wait (microStep_iorOnce_running hinit hrunner _ _) _)⟩

/-- Settles O36: the index is written under the lock and the data access then refused. -/
theorem unmappedIndexIsRefused : Obligations.UnmappedIndexIsRefused := by
  intro s idx v i hready hi hver hline
  have hnone := iorRegAt_unmapped hver hline
  rcases List.mem_pair.mp hi with rfl | rfl
  · exact exec_router_of_refuse hready rfl (microStep_dataRead_unmapped hnone _ _)
  · exact exec_router_of_refuse hready rfl (microStep_dataWrite_unmapped hnone _ _ _)

/-- Settles O47, from what a raw access of each kind comes to. -/
theorem rawWindowAccesses : Obligations.RawWindowAccesses := by
  intro s c a more ts ag hturn hag hidle hprog hs ha
  have hcore : (({ s with turns := ts } : State).fetched c more).status c = some .idle := by
    rw [status_fetched]
    exact (status_of_agent hag).trans (by rw [hidle])
  refine ⟨_, step_of_idle_access hturn hag hidle hprog ha, fun hbad => ?_, fun v hv hfree => ?_,
    fun hv hfree hindex => ?_⟩
  · rw [runBody_refuse (m := .access a) (rawAccess_unsupported hbad c s.block)]
    exact ⟨by rw [status_settle, if_pos rfl, hcore]; rfl, rfl, rfl⟩
  · subst hv
    rw [runBody_ok (m := .access _) (rawAccess_indexWrite hs hfree v c)]
    exact ⟨by rw [status_settle, if_pos rfl, hcore]; rfl, rfl⟩
  · subst hv
    have hread := (rawAccess_dataRead hs hfree c).trans (microStep_dataRead_version c 0#32 s.block hindex)
    rw [runBody_ok (m := .access _) hread]
    refine ⟨by rw [status_settle, if_pos rfl, hcore]; rfl, rfl, (result_complete _ c _ _).trans ?_⟩
    simp [State.fetched, hag, progAccess, Ret.value]

/-- Settles O50, by induction on the operation's actions. -/
theorem singleActionsRefineTheOperation : Obligations.SingleActionsRefineTheOperation := by
  intro s i hready
  rw [exec_ready hready, iterate_advance_suspend hready]

/-- Settles O18: the mapping is refused right after the entry checks, and what was taken is released. -/
theorem failedMappingIsUnsupportedConfiguration : Obligations.FailedMappingIsUnsupportedConfiguration := by
  intro s hready
  refine ⟨fun hmmio hninit hgen hmap => exec_of_fault hready ?_, fun hninit hnone hmap => exec_of_fault hready ?_⟩
  · obtain ⟨ms, hbody⟩ := initCurrentCpu_body s.caller hgen
    rw [hbody, runBody_ok (microStep_dispatch_mmio hmmio _ _), runBody_ok (microStep_requireNotInited hninit _),
      runBody_fault (microStep_mapLapic_refused hmap _)]
  · rw [← release_after_iorOnce hnone]
    exact (runBody_ok (microStep_iorOnce_first hninit hnone _ _) _).trans
      (runBody_fault (microStep_mapIor_refused (b := { s.block with iorRunner := some s.caller }) hmap _) _)
end

section
/-! PROOFS. Decoder and encoder agree (spec/30_encoding.md R113, R114; log entry 2): what each reader of operands takes
off the front of a byte list, as an equivalence with the bytes the encoder writes, up to whole requests. -/

namespace Sys2Proof

/-! ### Codes -/

/-- The list finds each value by its code, so no two values have the same one. -/
def ListsCodes {α : Type} (all : List α) (code : α → Byte) : Prop :=
  ∀ x, all.find? (fun y => code y == code x) = some x

theorem ListsCodes.find?_eq_some {α : Type} {all : List α} {code : α → Byte} (h : ListsCodes all code) {b : Byte}
    {x : α} : all.find? (fun y => code y == b) = some x ↔ b = code x := by
  constructor
  · intro hfind
    exact (beq_iff_eq.mp (List.find?_some hfind :)).symm
  · rintro rfl
    exact h x

@[simp] theorem Kind.listsCodes : ListsCodes Kind.all Kind.code := by intro x; cases x <;> rfl

@[simp] theorem DeliveryMode.listsCodes : ListsCodes DeliveryMode.all DeliveryMode.byte := by intro x; cases x <;> rfl

@[simp] theorem Polarity.listsCodes : ListsCodes Polarity.all Polarity.byte := by intro x; cases x <;> rfl

@[simp] theorem TriggerMode.listsCodes : ListsCodes TriggerMode.all TriggerMode.byte := by intro x; cases x <;> rfl

@[simp] theorem TimerMode.listsCodes : ListsCodes TimerMode.all TimerMode.byte := by intro x; cases x <;> rfl

@[simp] theorem IpiMode.listsCodes : ListsCodes IpiMode.all IpiMode.byte := by intro x; cases x <;> rfl

@[simp] theorem DestMode.listsCodes : ListsCodes DestMode.all DestMode.byte := by intro x; cases x <;> rfl

@[simp] theorem IpiLevel.listsCodes : ListsCodes IpiLevel.all IpiLevel.byte := by intro x; cases x <;> rfl

@[simp] theorem Shorthand.listsCodes : ListsCodes Shorthand.all Shorthand.byte := by intro x; cases x <;> rfl

@[simp] theorem listsCodes_bool : ListsCodes [false, true] boolByte := by intro x; cases x <;> rfl

@[simp] theorem Opcode.listsCodes : ListsCodes Opcode.all Opcode.selector := by intro x; cases x <;> rfl

theorem Opcode.ofSelector_eq_some {b : Byte} {op : Opcode} : Opcode.ofSelector b = some op ↔ b = op.selector :=
  Opcode.listsCodes.find?_eq_some

/-- The selectors of R113 are 0x00 to 0x1D and 0x20 to 0x29. -/
theorem Opcode.selector_range (op : Opcode) :
    op.selector.toNat < 0x1E ∨ 0x20 ≤ op.selector.toNat ∧ op.selector.toNat < 0x2A := by
  cases op <;> decide

theorem Opcode.ofSelector_unlisted {b : Byte} (h : b.toNat = 0x1E ∨ b.toNat = 0x1F ∨ 0x2A ≤ b.toNat) :
    Opcode.ofSelector b = none := by
  refine Option.eq_none_iff_forall_ne_some.mpr fun op hop => ?_
  obtain rfl := Opcode.ofSelector_eq_some.mp hop
  have hrange := op.selector_range
  omega

/-! ### Words -/

theorem wordBytes_append (b0 b1 b2 b3 : Byte) : wordBytes (b3 ++ b2 ++ b1 ++ b0) = [b0, b1, b2, b3] := by
  simp only [wordBytes, List.cons.injEq, and_true]
  refine ⟨?_, ?_, ?_, ?_⟩ <;> ext i hi <;> grind

theorem append_wordBytes (w : Word) :
    w.extractLsb' 24 8 ++ w.extractLsb' 16 8 ++ w.extractLsb' 8 8 ++ w.extractLsb' 0 8 = w := by
  rw [BitVec.extractLsb'_append_extractLsb'_eq_extractLsb' (by rfl),
    BitVec.extractLsb'_append_extractLsb'_eq_extractLsb' (by rfl),
    BitVec.extractLsb'_append_extractLsb'_eq_extractLsb' (by rfl), BitVec.extractLsb'_eq_self]

/-! ### Operands: a reader answers `a` and `rest` exactly on the bytes of `a` followed by `rest` -/

section Operands

variable {α β : Type} {bs rest : List Byte}

theorem thenTake_eq_ok {p : Parse α} {f : α → List Byte → Parse β} {x : β × List Byte} :
    thenTake p f = .ok x ↔ ∃ a mid, p = .ok (a, mid) ∧ f a mid = .ok x := by
  rcases p with e | ⟨a, mid⟩ <;> simp [thenTake]

@[simp] theorem takeByte_eq_ok {b : Byte} : takeByte bs = .ok (b, rest) ↔ bs = b :: rest := by
  cases bs <;> simp [takeByte]

@[simp] theorem takeWord_eq_ok {w : Word} : takeWord bs = .ok (w, rest) ↔ bs = wordBytes w ++ rest := by
  constructor
  · intro h
    unfold takeWord at h
    split at h
    · cases h
      rw [wordBytes_append]
      rfl
    · cases h
  · rintro rfl
    exact congrArg (fun v => Except.ok (v, rest)) (append_wordBytes w)

@[simp] theorem takeCode_eq_ok {all : List α} {code : α → Byte} (h : ListsCodes all code) {x : α} :
    takeCode all code bs = .ok (x, rest) ↔ bs = code x :: rest := by
  cases bs with
  | nil => simp [takeCode]
  | cons b bs =>
    rw [List.cons.injEq, ← h.find?_eq_some, takeCode]
    cases all.find? (fun y => code y == b) <;> simp

@[simp] theorem takeKind_eq_ok {k : Kind} : takeKind bs = .ok (k, rest) ↔ bs = k.code :: rest :=
  takeCode_eq_ok Kind.listsCodes

@[simp] theorem takeBool_eq_ok {b : Bool} : takeBool bs = .ok (b, rest) ↔ bs = boolByte b :: rest :=
  takeCode_eq_ok listsCodes_bool

@[simp] theorem takeEntry_eq_ok {e : Entry} : takeEntry bs = .ok (e, rest) ↔ bs = entryBytes e ++ rest := by
  obtain ⟨k, w⟩ := e
  simp [takeEntry, thenTake_eq_ok, entryBytes]

@[simp] theorem takeDescriptor_eq_ok {d : IpiDescriptor} :
    takeDescriptor bs = .ok (d, rest) ↔ bs = descriptorBytes d ++ rest := by
  obtain ⟨v, m, dm, lv, tr, sh, dest⟩ := d
  simp [takeDescriptor, thenTake_eq_ok, descriptorBytes]

/-- A line number is read only below 2^32, where the four bytes hold it whole. -/
@[simp] theorem takeLine_eq_ok {l : Nat} :
    takeLine bs = .ok (l, rest) ↔ l < lineBound ∧ bs = lineBytes l ++ rest := by
  simp only [takeLine, thenTake_eq_ok, takeWord_eq_ok, Except.ok.injEq, Prod.mk.injEq]
  constructor
  · rintro ⟨w, mid, rfl, rfl, rfl⟩
    exact ⟨w.isLt, by rw [lineBytes, BitVec.ofNat_toNat, BitVec.setWidth_eq]⟩
  · rintro ⟨hl, rfl⟩
    exact ⟨_, _, rfl, (BitVec.toNat_ofNat l 32).trans (Nat.mod_eq_of_lt hl), rfl⟩

/-! ### The operands of an operation -/

variable {i : Instr}

@[simp] theorem takeOne_eq_ok {take : List Byte → Parse α} {f : α → Instr} :
    takeOne take f bs = .ok (i, rest) ↔ ∃ a, take bs = .ok (a, rest) ∧ f a = i := by
  simp [takeOne, thenTake_eq_ok]

@[simp] theorem takeTwo_eq_ok {ta : List Byte → Parse α} {tb : List Byte → Parse β} {f : α → β → Instr} :
    takeTwo ta tb f bs = .ok (i, rest) ↔
      ∃ a mid, ta bs = .ok (a, mid) ∧ ∃ b, tb mid = .ok (b, rest) ∧ f a b = i := by
  simp [takeTwo, thenTake_eq_ok]

@[simp] theorem takeOnEntry_eq_ok {f : Entry → Instr} :
    takeOnEntry f bs = .ok (i, rest) ↔ ∃ e, takeEntry bs = .ok (e, rest) ∧ f e = i :=
  takeOne_eq_ok

@[simp] theorem takeOnEntryAnd_eq_ok {take : List Byte → Parse α} {f : Entry → α → Instr} :
    takeOnEntryAnd take f bs = .ok (i, rest) ↔
      ∃ e mid, takeEntry bs = .ok (e, mid) ∧ ∃ a, take mid = .ok (a, rest) ∧ f e a = i :=
  takeTwo_eq_ok

@[simp] theorem takeConfigure_eq_ok :
    takeConfigure bs = .ok (i, rest) ↔ ∃ l v d level activeHigh logical mask,
      (l < lineBound ∧ bs = (Instr.configure l v d level activeHigh logical mask).operandBytes ++ rest) ∧
      .configure l v d level activeHigh logical mask = i := by
  simp [takeConfigure, thenTake_eq_ok, Instr.operandBytes, -Bool.exists_bool]

/-- An operation with its operands is read only from their bytes: one case for each shape of operand list. -/
theorem takeOperands_sound {op : Opcode} (h : takeOperands op bs = .ok (i, rest)) :
    i.opcode = op ∧ i.wf = true ∧ bs = i.operandBytes ++ rest := by
  cases op with
  | facadeSelect | supported | initCurrentCpu | sendEoi | version | supportsEoiBroadcastSuppression | maxLvtEntries
  | readId | maskAll | supportedInterrupts | iorInit | disableAll =>
    cases h
    exact ⟨rfl, rfl, rfl⟩
  | lvtEncode | lvtVector | lvtDeliveryMode | lvtPolarity | lvtTriggerMode | lvtMask | lvtTimerMode | setLvt =>
    obtain ⟨e, he, rfl⟩ := takeOnEntry_eq_ok.mp h
    exact ⟨rfl, rfl, takeEntry_eq_ok.mp he⟩
  | lvtSetVector | lvtSetDeliveryMode | lvtSetPolarity | lvtSetTriggerMode | lvtSetMask | lvtSetTimerMode =>
    obtain ⟨e, mid, he, a, ha, rfl⟩ := takeOnEntryAnd_eq_ok.mp h
    simp_all [Instr.opcode, Instr.wf, Instr.operandBytes]
  | lvtDeliveryStatus | lvtNew | readLvt | writeInterruptCommand | lapicRead32 | iorReadReg | disable | vectorOf =>
    obtain ⟨a, ha, rfl⟩ := takeOne_eq_ok.mp h
    simpa [Instr.opcode, Instr.wf, Instr.operandBytes] using ha
  | lvtDecode | lapicWrite32 | iorWriteReg | enable | setVector =>
    obtain ⟨a, mid, ha, b, hb, rfl⟩ := takeTwo_eq_ok.mp h
    simp_all [Instr.opcode, Instr.wf, Instr.operandBytes]
  | configure =>
    obtain ⟨l, v, d, level, activeHigh, logical, mask, ⟨hl, hbs⟩, rfl⟩ := takeConfigure_eq_ok.mp h
    exact ⟨rfl, decide_eq_true hl, hbs⟩

theorem takeOperands_operandBytes (hwf : i.wf = true) (rest : List Byte) :
    takeOperands i.opcode (i.operandBytes ++ rest) = .ok (i, rest) := by
  cases i <;> simp_all [Instr.opcode, Instr.wf, Instr.operandBytes, takeOperands, -Bool.exists_bool]

theorem takeOperands_eq_ok {op : Opcode} :
    takeOperands op bs = .ok (i, rest) ↔ i.opcode = op ∧ i.wf = true ∧ bs = i.operandBytes ++ rest := by
  constructor
  · exact takeOperands_sound
  · rintro ⟨rfl, hwf, rfl⟩
    exact takeOperands_operandBytes hwf rest

end Operands

/-! ### Whole requests -/

theorem encode_eq (i : Instr) :
    encode i = i.opcode.selector :: (i.operandBytes ++ List.replicate (11 - i.operandBytes.length) 0#8) := by
  simp [encode, requestLength]

theorem operandBytes_length_le (i : Instr) : i.operandBytes.length ≤ 11 := by
  cases i <;> simp [Instr.operandBytes, entryBytes, lineBytes, wordBytes, descriptorBytes]

/-- What the decoder accepts: a selector, the operands of its operation, and zero bytes up to the twelfth. -/
theorem decode_cons_eq_ok {sel : Byte} {operands : List Byte} {i : Instr} :
    decode (sel :: operands) = .ok i ↔ operands.length = 11 ∧ ∃ op rest,
      Opcode.ofSelector sel = some op ∧ takeOperands op operands = .ok (i, rest) ∧ ∀ b ∈ rest, b = 0#8 := by
  unfold decode
  by_cases hlen : operands.length = 11
  · cases hop : Opcode.ofSelector sel with
    | none => simp [hlen, requestLength, hop]
    | some op =>
      rcases htake : takeOperands op operands with e | ⟨j, rest⟩
      · simp [hlen, requestLength, hop, htake]
      · simp [hlen, requestLength, hop, htake, ite_eq_iff, and_comm]
  · simp [hlen, requestLength]

theorem decode_eq_ok {bs : List Byte} {i : Instr} : decode bs = .ok i ↔ i.wf = true ∧ bs = encode i := by
  cases bs with
  | nil => simp [decode, requestLength, encode_eq]
  | cons sel operands =>
    rw [decode_cons_eq_ok, encode_eq, List.cons.injEq]
    constructor
    · rintro ⟨hlen, op, rest, hsel, htake, hzero⟩
      obtain ⟨rfl, hwf, rfl⟩ := takeOperands_eq_ok.mp htake
      have hrest : rest.length = 11 - i.operandBytes.length := by
        rw [List.length_append] at hlen
        omega
      rw [← hrest, ← List.eq_replicate_of_mem hzero]
      exact ⟨hwf, Opcode.ofSelector_eq_some.mp hsel, rfl⟩
    · rintro ⟨hwf, rfl, rfl⟩
      have hle := operandBytes_length_le i
      refine ⟨?_, _, _, Opcode.ofSelector_eq_some.mpr rfl, takeOperands_operandBytes hwf _,
        fun _ => List.eq_of_mem_replicate⟩
      rw [List.length_append, List.length_replicate]
      omega

end Sys2Proof

open Sys2Proof

/-- Settles O1, from what decodes to a given operation. -/
theorem decodeOfEncodeIsTheOperation : Obligations.DecodeOfEncodeIsTheOperation :=
  fun _ hwf => decode_eq_ok.mpr ⟨hwf, rfl⟩

/-- Settles O2: the same equivalence from the left, and no selector of R113 is unlisted. -/
theorem decodedRequestIsItsEncoding : Obligations.DecodedRequestIsItsEncoding := by
  refine ⟨fun _ _ h => decode_eq_ok.mp h, fun sel operands hlen hsel => ?_⟩
  simp [decode, requestLength, hlen, Opcode.ofSelector_unlisted hsel]

/-- Settles O3, by decoding. -/
theorem writtenOutRequestsDecode : Obligations.WrittenOutRequestsDecode := by
  refine ⟨?_, ?_, ?_, ?_, ?_, ?_⟩ <;> decide
end

section
/-! PROOFS. The LVT codec (spec/40_lvt_codec.md R130 to R149): each operation returns its pure function's value, each
setter replaces one field of the word, and what that leaves unchanged. -/

namespace Sys2Proof.Machine

/-- A codec operation of a ready caller returns its value and changes nothing of the block (R130). -/
theorem exec_pure {s : State} (h : CallerReady s) {i : Instr} {v : Value}
    (hp : progOf s.block.cfg s.caller i = progPure v) : exec i s = .next (s.complete s.caller v s.block) := by
  rw [exec_ready h, hp]
  rfl

/-- An optional setter's answer: its entry in the kinds that have the field, else InvalidArgument. -/
theorem entryOrInvalid_ite {p : Prop} [Decidable p] (e : Entry) :
    entryOrInvalid (if p then some e else none) = if p then .entry e else .invalidArgument := by
  split <;> rfl

/-! ### Which kinds have a field (R90) -/

theorem hasDeliveryMode_iff (k : Kind) : k.hasDeliveryMode = true ↔ k ≠ .timer ∧ k ≠ .error := by
  cases k <;> simp [Kind.hasDeliveryMode]

theorem isPin_iff (k : Kind) : isPin k = true ↔ k = .lint0 ∨ k = .lint1 := by
  cases k <;> simp [isPin]

theorem lvtPolarity_eq (e : Entry) : lvtPolarity e =
    if e.kind = .lint0 ∨ e.kind = .lint1 then some (if e.raw.getLsbD 13 then .activeLow else .activeHigh) else none :=
  if_congr (isPin_iff e.kind) rfl rfl

theorem lvtTriggerMode_eq (e : Entry) : lvtTriggerMode e =
    if e.kind = .lint0 ∨ e.kind = .lint1 then some (if e.raw.getLsbD 15 then .level else .edge) else none :=
  if_congr (isPin_iff e.kind) rfl rfl

/-! ### Well-formed entries (R130, R133) -/

/-- The delivery-mode field holds a reserved code exactly when the getter's conversion fails (R93, R137). -/
theorem lvtDeliveryMode_reserved_iff (e : Entry) : lvtDeliveryMode e = some none ↔
    e.kind.hasDeliveryMode = true ∧ (modeField e.raw = 1#3 ∨ modeField e.raw = 3#3) := by
  simp [lvtDeliveryMode, dmFromBits_none_iff]

/-- The timer-mode field holds the reserved code exactly when the getter's conversion fails (R98, R142). -/
theorem lvtTimerMode_reserved_iff (e : Entry) :
    lvtTimerMode e = some none ↔ e.kind = .timer ∧ timerField e.raw = 3#2 := by
  simp [lvtTimerMode, tmFromBits_none_iff]

/-- An entry is well-formed when neither enumerant getter's conversion fails. -/
theorem wf_iff (e : Entry) : e.wf = true ↔ lvtDeliveryMode e ≠ some none ∧ lvtTimerMode e ≠ some none := by
  rw [Ne, lvtDeliveryMode_reserved_iff, Ne, lvtTimerMode_reserved_iff]
  simp [Entry.wf, modeField, timerField, imp_iff_not_or]

theorem lvtDecode_eq (k : Kind) (raw : Word) :
    lvtDecode k raw = if (⟨k, raw⟩ : Entry).wf = true then some ⟨k, raw⟩ else none := by
  have hd : (k.hasDeliveryMode && (dmFromBits (modeField raw)).isNone) = true ↔
      lvtDeliveryMode ⟨k, raw⟩ = some none := by
    simp [lvtDeliveryMode]
  have ht : (k = .timer && (tmFromBits (timerField raw)).isNone) = true ↔ lvtTimerMode ⟨k, raw⟩ = some none := by
    simp [lvtTimerMode]
  rw [lvtDecode, ← ite_or, if_congr (or_congr hd ht) rfl rfl]
  simp only [wf_iff, ne_eq, ← not_or, ite_not]

theorem lvtDecode_of_wf {e : Entry} (h : e.wf = true) : lvtDecode e.kind e.raw = some e := by
  rw [lvtDecode_eq, if_pos h]

theorem wf_of_modes_kept {e e' : Entry} (h : e.wf = true) (hd : lvtDeliveryMode e' = lvtDeliveryMode e)
    (ht : lvtTimerMode e' = lvtTimerMode e) : e'.wf = true := by
  rw [wf_iff] at h ⊢
  rwa [hd, ht]

theorem wf_lvtNew (k : Kind) : (lvtNew k).wf = true := by
  cases k <;> decide

/-! ### Bits of a word with a field replaced (R9) -/

section Setbits

variable {w v : Word} {hi lo i : Nat}

theorem getLsbD_fieldMask :
    (fieldMask hi lo).getLsbD i = (decide (i < 32) && decide (lo ≤ i) && decide (i - lo ≤ hi - lo)) := by
  rw [Bool.eq_iff_iff]
  simp only [fieldMask, BitVec.getLsbD_shiftLeft, BitVec.getLsbD_ushiftRight, BitVec.getLsbD_allOnes,
    Bool.and_eq_true, Bool.not_eq_true', decide_eq_true_eq, decide_eq_false_iff_not]
  omega

theorem getLsbD_setbits_of_mem (hi32 : i < 32) (hlo : lo ≤ i) (hhi : i ≤ hi) :
    (setbits w hi lo v).getLsbD i = v.getLsbD (i - lo) := by
  have hsub : i - lo ≤ hi - lo := by omega
  simp only [setbits, BitVec.getLsbD_or, BitVec.getLsbD_and, BitVec.getLsbD_not, BitVec.getLsbD_shiftLeft,
    getLsbD_fieldMask]
  simp [hi32, hlo, hsub, Nat.not_lt.mpr hlo]

theorem getLsbD_setbits_of_not_mem (hle : lo ≤ hi) (h : i < lo ∨ hi < i) :
    (setbits w hi lo v).getLsbD i = w.getLsbD i := by
  have hmask : (fieldMask hi lo).getLsbD i = false := by
    rw [getLsbD_fieldMask]
    simp
    omega
  simp only [setbits, BitVec.getLsbD_or, BitVec.getLsbD_and, BitVec.getLsbD_not, hmask]
  by_cases hi32 : i < 32
  · simp [hi32]
  · simp [hi32, BitVec.getLsbD_of_ge w i (Nat.le_of_not_lt hi32)]

/-- The field replaced holds the value written. -/
theorem extractLsb'_setbits {len : Nat} (x : BitVec len) (hlen : lo + len = hi + 1) (h32 : hi < 32) :
    (setbits w hi lo (x.setWidth 32)).extractLsb' lo len = x := by
  ext j hj
  rw [BitVec.getElem_extractLsb', getLsbD_setbits_of_mem (by omega) (by omega) (by omega), Nat.add_sub_cancel_left]
  simp [BitVec.getLsbD_setWidth, BitVec.getLsbD_eq_getElem hj]
  omega

end Setbits

/-! ### What a setter keeps (R149) -/

/-- Entry e' is e with bits hi..lo of its word replaced. -/
structure FieldReplaced (e e' : Entry) (hi lo : Nat) : Prop where
  kind : e'.kind = e.kind
  bit : ∀ i, i < lo ∨ hi < i → e'.raw.getLsbD i = e.raw.getLsbD i

section FieldReplaced

variable {e e' : Entry} {hi lo : Nat}

theorem fieldReplaced_setbits (hle : lo ≤ hi) (v : Word) : FieldReplaced e ⟨e.kind, setbits e.raw hi lo v⟩ hi lo :=
  ⟨rfl, fun _ h => getLsbD_setbits_of_not_mem hle h⟩

theorem FieldReplaced.field (h : FieldReplaced e e' hi lo) {start len : Nat} (hd : start + len ≤ lo ∨ hi < start) :
    e'.raw.extractLsb' start len = e.raw.extractLsb' start len := by
  ext j hj
  simp only [BitVec.getElem_extractLsb']
  exact h.bit _ (by omega)

theorem FieldReplaced.vector (h : FieldReplaced e e' hi lo) (hd : 8 ≤ lo) : lvtVector e' = lvtVector e :=
  h.field (.inl hd)

theorem FieldReplaced.deliveryMode (h : FieldReplaced e e' hi lo) (hd : 11 ≤ lo ∨ hi < 8) :
    lvtDeliveryMode e' = lvtDeliveryMode e := by
  have hfield : modeField e'.raw = modeField e.raw := h.field hd
  rw [lvtDeliveryMode, lvtDeliveryMode, h.kind, hfield]

theorem FieldReplaced.polarity (h : FieldReplaced e e' hi lo) (hd : 13 < lo ∨ hi < 13) :
    lvtPolarity e' = lvtPolarity e := by
  have hbit : bitOf e'.raw 13 = bitOf e.raw 13 := h.bit 13 hd
  rw [lvtPolarity, lvtPolarity, h.kind, hbit]

theorem FieldReplaced.triggerMode (h : FieldReplaced e e' hi lo) (hd : 15 < lo ∨ hi < 15) :
    lvtTriggerMode e' = lvtTriggerMode e := by
  have hbit : bitOf e'.raw 15 = bitOf e.raw 15 := h.bit 15 hd
  rw [lvtTriggerMode, lvtTriggerMode, h.kind, hbit]

theorem FieldReplaced.mask (h : FieldReplaced e e' hi lo) (hd : 16 < lo ∨ hi < 16) : lvtMask e' = lvtMask e :=
  h.bit 16 hd

theorem FieldReplaced.timerMode (h : FieldReplaced e e' hi lo) (hd : 19 ≤ lo ∨ hi < 17) :
    lvtTimerMode e' = lvtTimerMode e := by
  have hfield : timerField e'.raw = timerField e.raw := h.field hd
  rw [lvtTimerMode, lvtTimerMode, h.kind, hfield]

/-- Every bit outside the field is kept, and with bit 12 the delivery status. -/
theorem FieldReplaced.sameBits (h : FieldReplaced e e' hi lo) (hd : 12 < lo ∨ hi < 12) {m : Word}
    (hm : m = ~~~fieldMask hi lo) : SameBits e e' m := by
  have hstatus : bitOf (lvtEncode e') 12 = bitOf (lvtEncode e) 12 := h.bit 12 hd
  refine ⟨h.kind, ?_, by rw [lvtDeliveryStatus, lvtDeliveryStatus, hstatus]⟩
  ext i hi32
  have hbit := h.bit i
  have hmask : (fieldMask hi lo)[i] = _ := (BitVec.getLsbD_eq_getElem hi32).symm.trans getLsbD_fieldMask
  simp only [BitVec.getLsbD_eq_getElem hi32] at hbit
  simp only [hm, BitVec.getElem_and, BitVec.getElem_not, hmask]
  by_cases hin : i < lo ∨ hi < i
  · rw [hbit hin]
  · simp [hi32, show lo ≤ i by omega, show i - lo ≤ hi - lo by omega]

end FieldReplaced

/-! ### What each setter returns (R143 to R148) -/

section Setters

variable {e e' : Entry}

theorem lvtSetDeliveryMode_eq_some {m : DeliveryMode} : lvtSetDeliveryMode e m = some e' ↔
    e.kind.hasDeliveryMode = true ∧ e' = ⟨e.kind, setbits e.raw 10 8 ((dmCode m).setWidth 32)⟩ := by
  simp [lvtSetDeliveryMode, eq_comm (a := e')]

theorem lvtSetPolarity_eq_some {p : Polarity} : lvtSetPolarity e p = some e' ↔
    isPin e.kind = true ∧ e' = ⟨e.kind, setbits e.raw 13 13 (if p = .activeLow then 1#32 else 0#32)⟩ := by
  simp [lvtSetPolarity, eq_comm (a := e')]

theorem lvtSetTriggerMode_eq_some {t : TriggerMode} : lvtSetTriggerMode e t = some e' ↔
    isPin e.kind = true ∧ e' = ⟨e.kind, setbits e.raw 15 15 (if t = .level then 1#32 else 0#32)⟩ := by
  simp [lvtSetTriggerMode, eq_comm (a := e')]

theorem lvtSetTimerMode_eq_some {m : TimerMode} : lvtSetTimerMode e m = some e' ↔
    e.kind = .timer ∧ e' = ⟨e.kind, setbits e.raw 18 17 ((tmCode m).setWidth 32)⟩ := by
  simp [lvtSetTimerMode, eq_comm (a := e')]

theorem fieldReplaced_setVector (e : Entry) (v : Byte) : FieldReplaced e (lvtSetVector e v) 7 0 :=
  fieldReplaced_setbits (by decide) _

theorem fieldReplaced_setMask (e : Entry) (b : Bool) : FieldReplaced e (lvtSetMask e b) 16 16 :=
  fieldReplaced_setbits (by decide) _

theorem fieldReplaced_setDeliveryMode {m : DeliveryMode} (h : lvtSetDeliveryMode e m = some e') :
    FieldReplaced e e' 10 8 := by
  obtain ⟨-, rfl⟩ := lvtSetDeliveryMode_eq_some.mp h
  exact fieldReplaced_setbits (by decide) _

theorem fieldReplaced_setPolarity {p : Polarity} (h : lvtSetPolarity e p = some e') : FieldReplaced e e' 13 13 := by
  obtain ⟨-, rfl⟩ := lvtSetPolarity_eq_some.mp h
  exact fieldReplaced_setbits (by decide) _

theorem fieldReplaced_setTriggerMode {t : TriggerMode} (h : lvtSetTriggerMode e t = some e') :
    FieldReplaced e e' 15 15 := by
  obtain ⟨-, rfl⟩ := lvtSetTriggerMode_eq_some.mp h
  exact fieldReplaced_setbits (by decide) _

theorem fieldReplaced_setTimerMode {m : TimerMode} (h : lvtSetTimerMode e m = some e') : FieldReplaced e e' 18 17 := by
  obtain ⟨-, rfl⟩ := lvtSetTimerMode_eq_some.mp h
  exact fieldReplaced_setbits (by decide) _

/-! ### The value set is the value read (R149) -/

theorem lvtVector_setVector (e : Entry) (v : Byte) : lvtVector (lvtSetVector e v) = v :=
  extractLsb'_setbits v rfl (by decide)

theorem lvtMask_setMask (e : Entry) (b : Bool) : lvtMask (lvtSetMask e b) = b := by
  have hbit : lvtMask (lvtSetMask e b) = (if b then 1#32 else 0#32 : Word).getLsbD 0 :=
    getLsbD_setbits_of_mem (by decide) (by decide) (by decide)
  rw [hbit]
  cases b <;> rfl

theorem lvtDeliveryMode_of_set {m : DeliveryMode} (h : lvtSetDeliveryMode e m = some e') :
    lvtDeliveryMode e' = some (some m) := by
  obtain ⟨hk, rfl⟩ := lvtSetDeliveryMode_eq_some.mp h
  rw [lvtDeliveryMode, if_pos hk, modeField, extractLsb'_setbits _ (by decide) (by decide), dmFromBits_dmCode]

theorem lvtPolarity_of_set {p : Polarity} (h : lvtSetPolarity e p = some e') : lvtPolarity e' = some p := by
  obtain ⟨hk, rfl⟩ := lvtSetPolarity_eq_some.mp h
  rw [lvtPolarity, if_pos hk, bitOf, getLsbD_setbits_of_mem (by decide) (by decide) (by decide)]
  cases p <;> rfl

theorem lvtTriggerMode_of_set {t : TriggerMode} (h : lvtSetTriggerMode e t = some e') :
    lvtTriggerMode e' = some t := by
  obtain ⟨hk, rfl⟩ := lvtSetTriggerMode_eq_some.mp h
  rw [lvtTriggerMode, if_pos hk, bitOf, getLsbD_setbits_of_mem (by decide) (by decide) (by decide)]
  cases t <;> rfl

theorem lvtTimerMode_of_set {m : TimerMode} (h : lvtSetTimerMode e m = some e') :
    lvtTimerMode e' = some (some m) := by
  obtain ⟨hk, rfl⟩ := lvtSetTimerMode_eq_some.mp h
  rw [lvtTimerMode, if_pos hk, timerField, extractLsb'_setbits _ (by decide) (by decide), tmFromBits_tmCode]

/-! ### Setters keep entries well-formed -/

theorem wf_setVector (h : e.wf = true) (v : Byte) : (lvtSetVector e v).wf = true :=
  have hr := fieldReplaced_setVector e v
  wf_of_modes_kept h (hr.deliveryMode (by decide)) (hr.timerMode (by decide))

theorem wf_setMask (h : e.wf = true) (b : Bool) : (lvtSetMask e b).wf = true :=
  have hr := fieldReplaced_setMask e b
  wf_of_modes_kept h (hr.deliveryMode (by decide)) (hr.timerMode (by decide))

theorem wf_setPolarity (h : e.wf = true) {p : Polarity} (hs : lvtSetPolarity e p = some e') : e'.wf = true :=
  have hr := fieldReplaced_setPolarity hs
  wf_of_modes_kept h (hr.deliveryMode (by decide)) (hr.timerMode (by decide))

theorem wf_setTriggerMode (h : e.wf = true) {t : TriggerMode} (hs : lvtSetTriggerMode e t = some e') :
    e'.wf = true :=
  have hr := fieldReplaced_setTriggerMode hs
  wf_of_modes_kept h (hr.deliveryMode (by decide)) (hr.timerMode (by decide))

/-- The delivery mode set is a named one, and the timer mode is kept. -/
theorem wf_setDeliveryMode (h : e.wf = true) {m : DeliveryMode} (hs : lvtSetDeliveryMode e m = some e') :
    e'.wf = true := by
  rw [wf_iff, lvtDeliveryMode_of_set hs, (fieldReplaced_setDeliveryMode hs).timerMode (by decide)]
  exact ⟨by simp, ((wf_iff e).mp h).2⟩

/-- The timer mode set is a named one, and the delivery mode is kept. -/
theorem wf_setTimerMode (h : e.wf = true) {m : TimerMode} (hs : lvtSetTimerMode e m = some e') : e'.wf = true := by
  rw [wf_iff, lvtTimerMode_of_set hs, (fieldReplaced_setTimerMode hs).deliveryMode (by decide)]
  exact ⟨((wf_iff e).mp h).1, by simp⟩

end Setters

/-! ### The words the setters store -/

theorem setbits_vector_byte (w : Word) (v : Byte) :
    setbits w 7 0 (v.setWidth 32) = (w &&& 0xFFFFFF00#32) ||| v.setWidth 32 := by
  have hv : (v.setWidth 32 &&& 0x000000FF#32 : Word) = v.setWidth 32 := by
    apply BitVec.eq_of_toNat_eq
    have hlt : v.toNat < 2 ^ 8 := v.isLt
    simp only [BitVec.toNat_and, BitVec.toNat_setWidth_of_le (show 8 ≤ 32 by decide)]
    exact Nat.and_two_pow_sub_one_of_lt_two_pow hlt
  rw [setbits_vector, hv]

theorem setbits_mask_bit (w : Word) (b : Bool) : setbits w 16 16 (if b then 1#32 else 0#32) =
    (w &&& 0xFFFEFFFF#32) ||| (if b then 0x00010000#32 else 0#32) := by
  rw [setbits_mask]
  cases b <;> rfl

/-! ### The enumerants read (R137, R142) -/

/-- A well-formed entry of a kind with the field holds the code of the delivery mode read. -/
theorem lvtDeliveryMode_of_wf {e : Entry} (hk : e.kind.hasDeliveryMode = true) (h : e.wf = true) :
    ∃ m, lvtDeliveryMode e = some (some m) ∧ modeField e.raw = dmCode m := by
  have hne := ((wf_iff e).mp h).1
  rw [lvtDeliveryMode, if_pos hk, Ne, Option.some_inj, ← Ne, Option.ne_none_iff_exists'] at hne
  obtain ⟨m, hm⟩ := hne
  exact ⟨m, by rw [lvtDeliveryMode, if_pos hk, hm], (dmFromBits_some_iff _ _).mp hm⟩

/-- A well-formed timer entry holds the code of the timer mode read. -/
theorem lvtTimerMode_of_wf {e : Entry} (hk : e.kind = .timer) (h : e.wf = true) :
    ∃ m, lvtTimerMode e = some (some m) ∧ timerField e.raw = tmCode m := by
  have hne := ((wf_iff e).mp h).2
  rw [lvtTimerMode, if_pos hk, Ne, Option.some_inj, ← Ne, Option.ne_none_iff_exists'] at hne
  obtain ⟨m, hm⟩ := hne
  exact ⟨m, by rw [lvtTimerMode, if_pos hk, hm], (tmFromBits_some_iff _ _).mp hm⟩

/-! ### The operations whose value is a match on the codec's (R133, R137, R142) -/

section Exec

variable {s : State} {e : Entry}

theorem exec_lvtDeliveryMode (hr : CallerReady s) {o : Option DeliveryMode} (h : lvtDeliveryMode e = o.map some) :
    exec (.lvtDeliveryMode e) s = .next (s.complete s.caller (.deliveryMode o) s.block) := by
  refine exec_pure hr ?_
  cases o <;> simp [progOf, progLvtDeliveryMode, h]

theorem exec_lvtTimerMode (hr : CallerReady s) {o : Option TimerMode} (h : lvtTimerMode e = o.map some) :
    exec (.lvtTimerMode e) s = .next (s.complete s.caller (.timerMode o) s.block) := by
  refine exec_pure hr ?_
  cases o <;> simp [progOf, progLvtTimerMode, h]

theorem exec_lvtDecode_of_wf (hr : CallerReady s) (h : e.wf = true) :
    exec (.lvtDecode e.kind e.raw) s = .next (s.complete s.caller (.entry e) s.block) := by
  rw [exec_pure hr (i := .lvtDecode e.kind e.raw) rfl, lvtDecode_of_wf h, entryOrInvalid]

end Exec

end Sys2Proof.Machine

open Sys2Proof Sys2Proof.Machine

/-- Settles O9: the two enumerant getters' conversions never fail on the entry a setter returns. -/
theorem codecKeepsEntriesWellFormed : Obligations.CodecKeepsEntriesWellFormed := by
  refine ⟨fun e => ?_, wf_lvtNew, fun e h => ⟨lvtDecode_of_wf h, wf_setVector h, wf_setMask h,
    fun _ _ => wf_setDeliveryMode h, fun _ _ => wf_setPolarity h, fun _ _ => wf_setTriggerMode h,
    fun _ _ => wf_setTimerMode h⟩⟩
  rw [lvtDecode_eq]
  simp

/-- Settles O10: each setter replaces one field, and each other getter reads bits outside it. -/
theorem lvtCodecLaws : Obligations.LvtCodecLaws := by
  intro e h
  refine ⟨lvtDecode_of_wf h, lvtVector_setVector e, lvtMask_setMask e, fun _ _ => lvtDeliveryMode_of_set,
    fun _ _ => lvtPolarity_of_set, fun _ _ => lvtTriggerMode_of_set, fun _ _ => lvtTimerMode_of_set,
    ?vector, ?deliveryMode, ?polarity, ?triggerMode, ?mask, ?timerMode,
    ?_, ?_, ?_, ?_⟩
  case vector =>
    rintro _ ⟨v, rfl⟩
    have hr := fieldReplaced_setVector e v
    exact ⟨hr.sameBits (by decide) (by decide), hr.deliveryMode (by decide), hr.polarity (by decide),
      hr.triggerMode (by decide), hr.mask (by decide), hr.timerMode (by decide)⟩
  case deliveryMode =>
    rintro e' ⟨m, hs⟩
    have hr := fieldReplaced_setDeliveryMode hs
    exact ⟨hr.sameBits (by decide) (by decide), hr.vector (by decide), hr.polarity (by decide),
      hr.triggerMode (by decide), hr.mask (by decide), hr.timerMode (by decide)⟩
  case polarity =>
    rintro e' ⟨p, hs⟩
    have hr := fieldReplaced_setPolarity hs
    exact ⟨hr.sameBits (by decide) (by decide), hr.vector (by decide), hr.deliveryMode (by decide),
      hr.triggerMode (by decide), hr.mask (by decide), hr.timerMode (by decide)⟩
  case triggerMode =>
    rintro e' ⟨t, hs⟩
    have hr := fieldReplaced_setTriggerMode hs
    exact ⟨hr.sameBits (by decide) (by decide), hr.vector (by decide), hr.deliveryMode (by decide),
      hr.polarity (by decide), hr.mask (by decide), hr.timerMode (by decide)⟩
  case mask =>
    rintro _ ⟨b, rfl⟩
    have hr := fieldReplaced_setMask e b
    exact ⟨hr.sameBits (by decide) (by decide), hr.vector (by decide), hr.deliveryMode (by decide),
      hr.polarity (by decide), hr.triggerMode (by decide), hr.timerMode (by decide)⟩
  case timerMode =>
    rintro e' ⟨m, hs⟩
    have hr := fieldReplaced_setTimerMode hs
    exact ⟨hr.sameBits (by decide) (by decide), hr.vector (by decide), hr.deliveryMode (by decide),
      hr.polarity (by decide), hr.triggerMode (by decide), hr.mask (by decide)⟩
  · simp [lvtSetDeliveryMode, lvtDeliveryMode]
  · simp [lvtSetPolarity, lvtPolarity]
  · simp [lvtSetTriggerMode, lvtTriggerMode]
  · simp [lvtSetTimerMode, lvtTimerMode]

/-- Settles O6, by whether the kind has the field; where it has, a well-formed entry holds a named code. -/
theorem lvtOptionalGettersReadTheirFields : Obligations.LvtOptionalGettersReadTheirFields := by
  intro s e hr
  refine ⟨?_, ?_, fun hk => ?_, fun ht he hwf => ?_, fun hk => ?_, fun hk hwf => ?_⟩
  · rw [exec_pure hr (i := .lvtPolarity e) rfl, lvtPolarity_eq]
  · rw [exec_pure hr (i := .lvtTriggerMode e) rfl, lvtTriggerMode_eq]
  · have hno : ¬ e.kind.hasDeliveryMode = true := by rw [hasDeliveryMode_iff]; tauto
    exact exec_lvtDeliveryMode hr (o := none) (if_neg hno)
  · obtain ⟨m, hm, hcode⟩ := lvtDeliveryMode_of_wf ((hasDeliveryMode_iff _).mpr ⟨ht, he⟩) hwf
    refine ⟨m, exec_lvtDeliveryMode hr (o := some m) hm, ?_⟩
    rw [show e.raw.extractLsb' 8 3 = dmCode m from hcode]
    cases m <;> decide
  · exact exec_lvtTimerMode hr (o := none) (if_neg hk)
  · obtain ⟨m, hm, hcode⟩ := lvtTimerMode_of_wf hk hwf
    refine ⟨m, exec_lvtTimerMode hr (o := some m) hm, ?_⟩
    rw [show e.raw.extractLsb' 17 2 = tmCode m from hcode]
    cases m <;> decide

/-- Settles O8: the code of each enumerant, shifted into its field. -/
theorem lvtOptionalSettersFailElsewhere : Obligations.LvtOptionalSettersFailElsewhere := by
  intro s e hr
  refine ⟨fun p hp => ?_, fun p hp => ?_, fun p hp => ?_, fun p hp => ?_⟩
  · have hcode : (dmCode p.1).setWidth 32 <<< 8 &&& 0x00000700#32 = p.2 := by revert p; decide
    rw [exec_pure hr (i := .lvtSetDeliveryMode e p.1) rfl, lvtSetDeliveryMode, setbits_deliveryMode, hcode,
      entryOrInvalid_ite]
    simp only [hasDeliveryMode_iff, ← not_or, ite_not]
  · have hcode : (if p.1 = .activeLow then 1#32 else 0#32) <<< 13 &&& 0x00002000#32 = p.2 := by
      revert p; decide
    rw [exec_pure hr (i := .lvtSetPolarity e p.1) rfl, lvtSetPolarity, setbits_polarity, hcode, entryOrInvalid_ite]
    simp only [isPin_iff]
  · have hcode : (if p.1 = .level then 1#32 else 0#32) <<< 15 &&& 0x00008000#32 = p.2 := by
      revert p; decide
    rw [exec_pure hr (i := .lvtSetTriggerMode e p.1) rfl, lvtSetTriggerMode, setbits_trigger, hcode,
      entryOrInvalid_ite]
    simp only [isPin_iff]
  · have hcode : (tmCode p.1).setWidth 32 <<< 17 &&& 0x00060000#32 = p.2 := by revert p; decide
    rw [exec_pure hr (i := .lvtSetTimerMode e p.1) rfl, lvtSetTimerMode, setbits_timerMode, hcode,
      entryOrInvalid_ite]

/-- Settles O4: the entry is the one decoded when it is well-formed, which it is unless a field holds a reserved
code. -/
theorem lvtDecodeValidatesSupportedEnumerants : Obligations.LvtDecodeValidatesSupportedEnumerants := by
  intro s k raw hr
  have hwf : (⟨k, raw⟩ : Entry).wf = true ↔
      ¬ ((k ≠ .timer ∧ k ≠ .error ∧ (raw.extractLsb' 8 3 = 0b001#3 ∨ raw.extractLsb' 8 3 = 0b011#3)) ∨
        (k = .timer ∧ raw.extractLsb' 17 2 = 0b11#2)) := by
    rw [wf_iff, Ne, Ne, ← not_or, lvtDeliveryMode_reserved_iff, lvtTimerMode_reserved_iff,
      hasDeliveryMode_iff, and_assoc]
    rfl
  rw [exec_pure hr (i := .lvtDecode k raw) rfl, lvtDecode_eq, entryOrInvalid_ite]
  simp only [hwf, ite_not]

/-- Settles O5: each operation returns the value of its pure function. -/
theorem lvtPlainOperationsReadTheirBits : Obligations.LvtPlainOperationsReadTheirBits :=
  fun _ _ k _ hr => ⟨exec_pure hr rfl, exec_lvtDecode_of_wf hr, exec_pure hr rfl, wf_lvtNew k, exec_pure hr rfl,
    exec_pure hr rfl, exec_pure hr rfl⟩

/-- Settles O7: the field written, in R143's and R147's words. -/
theorem lvtSetVectorAndMaskWriteTheirField : Obligations.LvtSetVectorAndMaskWriteTheirField := by
  intro s e v b hr
  rw [← setbits_vector_byte, ← setbits_mask_bit]
  exact ⟨exec_pure hr rfl, exec_pure hr rfl⟩
end

section
/-! PROOFS. Where the Facade's selection and the two prerequisites decide an operation (spec/41_local_controller.md R180
to R184, spec/42_io_router.md R235). -/

namespace Sys2Proof.Machine

/-- A ready caller whose actions are all done has completed, with the value its word gives. -/
theorem exec_of_done {s : State} (hr : CallerReady s) {i : Instr} {w : Word} {b : Block}
    (h : runBody s.caller (progOf s.block.cfg s.caller i).body 0#32 s.block = .done w b) :
    exec i s = .next (s.complete s.caller ((progOf s.block.cfg s.caller i).ret.value w) b) := by
  rw [exec_ready hr, h]
  rfl

/-! ### The Facade's selection (R180) -/

section Facade

variable {b : Block}

theorem facadeSelect_again (h : b.facadeOnce = .completed) (w : Word) :
    facadeSelect w b = .fault .orderingViolation := by
  simp [facadeSelect, h]

theorem facadeSelect_msr (h : b.facadeOnce ≠ .completed) (hmsr : b.cfg.msrGenPresent = true) (w : Word) :
    facadeSelect w b = .ok w { b with enableType := .msr, facadeOnce := .completed } := by
  cases hf : b.facadeOnce with
  | completed => exact absurd hf h
  | notRun => simp [facadeSelect, hf, hmsr]

theorem facadeSelect_mmio (h : b.facadeOnce ≠ .completed) (hmsr : ¬ b.cfg.msrGenPresent = true)
    (hmmio : b.cfg.mmioGenPresent = true) (w : Word) :
    facadeSelect w b = .ok w { b with enableType := .mmio, facadeOnce := .completed } := by
  cases hf : b.facadeOnce with
  | completed => exact absurd hf h
  | notRun => simp [facadeSelect, hf, hmsr, hmmio]

theorem facadeSelect_neither (h : b.facadeOnce ≠ .completed) (hmsr : ¬ b.cfg.msrGenPresent = true)
    (hmmio : ¬ b.cfg.mmioGenPresent = true) (w : Word) :
    facadeSelect w b = .fault .unsupportedConfiguration := by
  cases hf : b.facadeOnce with
  | completed => exact absurd hf h
  | notRun => simp [facadeSelect, hf, hmsr, hmmio]

end Facade

/-! ### Prerequisites that are not met (R181, R182, R235) -/

theorem microStep_dispatch_unselected {b : Block} (h : b.enableType = .unselected) (c : CoreId) (w : Word) :
    microStep c .dispatch w b = .fault .orderingViolation := by
  simp [microStep, dispatchTo, h]

theorem microStep_dispatch_msr {b : Block} (h : b.enableType = .msr) (c : CoreId) (w : Word) :
    microStep c .dispatch w b = .refuse .outOfScopeBackend := by
  simp [microStep, dispatchTo, h]

theorem microStep_requireInited_fault {b : Block} {c : CoreId} (h : (b.lapic c).inited = false) (w : Word) :
    microStep c .requireInited w b = .fault .orderingViolation := by
  simp [microStep, checkOr, h]

theorem microStep_requireIorInited_fault {b : Block} (h : b.iorInited = false) (c : CoreId) (w : Word) :
    microStep c .requireIorInited w b = .fault .orderingViolation := by
  simp [microStep, checkOr, h]

/-- Every Local Controller Interface operation but `supported` dispatches first (R181). -/
theorem interface_body (cfg : Config) (c : CoreId) {i : Instr} (h : needsInitedCore i = true ∨ i = .initCurrentCpu) :
    ∃ ms, (progOf cfg c i).body = .dispatch :: ms := by
  rcases h with h | rfl
  · obtain ⟨ms, hbody⟩ := lmi_body cfg c h
    exact ⟨_, hbody⟩
  · simp only [progOf, progInitCurrentCpu]
    split <;> exact ⟨_, rfl⟩

end Sys2Proof.Machine

open Sys2Proof Sys2Proof.Machine

/-- Settles O13: the dispatch is the operation's first action. -/
theorem interfaceIsDispatchedOnEnableType : Obligations.InterfaceIsDispatchedOnEnableType := by
  intro s i hr hi
  obtain ⟨ms, hbody⟩ := interface_body s.block.cfg s.caller hi
  refine ⟨fun he => exec_of_fault hr ?_, fun he => exec_of_refuse hr ?_⟩
  · rw [hbody, runBody_fault (microStep_dispatch_unselected he _ _)]
  · rw [hbody, runBody_refuse (microStep_dispatch_msr he _ _)]

/-- Settles O14: the prerequisite is checked before anything else but the dispatch. -/
theorem operationsNeedTheirInitialization : Obligations.OperationsNeedTheirInitialization := by
  intro s i hr
  refine ⟨fun hi hmmio hninit => exec_of_fault hr ?_, fun hi hninit => exec_of_fault hr ?_⟩
  · obtain ⟨ms, hbody⟩ := lmi_body s.block.cfg s.caller hi
    rw [hbody, runBody_ok (microStep_dispatch_mmio hmmio _ _), runBody_fault (microStep_requireInited_fault hninit _)]
  · obtain ⟨ms, hbody⟩ := router_body s.block.cfg s.caller hi
    rw [hbody, runBody_fault (microStep_requireIorInited_fault hninit _ _)]

/-- Settles O11, by the cases of R180. -/
theorem facadeSelectsMsrThenMmio : Obligations.FacadeSelectsMsrThenMmio := by
  intro s hr
  split_ifs with hdone hmsr hmmio
  · exact exec_of_fault hr (runBody_fault (m := .facadeSelect) (facadeSelect_again hdone _) _)
  · exact exec_of_done hr (runBody_ok (m := .facadeSelect) (facadeSelect_msr hdone hmsr _) _)
  · exact exec_of_done hr (runBody_ok (m := .facadeSelect) (facadeSelect_mmio hdone hmsr hmmio _) _)
  · exact exec_of_fault hr (runBody_fault (m := .facadeSelect) (facadeSelect_neither hdone hmsr hmmio _) _)

/-- Settles O15: `supported` has no action. -/
theorem supportedAnswersInAnyState : Obligations.SupportedAnswersInAnyState :=
  fun _ hr => exec_pure hr rfl
end

section
/-! PROOFS. The registers of one local controller (spec/10_state.md R25, R26): single accesses
(spec/41_local_controller.md R183), and the operations that read or write one register or mask them all (R187 to R194). -/

namespace Sys2Proof.Machine

/-! ### One access -/

section Access

variable {b b' : Block} {c : CoreId} {r : LapicReg}

theorem microStep_lapicRead_ok (hs : ConfigSound b.cfg) {v : Word} (h : readLapicReg c r b = .ok v b') (w : Word) :
    microStep c (.lapicRead (lapicOffset b.cfg r)) w b = .ok v b' :=
  (microStep_lapicRead hs c r w).trans h

theorem microStep_lapicWrite_ok (hs : ConfigSound b.cfg) {src : Src} {w : Word}
    (h : writeLapicReg c r (src.eval b.cfg w) b = .ok () b') :
    microStep c (.lapicWrite (lapicOffset b.cfg r) src) w b = .ok w b' := by
  rw [microStep_lapicWrite hs, h]
  rfl

theorem readLapicReg_lvt {k : Kind} (hp : lvtPresent b.cfg c k = true) :
    readLapicReg c (.lvt k) b = .ok (readBack (kindMask k) (b.lvt c k) b.drawn) b.drew :=
  if_pos hp

theorem writeLapicReg_lvt {k : Kind} (hp : lvtPresent b.cfg c k = true) (v : Word) :
    writeLapicReg c (.lvt k) v b = .ok () (b.setLvt c k v) :=
  if_pos hp

end Access

section Primitives

variable {s : State} {b : Block} (hr : CallerReady s) (hs : ConfigSound s.block.cfg)
include hr hs

/-- `lapic_read32` at a register's offset returns what a read of the register does (R183). -/
theorem exec_lapicRead32 (r : LapicReg) {v : Word} (h : readLapicReg s.caller r s.block = .ok v b) :
    exec (.lapicRead32 (lapicOffset s.block.cfg r)) s = .next (s.complete s.caller (.word v) b) :=
  exec_of_done hr (runBody_ok (microStep_lapicRead_ok hs h _) [])

/-- `lapic_write32` at a register's offset does what a write of the register does (R183). -/
theorem exec_lapicWrite32 (r : LapicReg) {v : Word} (h : writeLapicReg s.caller r v s.block = .ok () b) :
    exec (.lapicWrite32 (lapicOffset s.block.cfg r) v) s = .next (s.complete s.caller .unit b) :=
  exec_of_done hr (runBody_ok (microStep_lapicWrite_ok (src := .const v) hs h) [])

end Primitives

/-- A read of ICR low, with R25's mask written out. -/
theorem readBack_icrLoMask (stored drawn : Word) :
    readBack icrLoMask stored drawn = (stored &&& 0xFFFFEFFF#32) ||| (drawn &&& 0x00001000#32) := by
  have hmask : icrLoMask = 0xFFFFEFFF#32 := by decide
  rw [readBack, hmask]
  rfl

/-! ### Interface operations after their prerequisites -/

/-- An interface operation of an armed caller whose actions after the prerequisites are all done. -/
theorem exec_lmi_of_done {s : State} (ha : CallerArmed s) {i : Instr} {ms : List Micro} {w : Word} {b : Block}
    (hbody : (progOf s.block.cfg s.caller i).body = .dispatch :: .requireInited :: ms)
    (h : runBody s.caller ms 0#32 s.block = .done w b) :
    exec i s = .next (s.complete s.caller ((progOf s.block.cfg s.caller i).ret.value w) b) := by
  refine exec_of_done ha.1 ?_
  rw [hbody, runBody_lmi ha, h]

/-- An interface operation of an armed caller that reads one register (R188 to R191). -/
theorem exec_lmi_read {s : State} (ha : CallerArmed s) (hs : ConfigSound s.block.cfg) {i : Instr} {r : LapicReg}
    {v : Word} {b : Block}
    (hbody : (progOf s.block.cfg s.caller i).body =
      .dispatch :: .requireInited :: [.lapicRead (lapicOffset s.block.cfg r)])
    (h : readLapicReg s.caller r s.block = .ok v b) :
    exec i s = .next (s.complete s.caller ((progOf s.block.cfg s.caller i).ret.value v) b) :=
  exec_lmi_of_done ha hbody (runBody_ok (microStep_lapicRead_ok hs h _) [])

theorem topByte_append (x : Byte) (y : BitVec 24) : topByte (x ++ y) = x := by
  ext i hi
  rw [topByte, BitVec.getElem_extractLsb', BitVec.getLsbD_append, if_neg (by omega), Nat.add_sub_cancel_left,
    BitVec.getLsbD_eq_getElem hi]

theorem microStep_requireLvt {b : Block} {c : CoreId} {k : Kind} (h : lvtPresent b.cfg c k = true) (w : Word) :
    microStep c (.requireLvt k) w b = .ok w b := by
  simp [microStep, checkOr, h]

theorem exec_setLvt {s : State} (ha : CallerArmed s) (hs : ConfigSound s.block.cfg) {e : Entry}
    (hp : lvtPresent s.block.cfg s.caller e.kind = true) :
    exec (.setLvt e) s = .next (s.complete s.caller .unit (s.block.setLvt s.caller e.kind e.raw)) := by
  refine exec_lmi_of_done (w := 0#32) ha rfl ((runBody_ok (microStep_requireLvt hp _) _).trans ?_)
  exact runBody_ok (microStep_lapicWrite_ok (r := .lvt e.kind) hs (writeLapicReg_lvt hp e.raw)) []

/-! ### What is read back of an LVT word (R26) -/

section ReadBack

variable (k : Kind) (stored drawn : Word)

/-- A bit of an LVT word that every kind supports, or that this one does, is read as stored. -/
theorem bitOf_readBack {k : Kind} {i : Nat} (h : (kindMask k).getLsbD i = true) :
    bitOf (readBack (kindMask k) stored drawn) i = bitOf stored i :=
  getLsbD_readBack _ _ _ _ h

theorem kindMask_mask_bit : (kindMask k).getLsbD 16 = true := by cases k <;> decide

theorem kindMask_pin_bits {k : Kind} (h : isPin k = true) :
    (kindMask k).getLsbD 13 = true ∧ (kindMask k).getLsbD 15 = true := by
  rcases (isPin_iff k).mp h with rfl | rfl <;> decide

theorem lvtVector_readBack : lvtVector ⟨k, readBack (kindMask k) stored drawn⟩ = lvtVector ⟨k, stored⟩ :=
  vectorField_readBack_kind k stored drawn

theorem lvtMask_readBack : lvtMask ⟨k, readBack (kindMask k) stored drawn⟩ = lvtMask ⟨k, stored⟩ :=
  bitOf_readBack stored drawn (kindMask_mask_bit k)

theorem lvtDeliveryMode_readBack :
    lvtDeliveryMode ⟨k, readBack (kindMask k) stored drawn⟩ = lvtDeliveryMode ⟨k, stored⟩ :=
  if_ctx_congr Iff.rfl (fun hk => by rw [modeField_readBack_kind hk]) fun _ => rfl

theorem lvtPolarity_readBack : lvtPolarity ⟨k, readBack (kindMask k) stored drawn⟩ = lvtPolarity ⟨k, stored⟩ :=
  if_ctx_congr Iff.rfl (fun hk => by rw [bitOf_readBack stored drawn (kindMask_pin_bits hk).1]) fun _ => rfl

theorem lvtTriggerMode_readBack :
    lvtTriggerMode ⟨k, readBack (kindMask k) stored drawn⟩ = lvtTriggerMode ⟨k, stored⟩ :=
  if_ctx_congr Iff.rfl (fun hk => by rw [bitOf_readBack stored drawn (kindMask_pin_bits hk).2]) fun _ => rfl

theorem lvtTimerMode_readBack :
    lvtTimerMode ⟨k, readBack (kindMask k) stored drawn⟩ = lvtTimerMode ⟨k, stored⟩ := by
  refine if_ctx_congr Iff.rfl (fun hk => ?_) fun _ => rfl
  cases hk
  rw [timerField_readBack_timer]

/-- The word read decodes exactly when the word stored does. -/
theorem wf_readBack :
    (⟨k, readBack (kindMask k) stored drawn⟩ : Entry).wf = (⟨k, stored⟩ : Entry).wf := by
  rw [Bool.eq_iff_iff, wf_iff, wf_iff, lvtDeliveryMode_readBack, lvtTimerMode_readBack]

end ReadBack

theorem microStep_requireDecodes (k : Kind) (w : Word) (c : CoreId) (b : Block) :
    microStep c (.requireDecodes k) w b = checkOr (⟨k, w⟩ : Entry).wf .invalidReadback w b := by
  rw [microStep, lvtDecode_eq]
  cases (⟨k, w⟩ : Entry).wf <;> rfl

section ReadLvt

variable {s : State} (ha : CallerArmed s) (hs : ConfigSound s.block.cfg) {k : Kind}
  (hp : lvtPresent s.block.cfg s.caller k = true)
include ha hs hp

/-- `read_lvt` up to its last check, which is on the word stored (R193). -/
theorem runBody_readLvt : runBody s.caller (progOf s.block.cfg s.caller (.readLvt k)).body 0#32 s.block =
    runBody s.caller [.requireDecodes k] (readBack (kindMask k) (s.block.lvt s.caller k) s.block.drawn)
      s.block.drew := by
  refine (runBody_lmi ha _).trans ((runBody_ok (microStep_requireLvt hp _) _).trans ?_)
  exact runBody_ok (microStep_lapicRead_ok hs (readLapicReg_lvt hp) _) _

theorem exec_readLvt_of_wf (h : (⟨k, s.block.lvt s.caller k⟩ : Entry).wf = true) :
    exec (.readLvt k) s = .next (s.complete s.caller
      (.entry ⟨k, readBack (kindMask k) (s.block.lvt s.caller k) s.block.drawn⟩) s.block.drew) := by
  refine exec_of_done ha.1 ((runBody_readLvt ha hs hp).trans (runBody_ok ?_ []))
  rw [microStep_requireDecodes, wf_readBack, h]
  rfl

theorem exec_readLvt_of_not_wf (h : (⟨k, s.block.lvt s.caller k⟩ : Entry).wf = false) :
    exec (.readLvt k) s =
      .next (s.recordFault s.caller .invalidReadback (.call (.readLvt k)) (s.block.drew.release s.caller)) := by
  refine exec_of_fault ha.1 ((runBody_readLvt ha hs hp).trans (runBody_fault ?_ []))
  rw [microStep_requireDecodes, wf_readBack, h]
  rfl

end ReadLvt

/-- A completed operation leaves its caller idle. -/
theorem callerReady_complete {s : State} (hr : CallerReady s) (v : Value) (b : Block) :
    CallerReady (s.complete s.caller v b) := by
  have hidle : s.status s.caller = some .idle := hr
  rw [CallerReady, complete_caller, status_complete, if_pos rfl, hidle, Option.map_some]

/-- A completed operation that changed only LVT words leaves its caller armed. -/
theorem callerArmed_complete {s : State} (ha : CallerArmed s) {b : Block} (h : OnlyLvt s.caller s.block b)
    (v : Value) : CallerArmed (s.complete s.caller v b) := by
  obtain ⟨hr, hmmio, hc, hinit⟩ := ha
  obtain ⟨-, henable, -⟩ := h.facade
  exact ⟨callerReady_complete hr v b, henable.trans hmmio, h.others.1.symm ▸ hc, h.rest.1.trans hinit⟩

end Sys2Proof.Machine

open Sys2Proof Sys2Proof.Machine

/-- Settles O27, register by register. -/
theorem lapicRead32ReturnsEachRegister : Obligations.LapicRead32ReturnsEachRegister := by
  rintro s k ⟨hr, -⟩ hs
  refine ⟨exec_lapicRead32 hr hs .id rfl, exec_lapicRead32 hr hs .version rfl, exec_lapicRead32 hr hs .eoi rfl,
    exec_lapicRead32 hr hs .svr rfl, exec_lapicRead32 hr hs .icrHi rfl, exec_lapicRead32 hr hs .icrLo ?_,
    fun hk => exec_lapicRead32 hr hs (.lvt k) (readLapicReg_lvt (lvtPresent_of hk))⟩
  rw [readLapicReg, readBack_icrLoMask]
  rfl

/-- Settles O28, register by register. -/
theorem lapicWrite32StoresEachRegister : Obligations.LapicWrite32StoresEachRegister := by
  rintro s k v ⟨hr, -⟩ hs
  exact ⟨exec_lapicWrite32 hr hs .id rfl, exec_lapicWrite32 hr hs .version rfl, exec_lapicWrite32 hr hs .eoi rfl,
    exec_lapicWrite32 hr hs .svr rfl, exec_lapicWrite32 hr hs .icrHi rfl,
    fun hk => exec_lapicWrite32 hr hs (.lvt k) (writeLapicReg_lvt (lvtPresent_of hk) v)⟩

/-- Settles O19: one write of the EOI register. -/
theorem sendEoiRecordsTheEvent : Obligations.SendEoiRecordsTheEvent :=
  fun _ ha hs => exec_lmi_of_done ha rfl
    (runBody_ok (microStep_lapicWrite_ok (r := .eoi) (src := .const 0#32) hs rfl) [])

/-- Settles O20: each reads one register and returns a field of it. -/
theorem versionAndIdReads : Obligations.VersionAndIdReads := by
  intro s ha hs
  have hversion : readLapicReg s.caller .version s.block = .ok (lapicVersionWord s.block.cfg s.caller) s.block := rfl
  refine ⟨exec_lmi_read ha hs rfl hversion, exec_lmi_read ha hs rfl hversion, exec_lmi_read ha hs rfl hversion, ?_⟩
  have hid := exec_lmi_read ha hs (i := .readId) (r := .id) rfl rfl
  rwa [show (progOf s.block.cfg s.caller .readId).ret = .topByte from rfl, Ret.value, topByte_append] at hid

/-- Settles O21: the one write is of the entry's register. -/
theorem setLvtStoresTheWord : Obligations.SetLvtStoresTheWord := by
  intro s e ha hs hk
  have ⟨_, _, hc, _⟩ := ha
  have honly := onlyLvt_setLvt hc e.kind e.raw
  exact ⟨_, exec_setLvt ha hs (lvtPresent_of hk), fun k => lvt_setLvt hc e.kind k e.raw, honly.rest, honly.facade,
    honly.others, honly.router, honly.history, rfl⟩

/-- Settles O22: the word read decodes exactly when the word stored does. -/
theorem readLvtReturnsSupportedBits : Obligations.ReadLvtReturnsSupportedBits := by
  intro s k mask ha hs hk hmem
  have hmask : mask = kindMask k := by
    refine (?_ : ∀ p ∈ (_ : List (Kind × Word)), p.2 = kindMask p.1) (k, mask) hmem
    decide
  subst hmask
  exact ⟨exec_readLvt_of_wf ha hs (lvtPresent_of hk), exec_readLvt_of_not_wf ha hs (lvtPresent_of hk)⟩

/-- Settles O23: the word is stored as it is, and every field of the kind is read as stored. -/
theorem readLvtAfterSetLvt : Obligations.ReadLvtAfterSetLvt := by
  intro s t e ha hs hwf hk hset
  have ⟨_, _, hc, _⟩ := ha
  have hp := lvtPresent_of hk
  rw [exec_setLvt ha hs hp] at hset
  cases hset
  have hstored := lvt_setLvt hc e.kind e.kind e.raw
  rw [if_pos rfl] at hstored
  have hread := exec_readLvt_of_wf (callerArmed_complete ha (onlyLvt_setLvt hc e.kind e.raw) .unit) hs (k := e.kind) hp
  simp only [complete_block, complete_caller, hstored] at hread
  exact ⟨_, _, hread hwf, rfl, lvtVector_readBack _ _ _, lvtDeliveryMode_readBack _ _ _, lvtPolarity_readBack _ _ _,
    lvtTriggerMode_readBack _ _ _, lvtMask_readBack _ _ _, lvtTimerMode_readBack _ _ _⟩

/-- Settles O25: the present kinds are masked one after the other. -/
theorem maskAllMasksEveryPresentRegister : Obligations.MaskAllMasksEveryPresentRegister := by
  intro s ha hs
  have ⟨_, _, hc, _⟩ := ha
  have hnodup : maskOrder.Nodup := by decide
  obtain ⟨w, b, hrun, honly, hkept, hmasked⟩ := runBody_maskKinds hs s.caller []
    (maskOrder.filter (lvtPresent s.block.cfg s.caller)) (hnodup.filter _)
    (fun k hk => (List.mem_filter.mp hk).2) s.block rfl hc 0#32
  rw [List.append_nil] at hrun
  refine ⟨b, exec_lmi_of_done ha rfl hrun, fun k hk => ?_, fun hlt => hkept _ fun hmem => ?_,
    honly.rest, honly.facade, honly.others, honly.router, honly.history⟩
  · have hp := lvtPresent_of (k := k) fun he => hk.resolve_left fun hne => hne he
    obtain ⟨d, hd⟩ := hmasked k (List.mem_filter.mpr ⟨by cases k <;> decide, hp⟩)
    rw [hd]
    exact ⟨maskedWord_bit _ _ _, maskedWord_supported _ _ _⟩
  · exact absurd (List.mem_filter.mp hmem).2 (by simp [lvtPresent_cmci_of_lt hlt])
end

section
/-! PROOFS. Interrupt commands (spec/30_encoding.md R110, spec/60_exceptions.md R292, R333): the fields of the two ICR
words, and what a write of ICR low does. -/

namespace Sys2Proof.Machine

/-! ### The fields of the ICR words (R110) -/

theorem getLsbD_flag (p : Prop) [Decidable p] (n i : Nat) (hi : i < 32) :
    (if p then bitWord n else 0#32).getLsbD i = (decide p && decide (i = n)) := by
  have hbit : (bitWord n).getLsbD i = decide (i = n) := by
    rw [Bool.eq_iff_iff]
    simp [bitWord, hi]
    omega
  by_cases hp : p <;> simp [hp, hbit]

/-- ICR low, bit by bit: six fields that do not overlap, zero between them. -/
theorem getLsbD_icrLoWord (d : IpiDescriptor) {i : Nat} (hi : i < 32) : (icrLoWord d).getLsbD i =
    (d.vector.getLsbD i || (!decide (i < 8) && (ipiModeCode d.deliveryMode).getLsbD (i - 8)) ||
      (decide (d.destMode = .logical) && decide (i = 11)) || (decide (d.level = .assert) && decide (i = 14)) ||
      (decide (d.trigger = .level) && decide (i = 15)) ||
      (!decide (i < 18) && (shorthandCode d.shorthand).getLsbD (i - 18))) := by
  have hsub (n : Nat) : i - n < 32 := by omega
  simp only [icrLoWord, BitVec.getLsbD_or, BitVec.getLsbD_setWidth, BitVec.getLsbD_shiftLeft, getLsbD_flag _ _ i hi,
    hi, hsub, decide_true, Bool.true_and]

theorem vectorField_icrLoWord (d : IpiDescriptor) : vectorField (icrLoWord d) = d.vector := by
  ext j hj
  rw [vectorField, BitVec.getElem_extractLsb', getLsbD_icrLoWord d (by omega), Nat.zero_add]
  simp [hj, BitVec.getLsbD_eq_getElem, show j < 18 by omega, show j ≠ 11 by omega, show j ≠ 14 by omega,
    show j ≠ 15 by omega]

theorem modeField_icrLoWord (d : IpiDescriptor) : modeField (icrLoWord d) = ipiModeCode d.deliveryMode := by
  ext j hj
  rw [modeField, BitVec.getElem_extractLsb', getLsbD_icrLoWord d (by omega),
    BitVec.getLsbD_of_ge d.vector _ (by omega)]
  simp [hj, BitVec.getLsbD_eq_getElem, show 8 + j < 18 by omega, show 8 + j ≠ 11 by omega, show 8 + j ≠ 14 by omega,
    show 8 + j ≠ 15 by omega]

theorem shorthandField_icrLoWord (d : IpiDescriptor) : (icrLoWord d).extractLsb' 18 2 = shorthandCode d.shorthand := by
  ext j hj
  rw [BitVec.getElem_extractLsb', getLsbD_icrLoWord d (by omega), BitVec.getLsbD_of_ge d.vector _ (by omega),
    BitVec.getLsbD_of_ge (ipiModeCode _) _ (by omega)]
  simp [hj, BitVec.getLsbD_eq_getElem, show 18 + j ≠ 11 by omega, show 18 + j ≠ 14 by omega,
    show 18 + j ≠ 15 by omega]

/-- Bits 13:12, 17:16 and 31:20 of a composed ICR low are zero. -/
theorem icrLoWord_unused (d : IpiDescriptor) : icrLoWord d &&& 0xFFF33000#32 = 0#32 := by
  have hunused : ∀ i < 32, (0xFFF33000#32).getLsbD i = true →
      12 ≤ i ∧ i ≠ 14 ∧ i ≠ 15 ∧ (i < 18 ∨ 20 ≤ i) := by decide
  ext i hi
  rw [← BitVec.getLsbD_eq_getElem hi, BitVec.getLsbD_and, ← BitVec.getLsbD_eq_getElem hi, BitVec.getLsbD_zero,
    Bool.and_eq_false_iff, or_iff_not_imp_right, Bool.not_eq_false]
  intro hbit
  obtain ⟨h12, h14, h15, hshort⟩ := hunused i hi hbit
  have hshorthand : (!decide (i < 18) && (shorthandCode d.shorthand).getLsbD (i - 18)) = false := by
    rcases hshort with hlt | hge
    · simp [hlt]
    · simp [BitVec.getLsbD_of_ge _ _ (show 2 ≤ i - 18 by omega)]
  rw [getLsbD_icrLoWord d hi, hshorthand, BitVec.getLsbD_of_ge d.vector _ (by omega),
    BitVec.getLsbD_of_ge (ipiModeCode _) _ (by omega)]
  simp [h14, h15, show i ≠ 11 by omega]

section Flags

variable (d : IpiDescriptor)

theorem logicalBit_icrLoWord : bitOf (icrLoWord d) 11 = decide (d.destMode = .logical) := by
  rw [bitOf, getLsbD_icrLoWord d (by decide)]
  simp

theorem levelBit_icrLoWord : bitOf (icrLoWord d) 14 = decide (d.level = .assert) := by
  rw [bitOf, getLsbD_icrLoWord d (by decide)]
  simp

theorem triggerBit_icrLoWord : bitOf (icrLoWord d) 15 = decide (d.trigger = .level) := by
  rw [bitOf, getLsbD_icrLoWord d (by decide)]
  simp

theorem triggerOfBit_icrLoWord : triggerOfBit (bitOf (icrLoWord d) 15) = d.trigger := by
  rw [triggerBit_icrLoWord]
  cases d.trigger <;> rfl

theorem topByte_icrHiWord : topByte (icrHiWord d) = d.destination := by
  ext j hj
  rw [topByte, BitVec.getElem_extractLsb', icrHiWord, BitVec.getLsbD_shiftLeft, Nat.add_sub_cancel_left]
  simp [BitVec.getLsbD_eq_getElem, hj, show 24 + j < 32 by omega, show j < 32 by omega]

end Flags

/-! ### What an ICR-low write does (R195, R292, R333) -/

/-- The draws the mode of a command takes: one where its code is reserved (log entry 14). -/
def modeDraws (lo : Word) : Nat := if modeField lo = 3#3 ∨ modeField lo = 7#3 then 1 else 0

theorem ipiModeFromBits_none_iff (b : BitVec 3) : ipiModeFromBits b = none ↔ b = 3#3 ∨ b = 7#3 := by
  revert b; decide

theorem ipiMode_block (b : Block) (lo : Word) :
    (b.ipiMode lo).2 = { b with drawCount := b.drawCount + modeDraws lo } := by
  rw [Block.ipiMode, modeDraws, if_congr (ipiModeFromBits_none_iff _).symm rfl rfl]
  cases ipiModeFromBits (modeField lo) <;> rfl

/-- A mode code that is not reserved is the mode's. -/
theorem ipiMode_of_code (b : Block) {lo : Word} {m : IpiMode} (h : modeField lo = ipiModeCode m) :
    (b.ipiMode lo).1 = .ofIpi m := by
  rw [Block.ipiMode, h, ipiModeFromBits_code]

/-- Whatever the code, the mode is an interrupt command's (log entry 14). -/
theorem ipiMode_eq_ofIpi (b : Block) (lo : Word) : ∃ m, (b.ipiMode lo).1 = .ofIpi m := by
  unfold Block.ipiMode
  split <;> exact ⟨_, rfl⟩

theorem recordCommand_eq (b : Block) (c : CoreId) (e : Event) : b.recordCommand c e =
    { b with
      history := b.history ++ if b.commanded c = true ∧ Config.drawDelivered b.drawCount = false then [] else [e]
      drawCount := b.drawCount + if b.commanded c then 1 else 0 } := by
  unfold Block.recordCommand
  cases b.commanded c <;> cases Config.drawDelivered b.drawCount <;> simp [Block.drew, Block.record]

/-- The targets of the command an ICR-low word of core c and a destination describe (R292). -/
def commandTargets (cfg : Config) (c : CoreId) (lo : Word) (dest : Byte) : List CoreId :=
  ipiTargets cfg c (shorthandFromBits (lo.extractLsb' 18 2)) (bitOf lo 11) dest

/-- What a write of ICR low does to the block: the word is stored, and the command is recorded if it is the core's first
or a free value has it so. -/
theorem issueCommand_eq (b : Block) (c : CoreId) (lo : Word) : b.issueCommand c lo =
    { b with
      lapics := b.lapics.set c { b.lapic c with icrLo := lo }
      history := b.history ++
        if b.commanded c = true ∧ Config.drawDelivered (b.drawCount + modeDraws lo) = false then []
        else [.deliver (.ipi c) (commandTargets b.cfg c lo (topByte (b.lapic c).icrHi)) (vectorField lo)
          (b.ipiMode lo).1 (triggerOfBit (bitOf lo 15))]
      drawCount := b.drawCount + modeDraws lo + if b.commanded c then 1 else 0 } := by
  have hmode : ∀ l : Lapic, ((b.setLapic c l).ipiMode lo).1 = (b.ipiMode lo).1 := fun l => by
    unfold Block.ipiMode
    cases ipiModeFromBits (modeField lo) <;> rfl
  rw [Block.issueCommand, recordCommand_eq, hmode, ipiMode_block]
  rfl

/-- The shorthand's two bits, then the destination mode, select the targets (R292). -/
theorem ipiTargets_shorthandFromBits (cfg : Config) (c : CoreId) (sh : BitVec 2) (logical : Bool) (dest : Byte) :
    ipiTargets cfg c (shorthandFromBits sh) logical dest =
      if sh = 0b01#2 then [c]
      else if sh = 0b10#2 then List.range cfg.cores.length
      else if sh = 0b11#2 then (List.range cfg.cores.length).filter fun c' => c' != c
      else if logical then logicalTargets cfg dest
      else physicalTargets cfg dest := by
  have hcodes : ∀ x : BitVec 2, x = 0b00#2 ∨ x = 0b01#2 ∨ x = 0b10#2 ∨ x = 0b11#2 := by decide
  rcases hcodes sh with rfl | rfl | rfl | rfl <;> rfl

theorem isCommandOf_iff (c : CoreId) (e : Event) :
    Event.isCommandOf c e = true ↔ ∃ ts v m t, e = .deliver (.ipi c) ts v m t := by
  cases e with
  | eoi c' => simp [Event.isCommandOf]
  | deliver source ts v m t => cases source <;> simp [Event.isCommandOf]

/-- A core has issued a command when the history holds one from it. -/
theorem commanded_iff (b : Block) (c : CoreId) :
    b.commanded c = true ↔ ∃ ts v m t, Event.deliver (.ipi c) ts v m t ∈ b.history := by
  simp only [Block.commanded, List.any_eq_true, isCommandOf_iff]
  constructor
  · rintro ⟨_, hmem, ts, v, m, t, rfl⟩
    exact ⟨ts, v, m, t, hmem⟩
  · rintro ⟨ts, v, m, t, hmem⟩
    exact ⟨_, hmem, ts, v, m, t, rfl⟩

theorem modeDraws_icrLoWord (d : IpiDescriptor) : modeDraws (icrLoWord d) = 0 := by
  rw [modeDraws, modeField_icrLoWord]
  cases d.deliveryMode <;> rfl

theorem commandTargets_icrLoWord (cfg : Config) (c : CoreId) (d : IpiDescriptor) (dest : Byte) :
    commandTargets cfg c (icrLoWord d) dest = ipiTargets cfg c d.shorthand (decide (d.destMode = .logical)) dest := by
  rw [commandTargets, shorthandField_icrLoWord, shorthandFromBits_code, logicalBit_icrLoWord]

/-- The command issued by a descriptor's ICR-low word, once ICR high holds its destination. -/
theorem issueCommand_icrLoWord {b : Block} {c : CoreId} (hc : c < b.lapics.length) (d : IpiDescriptor) :
    (b.setLapic c { b.lapic c with icrHi := icrHiWord d }).issueCommand c (icrLoWord d) =
      { b with
        lapics := b.lapics.set c { b.lapic c with icrHi := icrHiWord d, icrLo := icrLoWord d }
        history := b.history ++
          if b.commanded c = true ∧ Config.drawDelivered b.drawCount = false then []
          else [.deliver (.ipi c) (ipiTargets b.cfg c d.shorthand (decide (d.destMode = .logical)) d.destination)
            d.vector (.ofIpi d.deliveryMode) d.trigger]
        drawCount := b.drawCount + if b.commanded c then 1 else 0 } := by
  rw [issueCommand_eq, lapic_setLapic _ _ hc, ipiMode_of_code _ (modeField_icrLoWord d), commandTargets_icrLoWord,
    topByte_icrHiWord, vectorField_icrLoWord, triggerOfBit_icrLoWord, modeDraws_icrLoWord, setLapic_lapics,
    List.set_set]
  rfl

/-- `write_interrupt_command` writes ICR high, then ICR low (R195). -/
theorem exec_writeInterruptCommand {s : State} (ha : CallerArmed s) (hs : ConfigSound s.block.cfg)
    (d : IpiDescriptor) :
    exec (.writeInterruptCommand d) s = .next (s.complete s.caller .unit
      ((s.block.setLapic s.caller { s.block.lapic s.caller with icrHi := icrHiWord d }).issueCommand s.caller
        (icrLoWord d))) :=
  exec_lmi_of_done (w := 0#32) ha rfl
    ((runBody_ok (microStep_lapicWrite_ok (r := .icrHi) (src := .const (icrHiWord d)) hs rfl) _).trans
      (runBody_ok (microStep_lapicWrite_ok (r := .icrLo) (src := .const (icrLoWord d))
        (b := s.block.setLapic s.caller { s.block.lapic s.caller with icrHi := icrHiWord d }) hs rfl) []))

end Sys2Proof.Machine

open Sys2Proof Sys2Proof.Machine

/-- Settles O26: the command is the one the descriptor's ICR-low word describes, its destination in ICR high. -/
theorem writeInterruptCommandDelivers : Obligations.WriteInterruptCommandDelivers := by
  intro s d ha hs
  have ⟨_, _, hc, _⟩ := ha
  have hexec := exec_writeInterruptCommand ha hs d
  rw [issueCommand_icrLoWord hc] at hexec
  refine ⟨_, _, _, hexec, commanded_iff _ _, ?mode, vectorField_icrLoWord d, ?code, logicalBit_icrLoWord d,
    levelBit_icrLoWord d, triggerBit_icrLoWord d, ?shorthand, icrLoWord_unused d, ?_, ?_, ?_, ?_, ?_⟩
  case mode => cases d.deliveryMode <;> decide
  case code =>
    rw [show (icrLoWord d).extractLsb' 8 3 = _ from modeField_icrLoWord d]
    cases d.deliveryMode <;> decide
  case shorthand =>
    rw [shorthandField_icrLoWord]
    cases d.shorthand <;> decide
  · intro h; rw [h]; rfl
  · intro h; rw [h]; rfl
  · intro h; rw [h]; rfl
  · intro h hdest; rw [h, hdest]; rfl
  · intro h hdest; rw [h, hdest]; rfl

/-- Settles O29: the write's effect on the block, and the mode its code names. -/
theorem icrLowWriteIssuesTheCommand : Obligations.IcrLowWriteIssuesTheCommand := by
  rintro s v ⟨hr, -⟩ hs
  have hexec := exec_lapicWrite32 hr hs .icrLo (v := v) rfl
  rw [issueCommand_eq] at hexec
  refine ⟨_, _, _, _, hexec, rfl, ⟨rfl, rfl⟩, ⟨rfl, rfl, rfl⟩, ⟨rfl, rfl, rfl, rfl, rfl⟩, rfl, ?mode,
    ipiMode_of_code _ (m := .fixed), ipiMode_of_code _ (m := .lowestPriority), ipiMode_of_code _ (m := .smi),
    ipiMode_of_code _ (m := .nmi), ipiMode_of_code _ (m := .init), ipiMode_of_code _ (m := .startUp),
    ipiTargets_shorthandFromBits _ _ _ _ _⟩
  case mode =>
    obtain ⟨m, hm⟩ := ipiMode_eq_ofIpi s.block v
    rw [hm]
    cases m <;> decide
end

section
/-! PROOFS. `init_current_cpu` (spec/41_local_controller.md R186): its frame, and what the read-modify-writes of
`ARM_WRITES` do, to the SVR and to any register. -/

namespace Sys2Proof.Machine

/-! ### The operation around its ARM_WRITES -/

theorem microStep_mapLapic {b : Block} {c : CoreId} (h : (coreParams b.cfg c).lapicMapOk = true) (w : Word) :
    microStep c .mapLapic w b = .ok w b := by
  simp [microStep, checkOr, h]

section Frame

variable {s : State} (hr : CallerReady s) (hmmio : s.block.enableType = .mmio)
  (hninit : (s.block.lapic s.caller).inited = false)
include hr hmmio hninit

/-- Without the MMIO generation the operation ends after its two checks (R186). -/
theorem exec_initCurrentCpu_absent (hgen : s.block.cfg.mmioGenPresent = false) :
    exec .initCurrentCpu s = .next (s.complete s.caller (.bool false) s.block) := by
  have hprog : progOf s.block.cfg s.caller .initCurrentCpu =
      { body := [.dispatch, .requireNotInited], ret := .const (.bool false) } := by
    simp [progOf, progInitCurrentCpu, hgen]
  rw [exec_ready hr, hprog, runBody_ok (microStep_dispatch_mmio hmmio _ _),
    runBody_ok (microStep_requireNotInited hninit _)]
  rfl

/-- With the generation present and the mapping granted, the core's flag is set after the `ARM_WRITES` (R186). -/
theorem exec_initCurrentCpu (hgen : s.block.cfg.mmioGenPresent = true)
    (hmap : (coreParams s.block.cfg s.caller).lapicMapOk = true) {w : Word} {b : Block}
    (harm : runBody s.caller (s.block.cfg.armWrites.flatMap armActions) 0#32 s.block = .done w b) :
    exec .initCurrentCpu s = .next (s.complete s.caller (.bool true)
      (b.setLapic s.caller { b.lapic s.caller with inited := true })) := by
  have hprog : progOf s.block.cfg s.caller .initCurrentCpu =
      { body := .dispatch :: .requireNotInited :: .mapLapic ::
          (s.block.cfg.armWrites.flatMap armActions ++ [.markInited])
        ret := .const (.bool true) } := by
    simp [progOf, progInitCurrentCpu, hgen]
  rw [exec_ready hr, hprog, runBody_ok (microStep_dispatch_mmio hmmio _ _),
    runBody_ok (microStep_requireNotInited hninit _), runBody_ok (microStep_mapLapic hmap _),
    runBody_append _ _ _ _ harm]
  rfl

end Frame

/-! ### ARM_WRITES on the SVR -/

/-- Controller c with `svr` in its SVR. -/
def Block.setSvr (b : Block) (c : CoreId) (svr : Word) : Block := b.setLapic c { b.lapic c with svr := svr }

section Svr

variable {b : Block} {c : CoreId} (hc : c < b.lapics.length)
include hc

theorem lapic_setSvr (v : Word) : (b.setSvr c v).lapic c = { b.lapic c with svr := v } := lapic_setLapic b _ hc

theorem setSvr_setSvr (v v' : Word) : (b.setSvr c v).setSvr c v' = b.setSvr c v' := by
  rw [Block.setSvr, lapic_setSvr hc]
  simp [Block.setSvr, Block.setLapic]

theorem setSvr_svr : b.setSvr c (b.lapic c).svr = b := by
  have hl : b.lapics.set c (b.lapic c) = b.lapics := by
    simp [Block.lapic, List.getD_eq_getElem?_getD, hc]
  simp [Block.setSvr, Block.setLapic, hl]

/-- Read-modify-writes of the SVR, one after the other, leave their composition in it. -/
theorem runBody_armSvr (hs : ConfigSound b.cfg) (fns : List ArmFn) (w svr : Word) :
    ∃ w', runBody c ((fns.map fun f => (⟨b.cfg.off.svr, f⟩ : ArmWrite)).flatMap armActions) w (b.setSvr c svr) =
      .done w' (b.setSvr c (fns.foldl (fun w f => armWord b.cfg f w) svr)) := by
  induction fns generalizing w svr with
  | nil => exact ⟨w, rfl⟩
  | cons f fns ih =>
    have hread : readLapicReg c .svr (b.setSvr c svr) = .ok svr (b.setSvr c svr) := by
      rw [readLapicReg, lapic_setSvr hc]
    have hwrite : writeLapicReg c .svr (armWord b.cfg f svr) (b.setSvr c svr) =
        .ok () (b.setSvr c (armWord b.cfg f svr)) := congrArg (Res.ok ()) (setSvr_setSvr hc svr _)
    obtain ⟨w', hrest⟩ := ih svr (armWord b.cfg f svr)
    refine ⟨w', Eq.trans ?_ hrest⟩
    exact (runBody_ok (microStep_lapicRead_ok (b := b.setSvr c svr) hs hread _) _).trans
      (runBody_ok (microStep_lapicWrite_ok (b := b.setSvr c svr) (src := .arm f) hs hwrite) _)

end Svr

/-- The default function sets bit 8 and the vector (R186, R109). -/
theorem armWord_svrEnable (cfg : Config) (w : Word) : armWord cfg .svrEnable w =
    (w &&& 0xFFFFFE00#32) ||| 0x00000100#32 ||| cfg.spuriousVector.setWidth 32 := by
  have hbit : setbits w 8 8 1#32 = (w &&& 0xFFFFFEFF#32) ||| 0x00000100#32 := by
    have hmask : fieldMask 8 8 = 0x00000100#32 := by decide
    rw [setbits, hmask]
    rfl
  rw [armWord, setbits_vector_byte, hbit, BitVec.and_or_distrib_right, BitVec.and_assoc]
  rfl

/-! ### ARM_WRITES on any registers -/

/-- The controller of core c has the register (R27). -/
def RegPresent (cfg : Config) (c : CoreId) (r : LapicReg) : Prop :=
  r = .lvt .cmci → 7 ≤ countField (lapicVersionWord cfg c)

theorem RegPresent.lvtPresent {cfg : Config} {c : CoreId} {k : Kind} (h : RegPresent cfg c (.lvt k)) :
    lvtPresent cfg c k = true :=
  lvtPresent_of fun hk => h (by rw [hk])

theorem readLapicReg_of_present {b : Block} {c : CoreId} {r : LapicReg} (h : RegPresent b.cfg c r) :
    ∃ v b', readLapicReg c r b = .ok v b' := by
  cases r with
  | lvt k => exact ⟨_, _, readLapicReg_lvt h.lvtPresent⟩
  | _ => exact ⟨_, _, rfl⟩

theorem writeLapicReg_of_present {b : Block} {c : CoreId} {r : LapicReg} (h : RegPresent b.cfg c r) (v : Word) :
    ∃ b', writeLapicReg c r v b = .ok () b' := by
  cases r with
  | lvt k => exact ⟨_, writeLapicReg_lvt h.lvtPresent v⟩
  | _ => exact ⟨_, rfl⟩

/-- What no access of core c's own controller touches: the stored bits of the ID register, the Facade, the other
controllers, the router. -/
structure AccessSame (c : CoreId) (b b' : Block) : Prop where
  idReserved : (b'.lapic c).idReserved = (b.lapic c).idReserved
  facade : FacadeSame b b'
  others : OtherLapicsSame c b b'
  router : RouterSame b b'

theorem AccessSame.refl (c : CoreId) (b : Block) : AccessSame c b b :=
  ⟨rfl, ⟨rfl, rfl, rfl⟩, ⟨rfl, fun _ _ => rfl⟩, routerSame_refl b⟩

theorem AccessSame.trans {c : CoreId} {b b' b'' : Block} (h : AccessSame c b b') (h' : AccessSame c b' b'') :
    AccessSame c b b'' := by
  obtain ⟨hid, ⟨hcfg, hen, honce⟩, ⟨hlen, hlapics⟩, ⟨hinit, hrunner, hindex, hrtes, hlock⟩⟩ := h
  obtain ⟨hid', ⟨hcfg', hen', honce'⟩, ⟨hlen', hlapics'⟩, ⟨hinit', hrunner', hindex', hrtes', hlock'⟩⟩ := h'
  exact ⟨hid'.trans hid, ⟨hcfg'.trans hcfg, hen'.trans hen, honce'.trans honce⟩,
    ⟨hlen'.trans hlen, fun c' hc => (hlapics' c' hc).trans (hlapics c' hc)⟩,
    ⟨hinit'.trans hinit, hrunner'.trans hrunner, hindex'.trans hindex, hrtes'.trans hrtes, hlock'.trans hlock⟩⟩

/-- The ID register's stored bits are read-only (R25; log entry 25). -/
theorem writeLapicReg_idReserved {b b' : Block} {c : CoreId} (hc : c < b.lapics.length) {r : LapicReg} {v : Word}
    (h : writeLapicReg c r v b = .ok () b') : (b'.lapic c).idReserved = (b.lapic c).idReserved := by
  have hset : ∀ l : Lapic, l.idReserved = (b.lapic c).idReserved →
      ((b.setLapic c l).lapic c).idReserved = (b.lapic c).idReserved := fun l hl => by rw [lapic_setLapic b l hc, hl]
  cases r <;> simp only [writeLapicReg] at h
  case lvt k => split at h <;> cases h; exact hset _ rfl
  case icrLo => cases h; rw [issueCommand_eq]; exact hset { b.lapic c with icrLo := v } rfl
  case svr => cases h; exact hset _ rfl
  case icrHi => cases h; exact hset _ rfl
  all_goals cases h; rfl

/-- A read takes a free value or nothing. -/
theorem readLapicReg_block {b b' : Block} {c : CoreId} {r : LapicReg} {v : Word} (h : readLapicReg c r b = .ok v b') :
    b' = b ∨ b' = b.drew := by
  cases r <;> simp only [readLapicReg] at h
  case lvt k => split at h <;> cases h; exact .inr rfl
  case eoi => cases h; exact .inr rfl
  case icrLo => cases h; exact .inr rfl
  all_goals cases h; exact .inl rfl

theorem readLapicReg_accessSame {b b' : Block} {c : CoreId} {r : LapicReg} {v : Word}
    (h : readLapicReg c r b = .ok v b') : AccessSame c b b' := by
  rcases readLapicReg_block h with rfl | rfl
  · exact .refl c b'
  · exact ⟨rfl, ⟨rfl, rfl, rfl⟩, ⟨rfl, fun _ _ => rfl⟩, ⟨rfl, rfl, rfl, rfl, rfl⟩⟩

theorem writeLapicReg_accessSame {b b' : Block} (hs : ConfigSound b.cfg) {c : CoreId} (hc : c < b.lapics.length)
    {r : LapicReg} {v : Word} (h : writeLapicReg c r v b = .ok () b') : AccessSame c b b' := by
  have hwrite := (lapicWrite32_offset hs c r v).trans h
  have hkeeps := writeLapicReg_keeps h
  have hflags := lapicWrite32_flags hwrite
  exact ⟨writeLapicReg_idReserved hc h, ⟨hkeeps.cfg, hflags.enableType, hflags.facadeOnce⟩, hkeeps.others,
    lapicWrite32_router hwrite⟩

/-- A list of `ARM_WRITES` items at present registers is done, and touches only the caller's own registers. -/
theorem runBody_armWrites {cfg : Config} (hs : ConfigSound cfg) (c : CoreId) (as : List ArmWrite)
    (has : ∀ a ∈ as, ∃ r, a.off = lapicOffset cfg r ∧ RegPresent cfg c r) (b : Block) (hb : b.cfg = cfg)
    (hc : c < b.lapics.length) (w : Word) :
    ∃ w' b', runBody c (as.flatMap armActions) w b = .done w' b' ∧ AccessSame c b b' := by
  induction as generalizing b w with
  | nil => exact ⟨w, b, rfl, .refl c b⟩
  | cons a as ih =>
    obtain ⟨r, hoff, hp⟩ := has a (List.mem_cons_self ..)
    subst hb
    obtain ⟨v, b1, hread⟩ := readLapicReg_of_present hp
    have h1 := readLapicReg_accessSame hread
    have hcfg1 : b1.cfg = b.cfg := h1.facade.1
    have hc1 : c < b1.lapics.length := h1.others.1.symm ▸ hc
    rw [← hcfg1] at hs hp hoff
    obtain ⟨b2, hwrite⟩ := writeLapicReg_of_present hp ((Src.arm a.fn).eval b1.cfg v)
    have h2 := writeLapicReg_accessSame hs hc1 hwrite
    obtain ⟨w', b', hrest, h3⟩ := ih (fun a' ha' => has a' (List.mem_cons_of_mem _ ha')) b2
      (h2.facade.1.trans hcfg1) (h2.others.1.symm ▸ hc1) v
    refine ⟨w', b', Eq.trans ?_ hrest, (h1.trans h2).trans h3⟩
    rw [List.flatMap_cons, armActions, hoff]
    refine (runBody_ok ?_ _).trans (runBody_ok (microStep_lapicWrite_ok hs hwrite) _)
    rw [hcfg1]
    exact microStep_lapicRead_ok (hcfg1 ▸ hs) hread w

/-- Setting the core's flag touches nothing that `AccessSame` says. -/
theorem accessSame_markInited {b : Block} {c : CoreId} (hc : c < b.lapics.length) :
    AccessSame c b (b.setLapic c { b.lapic c with inited := true }) where
  idReserved := by rw [lapic_setLapic _ _ hc]
  facade := ⟨rfl, rfl, rfl⟩
  others := (keeps_setLapic c b _ fun _ => rfl).others
  router := ⟨rfl, rfl, rfl, rfl, rfl⟩

end Sys2Proof.Machine

open Sys2Proof Sys2Proof.Machine

/-- Settles O16: read-modify-writes of one register compose. -/
theorem initCurrentCpuArmsSvr : Obligations.InitCurrentCpuArmsSvr := by
  refine ⟨fun s fns hr hs hmmio hc hninit => ⟨exec_initCurrentCpu_absent hr hmmio hninit, fun hgen hmap harm => ?_⟩,
    armWord_svrEnable⟩
  obtain ⟨w, hrun⟩ := runBody_armSvr hc hs fns 0#32 (s.block.lapic s.caller).svr
  rw [setSvr_svr hc, ← harm] at hrun
  rw [exec_initCurrentCpu hr hmmio hninit hgen hmap hrun, lapic_setSvr hc]
  simp only [Block.setSvr, Block.setLapic, List.set_set]

/-- Settles O17: every item is done, and none touches anything but the caller's own registers. -/
theorem initCurrentCpuCompletes : Obligations.InitCurrentCpuCompletes := by
  intro s hr hs hmmio hc hninit hgen hmap harm
  have hpresent : ∀ a ∈ s.block.cfg.armWrites, ∃ r, a.off = lapicOffset s.block.cfg r ∧
      RegPresent s.block.cfg s.caller r := fun a ha => by
    obtain ⟨r, -, hoff, hp⟩ := harm a ha
    exact ⟨r, hoff, hp⟩
  obtain ⟨w, b, hrun, hsame⟩ := runBody_armWrites hs s.caller _ hpresent s.block rfl hc 0#32
  have hcb : s.caller < b.lapics.length := hsame.others.1.symm ▸ hc
  have hall := hsame.trans (accessSame_markInited hcb)
  refine ⟨_, exec_initCurrentCpu hr hmmio hninit hgen hmap hrun, ?_, hall.idReserved, hall.facade, hall.others,
    hall.router⟩
  rw [lapic_setLapic _ _ hcb]
end

section
/-! PROOFS. The registers of the I/O router (spec/10_state.md R31, R32): the primitives called as operations
(spec/42_io_router.md R230), `supported_interrupts` (R232), and operations on one line (R233, R237, R240 to R242). -/

namespace Sys2Proof.Machine

/-! ### The words of a line (R32, R101) -/

theorem readBack_rteLoMask (stored drawn : Word) :
    readBack rteLoMask stored drawn = (stored &&& 0x0001AFFF#32) ||| (drawn &&& 0xFFFE5000#32) := rfl

theorem readBack_rteHiMask (stored drawn : Word) :
    readBack rteHiMask stored drawn = (stored &&& 0xFF000000#32) ||| (drawn &&& 0x00FFFFFF#32) := rfl

theorem flagDisabled_eq : flagDisabled = 0x00010000#32 := by decide

/-- The low word of `enable`: the vector stored, whatever was drawn with it, and no flag (R237). -/
theorem rteLoWord_readBack (stored drawn : Word) :
    rteLoWord (vectorField (readBack rteLoMask stored drawn)) 0#32 = (stored.extractLsb' 0 8).setWidth 32 := by
  rw [rteLoWord, BitVec.or_zero, vectorField_readBack_rte, vectorField]

theorem validVector_eq_false_iff (v : Byte) : validVector v = false ↔ v.toNat < 0x20 ∨ 0xEF < v.toNat := by
  simp only [validVector, Bool.and_eq_false_iff, decide_eq_false_iff_not, Nat.not_le]

/-- The low word of `configure`, flag by flag, with the mask forced by an invalid vector (R240). -/
theorem rteLoWord_configureFlags (v : Byte) (level activeHigh logical mask : Bool) :
    rteLoWord v (configureFlags level activeHigh logical (mask || !validVector v)) =
      v.setWidth 32 ||| (if level then 0x8000#32 else 0#32) ||| (if activeHigh then 0#32 else 0x2000#32) |||
        (if logical then 0x0800#32 else 0#32) |||
        (if mask = true ∨ v.toNat < 0x20 ∨ 0xEF < v.toNat then 0x10000#32 else 0#32) := by
  have hlevel : flagLevel = 0x8000#32 := by decide
  have hlow : flagActiveLow = 0x2000#32 := by decide
  have hlogical : flagLogical = 0x0800#32 := by decide
  simp only [rteLoWord, configureFlags, hlevel, hlow, hlogical, flagDisabled_eq, BitVec.or_assoc, Bool.or_eq_true,
    Bool.not_eq_true', validVector_eq_false_iff]

/-- The word `set_vector` writes over the word read: the old vector decides whether the mask is forced (R242). -/
theorem setVectorWord_readBack (stored drawn : Word) (v : Byte) :
    setVectorWord (readBack rteLoMask stored drawn) v =
      (stored &&& 0x0001AF00#32) ||| (drawn &&& 0xFFFE5000#32) |||
        (if (vectorField stored).toNat < 0x20 ∨ 0xEF < (vectorField stored).toNat then 0x10000#32 else 0#32) |||
        v.setWidth 32 := by
  rw [setVectorWord, setbits_vector_byte, vectorField_readBack_rte, readBack_rteLoMask, flagDisabled_eq]
  simp only [← validVector_eq_false_iff]
  cases validVector (vectorField stored) <;> simp [BitVec.and_or_distrib_right, BitVec.and_assoc]

theorem vectorField_setVectorWord (w : Word) (v : Byte) : vectorField (setVectorWord w v) = v :=
  extractLsb'_setbits v rfl (by decide)

/-! ### Router operations that complete (R235) -/

/-- The block with the device lock held by core c. -/
def Block.lockedBy (b : Block) (c : CoreId) : Block := { b with iorLock := .held c }

theorem microStep_unlock {b : Block} (h : b.iorLock = .free) (c d : CoreId) (w : Word) :
    microStep c .unlock w (b.lockedBy d) = .ok w b := by
  simp [microStep, Block.lockedBy, ← h]

theorem microStep_requireLine {b : Block} {l : Nat} (h : l < min (numLines b.cfg) (linesAddressable b.cfg))
    (c : CoreId) (w : Word) : microStep c (.requireLine l) w b = .ok w b :=
  if_pos (decide_eq_true h)

theorem microStep_requireLine_fault {b : Block} {l : Nat}
    (h : min (numLines b.cfg) (linesAddressable b.cfg) ≤ l) (c : CoreId) (w : Word) :
    microStep c (.requireLine l) w b = .fault .invalidLine :=
  if_neg fun hlt => Nat.not_lt.mpr h (of_decide_eq_true hlt)

section Completes

variable {s : State} (h : RouterReady s) {i : Instr} {body : List Micro} {w : Word} {b : Block}
include h

/-- A router operation whose body is all done under the lock has completed, the lock given back. -/
theorem exec_router_of_done
    (hbody : (progOf s.block.cfg s.caller i).body = .requireIorInited :: .lock :: (body ++ [.unlock]))
    (hrun : runBody s.caller body 0#32 (s.block.lockedBy s.caller) = .done w (b.lockedBy s.caller))
    (hfree : b.iorLock = .free) :
    exec i s = .next (s.complete s.caller ((progOf s.block.cfg s.caller i).ret.value w) b) := by
  have ⟨hready, _, _⟩ := h
  refine exec_of_done hready ?_
  rw [hbody]
  exact (runBody_router h _).trans
    ((runBody_append _ _ _ _ hrun).trans (runBody_ok (microStep_unlock hfree _ _ _) []))

/-- A router operation on a line it accepts, whose actions after the check of the line are all done (R233). -/
theorem exec_line_of_done {l : Nat} (hl : LineUsable s.block l)
    (hbody : (progOf s.block.cfg s.caller i).body =
      .requireIorInited :: .lock :: .requireLine l :: (body ++ [.unlock]))
    (hrun : runBody s.caller body 0#32 (s.block.lockedBy s.caller) = .done w (b.lockedBy s.caller))
    (hfree : b.iorLock = .free) :
    exec i s = .next (s.complete s.caller ((progOf s.block.cfg s.caller i).ret.value w) b) :=
  have ⟨hline, _⟩ := hl
  exec_router_of_done (body := .requireLine l :: body) h hbody
    ((runBody_ok (microStep_requireLine (b := s.block.lockedBy s.caller) hline _ _) _).trans hrun) hfree

end Completes

/-! ### Accesses to one register -/

section Access

variable {cfg : Config} {b : Block} (hb : b.cfg = cfg) (c : CoreId) (ms : List Micro) (w : Word)
include hb

/-- Reading the version register (R31). -/
theorem runBody_readVersion : runBody c (readIorReg cfg.iorVerIndex ++ ms) w b =
    runBody c ms cfg.iorVersionWord { b with iorIndex := cfg.iorVerIndex } := by
  subst hb
  exact (runBody_ok (microStep_indexWrite c b.cfg.iorVerIndex w b) _).trans
    (runBody_ok (microStep_dataRead_version c w { b with iorIndex := b.cfg.iorVerIndex } rfl) _)

/-- A write of the version register is ignored (R31). -/
theorem runBody_writeVersion (src : Src) : runBody c (writeIorReg cfg.iorVerIndex src ++ ms) w b =
    runBody c ms w { b with iorIndex := cfg.iorVerIndex } := by
  subst hb
  have hwrite : microStep c (.dataWrite src) w { b with iorIndex := b.cfg.iorVerIndex } =
      .ok w { b with iorIndex := b.cfg.iorVerIndex } := by
    simp [microStep, dataWrite, Res.keeping]
  exact (runBody_ok (microStep_indexWrite c b.cfg.iorVerIndex w b) _).trans (runBody_ok hwrite _)

variable (hs : ConfigSound cfg) {l : Nat} (hl : l < min (numLines cfg) (linesAddressable cfg))
include hs hl

/-- Reading a line's high register. -/
theorem runBody_readHi : runBody c (readIorReg (hiIndex cfg l) ++ ms) w b =
    runBody c ms (readBack rteHiMask (b.rte l).hi b.drawn) { b.drew with iorIndex := hiIndex cfg l } := by
  subst hb
  exact (runBody_ok (microStep_indexWrite c (hiIndex b.cfg l) w b) _).trans
    (runBody_ok (microStep_dataRead_hi (b := { b with iorIndex := hiIndex b.cfg l }) hs hl rfl c w) _)

/-- Writing both registers of a line (R236). -/
theorem runBody_writeRte (hr : l < b.rtes.length) (lo hi : Src) : runBody c (writeRte cfg l lo hi ++ ms) w b =
    runBody c ms w ({ b with iorIndex := hiIndex cfg l }.setRte l { lo := lo.eval cfg w, hi := hi.eval cfg w }) := by
  have hlo : ({ b with iorIndex := loIndex cfg l }.setRte l { b.rte l with lo := lo.eval cfg w }).rte l =
      { b.rte l with lo := lo.eval cfg w } := rte_setRte _ _ hr
  rw [writeRte, List.append_assoc, runBody_writeLo hs hl c hb]
  refine (runBody_writeHi hs hl c (by exact hb) hi ms w).trans ?_
  rw [hlo]
  simp only [Block.setRte, List.set_set]

end Access

/-! ### Operations on a line -/

/-- An operation with a line argument checks the line right after taking the lock (R233). -/
theorem line_body (cfg : Config) (c : CoreId) {i : Instr} {l : Nat} (h : lineArgument i = some l) :
    ∃ ms, (progOf cfg c i).body = .requireIorInited :: .lock :: .requireLine l :: ms := by
  cases i <;> cases h <;> exact ⟨_, rfl⟩

/-- The block after `set_vector`: the word read from the line is written back with its vector replaced (R242). -/
def Block.setVector (b : Block) (l : Nat) (v : Byte) : Block :=
  { b.drew with iorIndex := loIndex b.cfg l }.setRte l
    { b.rte l with lo := setVectorWord (readBack rteLoMask (b.rte l).lo b.drawn) v }

theorem vectorField_setVector {b : Block} {l : Nat} (hr : l < b.rtes.length) (v : Byte) :
    vectorField ((b.setVector l v).rte l).lo = v := by
  rw [Block.setVector, rte_setRte _ _ (by exact hr), vectorField_setVectorWord]

section Line

variable {s : State} {l : Nat} (h : RouterReady s) (hs : ConfigSound s.block.cfg) (hl : LineUsable s.block l)
include h hs hl

/-- `set_vector` reads the low register and writes it back with the vector replaced (R242). -/
theorem exec_setVector (v : Byte) :
    exec (.setVector l v) s = .next (s.complete s.caller .unit (s.block.setVector l v)) := by
  have ⟨_, _, hfree⟩ := h
  have ⟨hline, _⟩ := hl
  exact exec_line_of_done h hl (body := readIorReg _ ++ writeIorReg _ _) rfl
    ((runBody_readLo hs hline _ (b := s.block.lockedBy s.caller) rfl _ _).trans
      (runBody_writeLo hs hline _ (by rfl) _ [] _)) hfree

/-- `vector_of` returns the vector of the low register as stored (R241). -/
theorem exec_vectorOf :
    exec (.vectorOf l) s = .next (s.complete s.caller (.byte (vectorField (s.block.rte l).lo))
      { s.block.drew with iorIndex := loIndex s.block.cfg l }) := by
  have ⟨_, _, hfree⟩ := h
  have ⟨hline, _⟩ := hl
  rw [← vectorField_readBack_rte _ s.block.drawn]
  exact exec_line_of_done h hl (body := readIorReg _) rfl
    (runBody_readLo hs hline _ (b := s.block.lockedBy s.caller) rfl [] _) hfree

end Line

end Sys2Proof.Machine

open Sys2Proof Sys2Proof.Machine

/-- Settles O34: each index reaches its register under the lock. -/
theorem iorReadRegReturnsEachRegister : Obligations.IorReadRegReturnsEachRegister := by
  rintro s l h hs ⟨hline, -⟩
  have ⟨_, _, hfree⟩ := h
  have hcfg : (s.block.lockedBy s.caller).cfg = s.block.cfg := rfl
  exact ⟨exec_router_of_done h (body := readIorReg _) rfl (runBody_readVersion hcfg _ [] _) hfree,
    exec_router_of_done h (body := readIorReg _) rfl (runBody_readLo hs hline _ hcfg [] _) hfree,
    exec_router_of_done h (body := readIorReg _) rfl (runBody_readHi hcfg _ [] _ hs hline) hfree⟩

/-- Settles O35: each index reaches its register under the lock. -/
theorem iorWriteRegStoresEachRegister : Obligations.IorWriteRegStoresEachRegister := by
  rintro s l v h hs ⟨hline, -⟩
  have ⟨_, _, hfree⟩ := h
  have hcfg : (s.block.lockedBy s.caller).cfg = s.block.cfg := rfl
  exact ⟨exec_router_of_done h (body := writeIorReg _ _) rfl (runBody_writeVersion hcfg _ [] _ _) hfree,
    exec_router_of_done h (body := writeIorReg _ _) rfl (runBody_writeLo hs hline _ hcfg _ [] _) hfree,
    exec_router_of_done h (body := writeIorReg _ _) rfl (runBody_writeHi hs hline _ hcfg _ [] _) hfree⟩

/-- Settles O33: one read of the version register. -/
theorem supportedInterruptsReturnsN : Obligations.SupportedInterruptsReturnsN := by
  intro s h
  have ⟨_, _, hfree⟩ := h
  exact exec_router_of_done h (body := readIorReg _) rfl
    (runBody_readVersion (b := s.block.lockedBy s.caller) rfl _ [] _) hfree

/-- Settles O32: the line is checked under the lock, which is then released. -/
theorem invalidLineFaults : Obligations.InvalidLineFaults := by
  intro s i l h hi hge
  have ⟨hready, _, hfree⟩ := h
  obtain ⟨ms, hbody⟩ := line_body s.block.cfg s.caller hi
  refine exec_of_fault hready ?_
  rw [hbody, runBody_router h, ← release_after_lock hfree]
  exact runBody_fault (microStep_requireLine_fault (b := s.block.lockedBy s.caller) hge _ _) ms

/-- Settles O37: the vector read is the one stored, and both registers are then written. -/
theorem enableUnmasksWithRecordedVector : Obligations.EnableUnmasksWithRecordedVector := by
  intro s l dest h hs hl
  have ⟨_, _, hfree⟩ := h
  have ⟨hline, hr⟩ := hl
  rw [← rteLoWord_readBack _ s.block.drawn]
  exact exec_line_of_done h hl (body := readIorReg _ ++ writeRte _ _ _ _) rfl
    ((runBody_readLo hs hline _ (b := s.block.lockedBy s.caller) rfl _ _).trans
      (runBody_writeRte (by rfl) _ [] _ hs hline (by exact hr) _ _)) hfree

/-- Settles O42: both registers are written, with words that the arguments fix. -/
theorem configureForcesMaskOnInvalidVector : Obligations.ConfigureForcesMaskOnInvalidVector := by
  intro s l v dest level activeHigh logical mask h hs hl
  have ⟨_, _, hfree⟩ := h
  have ⟨hline, hr⟩ := hl
  rw [← rteLoWord_configureFlags]
  exact exec_line_of_done h hl (body := writeRte _ _ _ _) rfl
    (runBody_writeRte (b := s.block.lockedBy s.caller) rfl _ [] _ hs hline hr _ _) hfree

/-- Settles O44, from the word `set_vector` writes. -/
theorem setVectorForcesMaskOnOldInvalidVector : Obligations.SetVectorForcesMaskOnOldInvalidVector := by
  intro s l v h hs hl
  rw [exec_setVector h hs hl, Block.setVector, setVectorWord_readBack]
  rfl

/-- Settles O43: the word `set_vector` stored holds the new vector. -/
theorem vectorOfReturnsTheStoredVector : Obligations.VectorOfReturnsTheStoredVector := by
  intro s l h hs hl
  refine ⟨exec_vectorOf h hs hl, fun v => ?_⟩
  have ⟨hready, hinit, hfree⟩ := h
  have ⟨hline, hr⟩ := hl
  have hread := exec_vectorOf (s := s.complete s.caller .unit (s.block.setVector l v)) (l := l)
    ⟨callerReady_complete hready _ _, hinit, hfree⟩ hs ⟨hline, (List.length_set ..).symm ▸ hr⟩
  rw [complete_block, vectorField_setVector hr] at hread
  exact ⟨_, _, exec_setVector h hs hl v, hread⟩
end

section
/-! PROOFS. Disabling lines (spec/42_io_router.md R238, R239), and `ior_init` (R234) with its refusal (R233). -/

namespace Sys2Proof.Machine

/-! ### A disabled line's words (R238) -/

section Policy

variable (stored : Rte) (drawn : Word)

theorem disabledRte_preserve : disabledRte .preserve stored drawn =
    { lo := (stored.lo &&& 0x0001AFFF#32) ||| (drawn &&& 0xFFFE5000#32) ||| 0x00010000#32, hi := stored.hi } := by
  rw [disabledRte, readBack_rteLoMask, flagDisabled_eq]

theorem disabledRte_rewrite : disabledRte .rewrite stored drawn =
    { lo := (stored.lo.extractLsb' 0 8).setWidth 32 ||| 0x00010000#32, hi := 0#32 } := by
  have hzero : rteHiWord 0x00#8 = 0#32 := by decide
  rw [disabledRte, hzero, rteLoWord, flagDisabled_eq, vectorField]

/-- Under Preserve the bits R32 names are kept, the mask bit set among them. -/
theorem disabledRte_preserve_stored : (disabledRte .preserve stored drawn).lo &&& 0x0001AFFF#32 =
    (stored.lo &&& 0x0001AFFF#32) ||| 0x00010000#32 := by
  rw [disabledRte_preserve]
  simp [BitVec.and_or_distrib_right, BitVec.and_assoc]

end Policy

/-- The line is masked and keeps its vector, and the rest as the policy says (R238). -/
def LineDisabled (p : DisablePolicy) (e e' : Rte) : Prop :=
  e'.lo.getLsbD 16 = true ∧ e'.lo.extractLsb' 0 8 = e.lo.extractLsb' 0 8 ∧
    (p = .preserve → e'.hi = e.hi ∧ e'.lo &&& 0x0001AFFF#32 = (e.lo &&& 0x0001AFFF#32) ||| 0x00010000#32) ∧
    (p = .rewrite → e'.hi = 0#32 ∧ e'.lo = (e.lo.extractLsb' 0 8).setWidth 32 ||| 0x00010000#32)

theorem lineDisabled_disabledRte (p : DisablePolicy) (e : Rte) (drawn : Word) :
    LineDisabled p e (disabledRte p e drawn) := by
  refine ⟨disabledRte_mask p e drawn, disabledRte_vector p e drawn, ?preserve, ?rewrite⟩
  case preserve => rintro rfl; exact ⟨rfl, disabledRte_preserve_stored e drawn⟩
  case rewrite => rintro rfl; rw [disabledRte_rewrite]; exact ⟨rfl, rfl⟩

/-! ### All lines, and the initialization -/

/-- With its prerequisite met, the lock free and its line accepted, an operation on a line runs as one that only takes
the lock (R235). -/
theorem runBody_requireLine {s : State} {l : Nat} (h : RouterReady s) (hl : LineUsable s.block l) (ms : List Micro) :
    runBody s.caller (.requireIorInited :: .lock :: .requireLine l :: ms) 0#32 s.block =
      runBody s.caller (.lock :: ms) 0#32 s.block := by
  have ⟨_, _, hfree⟩ := h
  have ⟨hline, _⟩ := hl
  rw [runBody_router h, runBody_ok (microStep_lock_free hfree _ _)]
  exact runBody_ok (microStep_requireLine (b := s.block.lockedBy s.caller) hline _ _) _

/-- `disable` replaces the line's words as the policy says (R238). -/
theorem exec_disable {s : State} {l : Nat} (h : RouterReady s) (hs : ConfigSound s.block.cfg)
    (hl : LineUsable s.block l) : exec (.disable l) s = .next (s.complete s.caller .unit
      ({ s.block.drew with iorIndex := disabledIndex s.block.cfg l }.setRte l
        (disabledRte s.block.cfg.disablePolicy (s.block.rte l) s.block.drawn))) := by
  have ⟨hready, _, hfree⟩ := h
  have ⟨hline, hr⟩ := hl
  have hrun := runBody_disableLine hs hfree hline hr s.caller [] 0#32
  rw [List.append_nil] at hrun
  exact exec_of_done hready ((runBody_requireLine h hl _).trans hrun)

/-- Disabling the lines below n from a free lock: they end disabled, and nothing else changes but the index register and
the draws. -/
theorem runBody_disableBelow {b : Block} (hs : ConfigSound b.cfg) (hfree : b.iorLock = .free)
    (hlen : b.rtes.length = numLines b.cfg) {n : Nat} (hn : n ≤ min (numLines b.cfg) (linesAddressable b.cfg))
    (c : CoreId) (ms : List Micro) (w : Word) :
    ∃ w' b', runBody c (disableLines b.cfg n ++ ms) w b = runBody c ms w' b' ∧ OnlyLines b b' ∧
      (∀ l, n ≤ l → b'.rte l = b.rte l) ∧
      ∀ l, l < n → LineDisabled b.cfg.disablePolicy (b.rte l) (b'.rte l) := by
  have hline : ∀ l ∈ List.range n, l < min (numLines b.cfg) (linesAddressable b.cfg) := fun l hl =>
    lt_of_lt_of_le (List.mem_range.mp hl) hn
  obtain ⟨w', b', hrun, honly, hkept, hdone⟩ := runBody_disableLines hs c ms (List.range n) List.nodup_range b rfl hfree
    hline (fun l hl => hlen.symm ▸ lt_of_lt_of_le (hline l hl) (Nat.min_le_left _ _)) w
  refine ⟨w', b', hrun, honly, fun l hl => hkept l (by simpa using hl), fun l hl => ?_⟩
  obtain ⟨drawn, hd⟩ := hdone l (List.mem_range.mpr hl)
  rw [hd]
  exact lineDisabled_disabledRte _ _ _

theorem microStep_mapIor {b : Block} {c : CoreId} (h : (coreParams b.cfg c).iorMapOk = true) (w : Word) :
    microStep c .mapIor w b = .ok w b :=
  if_pos h

theorem microStep_requireAddressable {b : Block} {w : Word} (h : countField w ≤ linesAddressable b.cfg) (c : CoreId) :
    microStep c .requireAddressable w b = .ok w b :=
  if_pos h

theorem microStep_requireAddressable_refused {b : Block} {w : Word} (h : linesAddressable b.cfg < countField w)
    (c : CoreId) : microStep c .requireAddressable w b = .refuse .unaddressableLines :=
  if_neg (Nat.not_le.mpr h)

/-- The block when core c's `ior_init` has read the version register under its run-once (R234, R74). -/
def Block.initBegun (b : Block) (c : CoreId) : Block := { b with iorRunner := some c, iorIndex := b.cfg.iorVerIndex }

/-- Where none has completed or runs and the mapping is granted, `ior_init` comes to its check of N, the version word
read (R234). -/
theorem runBody_iorInit {s : State} (hninit : s.block.iorInited = false) (hnone : s.block.iorRunner = none)
    (hfree : s.block.iorLock = .free) (hmap : (coreParams s.block.cfg s.caller).iorMapOk = true) :
    runBody s.caller (progOf s.block.cfg s.caller .iorInit).body 0#32 s.block =
      runBody s.caller
        (.requireAddressable :: (disableLines s.block.cfg (numLines s.block.cfg) ++ [.iorDone]))
        s.block.cfg.iorVersionWord (s.block.initBegun s.caller) := by
  have hbody : (progOf s.block.cfg s.caller .iorInit).body = .iorOnce :: .mapIor ::
      (readVersionLocked s.block.cfg ++
        .requireAddressable :: (disableLines s.block.cfg (numLines s.block.cfg) ++ [.iorDone])) := by
    simp [progOf, progIorInit]
  rw [hbody, runBody_ok (microStep_iorOnce_first hninit hnone _ _)]
  exact (runBody_ok (microStep_mapIor (b := { s.block with iorRunner := some s.caller }) hmap _) _).trans
    (runBody_readVersionLocked (b := { s.block with iorRunner := some s.caller }) hfree _ _ _)

/-- A core stopped there leaves the run-once and the lock as they were before (R74; log entry 7). -/
theorem release_initBegun {b : Block} (hnone : b.iorRunner = none) (hfree : b.iorLock = .free) (c : CoreId) :
    (b.initBegun c).release c = { b with iorIndex := b.cfg.iorVerIndex } := by
  simp [Block.initBegun, Block.release, hnone, hfree]

end Sys2Proof.Machine

open Sys2Proof Sys2Proof.Machine

/-- Settles O38, from the words `disable` leaves under each policy. -/
theorem disableMasksUnderBothPolicies : Obligations.DisableMasksUnderBothPolicies := by
  intro s l h hs hl
  refine ⟨fun hp => ?_, fun hp => ?_⟩
  · rw [exec_disable h hs hl, disabledIndex, hp, disabledRte_preserve]
    rfl
  · rw [exec_disable h hs hl, disabledIndex, hp, disabledRte_rewrite]
    rfl

/-- Settles O39, from what disabling the lines one by one leaves. -/
theorem disableAllMasksEveryLine : Obligations.DisableAllMasksEveryLine := by
  intro s h hs hlen
  have ⟨hready, hinit, hfree⟩ := h
  obtain ⟨w, b, hrun, honly, hkept, hdisabled⟩ := runBody_disableBelow
    (b := { s.block with iorIndex := s.block.cfg.iorVerIndex }) hs hfree hlen le_rfl s.caller []
    s.block.cfg.iorVersionWord
  refine ⟨b, exec_of_done hready (w := w) ?_, hdisabled, hkept, honly.rtes_length,
    ⟨honly.cfg, honly.enableType, honly.facadeOnce⟩, honly.lapics, honly.iorInited.trans hinit, honly.iorRunner,
    honly.iorLock.trans hfree, honly.history⟩
  rw [List.append_nil] at hrun
  exact (runBody_ok (microStep_requireIorInited hinit _ _) _).trans
    ((runBody_readVersionLocked hfree _ _ _).trans hrun)

/-- Settles O40, from what disabling the lines one by one leaves. -/
theorem iorInitMasksEveryLine : Obligations.IorInitMasksEveryLine := by
  intro s hready hs hlen hninit hnone hfree hmap haddr
  obtain ⟨w, b, hrun, honly, -, hdisabled⟩ := runBody_disableBelow
    (b := s.block.initBegun s.caller) hs hfree hlen (le_min le_rfl haddr) s.caller [.iorDone] s.block.cfg.iorVersionWord
  refine ⟨{ b with iorInited := true, iorRunner := none }, exec_of_done hready (w := w) ?_, rfl, hdisabled,
    honly.rtes_length, ⟨honly.cfg, honly.enableType, honly.facadeOnce⟩, honly.lapics, rfl, honly.iorLock.trans hfree,
    honly.history⟩
  rw [runBody_iorInit hninit hnone hfree hmap]
  exact (runBody_ok (microStep_requireAddressable (b := s.block.initBegun s.caller) haddr _) _).trans hrun

/-- Settles O41: N is checked before any line, and what was taken is released. -/
theorem unaddressableLinesAreRefused : Obligations.UnaddressableLinesAreRefused := by
  intro s hready hninit hnone hfree hmap hlt
  refine exec_of_refuse hready ?_
  have hrefused := microStep_requireAddressable_refused (b := s.block.initBegun s.caller) hlt s.caller
  rw [runBody_iorInit hninit hnone hfree hmap, runBody_refuse hrefused, release_initBegun hnone hfree]
end

section
/-! PROOFS. Deliveries (spec/60_exceptions.md R290, R291), the unit an operation stays in (R299, R324), and what no step
erases (R284, R289). -/

namespace Sys2Proof.Machine

/-! ### Local events -/

section LocalEvent

variable {b : Block} {k : Kind} {w : Word}

/-- Only the count of free values can change with the mode of a local delivery. -/
theorem localMode_block (b : Block) (k : Kind) (w : Word) : ∃ n, (b.localMode k w).2 = { b with drawCount := n } := by
  unfold Block.localMode
  split
  · split
    · exact ⟨_, rfl⟩
    · exact ⟨_, rfl⟩
  · exact ⟨_, rfl⟩

theorem localMode_of_no_field (hk : k.hasDeliveryMode = false) : (b.localMode k w).1 = .fixed := by
  rw [Block.localMode, if_neg (by simp [hk])]

theorem localMode_of_code (hk : k.hasDeliveryMode = true) {m : DeliveryMode} (hw : modeField w = dmCode m) :
    (b.localMode k w).1 = .ofDelivery m := by
  rw [Block.localMode, if_pos hk, hw, dmFromBits_dmCode]

theorem localMode_of_reserved (hk : k.hasDeliveryMode = true) (hw : modeField w = 1#3 ∨ modeField w = 3#3) :
    (b.localMode k w).1 = .ofDelivery (Config.drawDeliveryMode b.drawCount) := by
  rw [Block.localMode, if_pos hk, (dmFromBits_none_iff _).mpr hw]

theorem localTrigger_eq (k : Kind) (w : Word) :
    localTrigger k w = if (k = .lint0 ∨ k = .lint1) ∧ w.getLsbD 15 = true then .level else .edge := by
  by_cases hk : isPin k = true
  · simp [localTrigger, hk, (isPin_iff k).mp hk, triggerOfBit, bitOf]
  · simp [localTrigger, hk, mt (isPin_iff k).mpr hk]

variable {c : CoreId}

theorem localEvent_masked (hm : bitOf (b.lvt c k) 16 = true) : b.localEvent c k = b := by
  simp [Block.localEvent, hm]

theorem localEvent_unmasked (hp : lvtPresent b.cfg c k = true) (hm : bitOf (b.lvt c k) 16 = false) :
    b.localEvent c k = (b.localMode k (b.lvt c k)).2.record (.deliver (.lvt c k) [c] (vectorField (b.lvt c k))
      (b.localMode k (b.lvt c k)).1 (localTrigger k (b.lvt c k))) := by
  simp [Block.localEvent, hp, hm]

end LocalEvent

theorem step_localEvent {s : State} {c : CoreId} {k : Kind} {ts : List Turn} (hturn : s.turns = .localEvent c k :: ts)
    (hc : c < s.block.cfg.cores.length) :
    step s = .next { s with turns := ts, block := s.block.localEvent c k } := by
  simp only [step, nextTurn, hturn, takeTurn, localEventTurn, if_pos hc]

/-! ### Line assertions -/

section LineAssert

variable {b : Block} {l : Nat}

theorem lineAssert_masked (hm : bitOf (b.rte l).lo 16 = true) : b.lineAssert l = b := by
  simp [Block.lineAssert, hm]

theorem lineAssert_unmasked (hm : bitOf (b.rte l).lo 16 = false) :
    b.lineAssert l = b.record (.deliver (.line l) (lineTargets b.cfg (b.rte l)) (vectorField (b.rte l).lo)
      (rteMode (modeField (b.rte l).lo)) (triggerOfBit (bitOf (b.rte l).lo 15))) := by
  simp [Block.lineAssert, hm]

end LineAssert

theorem step_lineAssert {s : State} {l : Nat} {ts : List Turn} (hturn : s.turns = .lineAssert l :: ts)
    (hl : l < numLines s.block.cfg) : step s = .next { s with turns := ts, block := s.block.lineAssert l } := by
  simp only [step, nextTurn, hturn, takeTurn, lineAssertTurn, if_pos hl]

/-! ### The unit an action can change -/

/-- What a router operation leaves alone (R299): the Facade, the controllers and the event history. -/
def Block.controllerPart (b : Block) : Config × EnableType × OnceState × List Lapic × List Event :=
  (b.cfg, b.enableType, b.facadeOnce, b.lapics, b.history)

/-- What any other operation leaves alone (R299): the router's once-state, its index register and its entries. -/
def Block.routerPart (b : Block) : Bool × Byte × List Rte := (b.iorInited, b.iorIndex, b.rtes)

/-- The actions that can change the Facade or a controller, or record an event. -/
def Micro.actsOnControllers : Micro → Bool
  | .facadeSelect => true
  | .markInited => true
  | .lapicWrite _ _ => true
  | .access _ => true
  | _ => false

theorem lapicRead32_controllerPart {c : CoreId} {off : Word} {b b' : Block} {w : Word}
    (h : lapicRead32 c off b = .ok w b') : b'.controllerPart = b.controllerPart := by
  unfold lapicRead32 at h
  split at h
  · rcases readLapicReg_block h with rfl | rfl <;> rfl
  · cases h

theorem dataRead_controllerPart {b b' : Block} {w : Word} (h : dataRead b = .ok w b') :
    b'.controllerPart = b.controllerPart := by
  unfold dataRead at h
  split at h <;> cases h <;> rfl

theorem dataWrite_controllerPart {v : Word} {b b' : Block} {u : Unit} (h : dataWrite v b = .ok u b') :
    b'.controllerPart = b.controllerPart := by
  unfold dataWrite at h
  split at h <;> cases h <;> rfl

theorem microStep_controllerPart {c : CoreId} {m : Micro} {w w' : Word} {b b' : Block}
    (h : microStep c m w b = .ok w' b') (hm : m.actsOnControllers = false) :
    b'.controllerPart = b.controllerPart := by
  cases m <;> simp only [microStep] at h
  case facadeSelect | markInited | lapicWrite | access => cases hm
  case dispatch => obtain ⟨-, -, rfl⟩ := dispatchTo_ok h; rfl
  case lapicRead => exact lapicRead32_controllerPart h
  case iorOnce => obtain ⟨-, -, -, rfl⟩ := iorOnce_ok h; rfl
  case requireAddressable => split at h <;> cases h; rfl
  case lock => obtain ⟨-, -, rfl⟩ := lockIor_ok h; rfl
  case iorDone | unlock | indexWrite => cases h; rfl
  case dataRead => exact dataRead_controllerPart h
  case dataWrite => obtain ⟨-, _, hw⟩ := keeping_ok h; exact dataWrite_controllerPart hw
  all_goals obtain ⟨-, -, rfl⟩ := checkOr_ok h; rfl

/-- An action that has nothing to do with the device lock and is neither end of the run-once leaves the router. -/
theorem microStep_routerPart {c : CoreId} {m : Micro} {w w' : Word} {b b' : Block} (h : microStep c m w b = .ok w' b')
    (hm : lockRole m = .neutral) (ho : m ≠ .iorOnce) (hd : m ≠ .iorDone) : b'.routerPart = b.routerPart := by
  have hl : m ≠ .lock := by rintro rfl; cases hm
  have hu : m ≠ .unlock := by rintro rfl; cases hm
  have hinit := (microStep_router h ho hd).1
  obtain ⟨hindex, hrtes, -⟩ := (microStep_lock h hl hu).2 (by simp [hm]) (.inr (by simp [hm]))
  simp only [Block.routerPart, hinit, hindex, hrtes]

/-- A part of the block that every one of the actions leaves, and a stop too, is left by the run of them. -/
theorem runBody_part {α : Type} (part : Block → α) {c : CoreId} {ms : List Micro} {w : Word} {b : Block}
    (hrelease : ∀ b : Block, part (b.release c) = part b)
    (hstep : ∀ m ∈ ms, ∀ {w w' b b'}, microStep c m w b = .ok w' b' → part b' = part b) :
    part (runBody c ms w b).block = part b :=
  (runBody_induction (P := fun rest _ b' => rest ⊆ ms ∧ part b' = part b)
    (fun ⟨hsub, hpart⟩ hm =>
      ⟨(List.cons_subset.mp hsub).2, (hstep _ (List.cons_subset.mp hsub).1 hm).trans hpart⟩)
    (fun ⟨_, hpart⟩ => ⟨List.nil_subset _, (hrelease _).trans hpart⟩) ⟨List.Subset.refl _, rfl⟩).2

/-! ### The unit an operation stays in -/

theorem disableBody_controllers (cfg : Config) (l : Nat) : (disableBody cfg l).any Micro.actsOnControllers = false := by
  unfold disableBody
  cases cfg.disablePolicy <;> rfl

theorem disableLines_controllers (cfg : Config) (n : Nat) :
    (disableLines cfg n).any Micro.actsOnControllers = false := by
  simp [disableLines, disableBody_controllers, Micro.actsOnControllers]

/-- No action of a router operation can change a controller (R299). -/
theorem routerOperation_controllers (cfg : Config) (c : CoreId) {i : Instr}
    (h : needsInitedRouter i = true ∨ i = .iorInit) :
    ∀ m ∈ (progOf cfg c i).body, m.actsOnControllers = false := by
  have hany : (progOf cfg c i).body.any Micro.actsOnControllers = false := by
    rcases h with h | rfl
    · cases i with
      | disable l => simp [progOf, progDisable, progRouter, disableBody_controllers, Micro.actsOnControllers]
      | disableAll =>
        simp [progOf, progDisableAll, readVersionLocked, readIorReg, disableLines_controllers, Micro.actsOnControllers]
      | iorReadReg | iorWriteReg | supportedInterrupts | enable | configure | vectorOf | setVector => rfl
      | _ => cases h
    · simp [progOf, progIorInit, readVersionLocked, readIorReg, disableLines_controllers, Micro.actsOnControllers]
  simpa using hany

/-- No action of an operation of another unit has to do with the device lock (R235, R299). -/
theorem otherOperation_neutral (cfg : Config) (c : CoreId) {i : Instr} (h : needsInitedRouter i = false)
    (hi : i ≠ .iorInit) : ∀ m ∈ (progOf cfg c i).body, lockRole m = .neutral := by
  have hall : (progOf cfg c i).body.all (fun m => lockRole m == .neutral) = true := by
    cases i with
    | initCurrentCpu =>
      simp only [progOf, progInitCurrentCpu]
      split
      · simp [armActions, lockRole]
      · rfl
    | maskAll => simp [progOf, progMaskAll, progLmi, maskActions, lockRole]
    | iorInit => exact absurd rfl hi
    | iorReadReg | iorWriteReg | supportedInterrupts | enable | disable | disableAll | configure | vectorOf
      | setVector => cases h
    | _ => rfl
  simpa using hall

/-! ### What no step erases -/

/-- Settling the work of a core that has not stopped leaves a stopped core as it was. -/
theorem status_settle_of_stopped {s s' : State} {c d : CoreId} {st st' : Status} (hst : s.status c = some st)
    (hstop : st.stopped = true) (hd : s.status d = some st') (hgoes : st'.stopped = false)
    (hsame : ∀ c', s'.status c' = s.status c') (work : Work) (ret : Ret) (h : Halt) :
    (s'.settle d work ret h).status c = some st := by
  have hne : c ≠ d := by
    rintro rfl
    cases hst.symm.trans hd
    exact Bool.false_ne_true (hgoes.symm.trans hstop)
  rw [status_settle, if_neg hne, hsame, hst]

/-- A step leaves a stopped core's agent stopped, by the same reason and work (R284). -/
theorem StepCase.status_of_stopped {s t : State} (h : StepCase s t) {c : CoreId} {st : Status}
    (hst : s.status c = some st) (hstop : st.stopped = true) : t.status c = some st := by
  cases h with
  | nothing ht => obtain ⟨-, hagents, -⟩ := ht; rw [State.status, hagents]; exact hst
  | localEvent d k ht => obtain ⟨-, hagents, -⟩ := ht; rw [State.status, hagents]; exact hst
  | lineAssert l ht => obtain ⟨-, hagents, -⟩ := ht; rw [State.status, hagents]; exact hst
  | begun d s' work p hturn hidle hb hsame hm hlen hp ht =>
    rcases ht with ⟨rfl, -⟩ | rfl <;> exact status_settle_of_stopped hst hstop hidle rfl hsame _ _ _
  | continued d s' work w rest ret hturn hrun hb hsame hm hlen ht =>
    rcases ht with ⟨rfl, -⟩ | ⟨rfl, -⟩ <;> exact status_settle_of_stopped hst hstop hrun rfl hsame _ _ _

/-- A step leaves the refused mark set (R284). -/
theorem StepCase.refusedMark {s t : State} (h : StepCase s t) (hmark : s.refusedMark = true) :
    t.refusedMark = true := by
  cases h with
  | nothing ht => obtain ⟨-, -, hsame⟩ := ht; rw [hsame, hmark]
  | localEvent d k ht => obtain ⟨-, -, hsame⟩ := ht; rw [hsame, hmark]
  | lineAssert l ht => obtain ⟨-, -, hsame⟩ := ht; rw [hsame, hmark]
  | begun d s' work p hturn hidle hb hsame hm hlen hp ht =>
    rcases ht with ⟨rfl, -⟩ | rfl <;> exact settle_refusedMark s' d work _ _ (hm.trans hmark)
  | continued d s' work w rest ret hturn hrun hb hsame hm hlen ht =>
    rcases ht with ⟨rfl, -⟩ | ⟨rfl, -⟩ <;> exact settle_refusedMark s' d work _ _ (hm.trans hmark)

end Sys2Proof.Machine

open Sys2Proof Sys2Proof.Machine

/-- Settles O45: the delivery is recorded with the fields of the stored word, its mode by the code or a free one. -/
theorem localEventDelivers : Obligations.LocalEventDelivers := by
  intro s c k ts hturn hc hk w
  have hstep := step_localEvent hturn hc
  refine ⟨fun hm => by rw [hstep, localEvent_masked hm], fun hm => ?_⟩
  obtain ⟨n, hn⟩ := localMode_block s.block k w
  refine ⟨(s.block.localMode k w).1, n, ?_, fun hfixed => ?_, fun ht he p hp hcode => ?_, fun ht he hcode => ?_⟩
  · rw [hstep, localEvent_unmasked (lvtPresent_of hk) hm, hn, localTrigger_eq]
    rfl
  · refine localMode_of_no_field ?_
    rcases hfixed with rfl | rfl <;> rfl
  · have hp : p ∈ DeliveryMode.all.map fun m => (dmCode m, EventMode.ofDelivery m) := hp
    obtain ⟨m, -, rfl⟩ := List.mem_map.mp hp
    exact localMode_of_code ((hasDeliveryMode_iff k).mpr ⟨ht, he⟩) hcode
  · rw [localMode_of_reserved ((hasDeliveryMode_iff k).mpr ⟨ht, he⟩) hcode]
    cases Config.drawDeliveryMode s.block.drawCount <;> simp [EventMode.ofDelivery]

/-- Settles O46: the delivery is recorded with the fields of the stored entry. -/
theorem lineAssertDelivers : Obligations.LineAssertDelivers := by
  intro s l ts hturn hl lo dest
  have hstep := step_lineAssert hturn hl
  exact ⟨fun hm => by rw [hstep, lineAssert_masked hm], fun hm => by rw [hstep, lineAssert_unmasked hm]; rfl⟩

/-- Settles O52, from the part of the block each action of the operation leaves. -/
theorem operationsStayInTheirUnit : Obligations.OperationsStayInTheirUnit := by
  intro s t i h
  obtain ⟨-, rfl⟩ := exec_next h
  rw [settle_block]
  refine ⟨fun hr => ?_, fun hn hi => ?_⟩
  · have hpart := runBody_part Block.controllerPart (c := s.caller) (w := 0#32) (b := s.block) (fun _ => rfl)
      fun m hm _ _ _ _ hok => microStep_controllerPart hok (routerOperation_controllers s.block.cfg s.caller hr m hm)
    simp only [Block.controllerPart, Prod.mk.injEq] at hpart
    obtain ⟨hcfg, henable, honce, hlapics, hhistory⟩ := hpart
    exact ⟨⟨hcfg, henable, honce⟩, hlapics, hhistory⟩
  · have ⟨honce, hdone⟩ := iorOnce_not_mem s.block.cfg s.caller hi
    have hpart := runBody_part Block.routerPart (c := s.caller) (w := 0#32) (b := s.block) (fun _ => rfl)
      fun m hm _ _ _ _ hok => microStep_routerPart hok (otherOperation_neutral s.block.cfg s.caller hn hi m hm)
        (ne_of_mem_of_not_mem hm honce) (ne_of_mem_of_not_mem hm hdone)
    simpa only [Block.routerPart, Prod.mk.injEq] using hpart

/-- Settles O53, case by case of a step: only a core that has not stopped is settled. -/
theorem noStepErasesARecord : Obligations.NoStepErasesARecord := by
  intro s t h
  have hcase := step_cases h
  obtain ⟨_, hkeeps⟩ := hcase.keeps
  exact ⟨fun _ _ _ hst => hcase.status_of_stopped hst rfl, fun _ _ _ hst => hcase.status_of_stopped hst rfl,
    hcase.refusedMark, hkeeps.history⟩
end

section
/-! PROOFS. A second one-time initialization (spec/70_reset_and_hazards.md R326), and what reset leaves (R320, R321). -/

namespace Sys2Proof.Machine

/-! ### One-time checks that are not met (R186, R234) -/

theorem microStep_requireNotInited_fault {b : Block} {c : CoreId} (h : (b.lapic c).inited = true) (w : Word) :
    microStep c .requireNotInited w b = .fault .orderingViolation := by
  simp [microStep, checkOr, h]

theorem microStep_iorOnce_again {b : Block} (h : b.iorInited = true) (c : CoreId) (w : Word) :
    microStep c .iorOnce w b = .fault .orderingViolation := by
  simp [microStep, iorOnce, h]

/-- With or without the generation, the operation first dispatches and checks the core's flag (R186). -/
theorem initCurrentCpu_body_prefix (cfg : Config) (c : CoreId) :
    ∃ ms, (progOf cfg c .initCurrentCpu).body = .dispatch :: .requireNotInited :: ms := by
  simp only [progOf, progInitCurrentCpu]
  split <;> exact ⟨_, rfl⟩

/-! ### What reset leaves (R320, R321) -/

section PowerOn

variable (cfg : Config) (u : PowerOn)

theorem lapic_powerOn {c : CoreId} (hc : c < cfg.cores.length) :
    (Block.powerOn cfg u).lapic c = Lapic.powerOn (u.lapics.getD c default) := by
  simp [Block.powerOn, Block.lapic, List.getD_eq_getElem?_getD, hc]

theorem rte_powerOn {l : Nat} (hl : l < numLines cfg) : (Block.powerOn cfg u).rte l = u.rtes.getD l default := by
  simp [Block.powerOn, Block.rte, List.getD_eq_getElem?_getD, hl]

theorem status_powerOn {c : CoreId} (hc : c < cfg.cores.length) : (State.powerOn cfg u).status c = some .idle := by
  simp [State.powerOn, State.status, hc]

theorem unfailed_powerOn : (State.powerOn cfg u).unfailed = true := by
  simp [State.powerOn, State.unfailed, Status.stopped]

end PowerOn

theorem dataRead_of_version {b : Block} (h : b.iorIndex = b.cfg.iorVerIndex) :
    dataRead b = .ok b.cfg.iorVersionWord b :=
  microStep_dataRead_version 0 0#32 b h

/-- With nothing scheduled a step changes nothing (R321). -/
theorem step_of_no_turn {s : State} (h : s.turns = []) : step s = .next s := by
  simp only [step, nextTurn, h]

end Sys2Proof.Machine

open Sys2Proof Sys2Proof.Machine

/-- Settles O12: each operation's check of its once-state comes before any other action but the dispatch. -/
theorem secondInitializationIsOrderingViolation : Obligations.SecondInitializationIsOrderingViolation := by
  intro s hr
  refine ⟨fun hdone => ?_, fun hmmio hinit => exec_of_fault hr ?_, fun hinit => exec_of_fault hr ?_⟩
  · rw [facadeSelectsMsrThenMmio s hr, if_pos hdone]
  · obtain ⟨ms, hbody⟩ := initCurrentCpu_body_prefix s.block.cfg s.caller
    rw [hbody, runBody_ok (microStep_dispatch_mmio hmmio _ _),
      runBody_fault (microStep_requireNotInited_fault hinit _)]
  · exact runBody_fault (microStep_iorOnce_again hinit _ _) _

/-- Settles O60, row by row of R320's table. -/
theorem resetLeavesWhatTheTableGives : Obligations.ResetLeavesWhatTheTableGives := by
  intro cfg u s
  have hshape : Shaped s := shaped_powerOn cfg u
  have hcore (c : CoreId) (hc : c < cfg.cores.length) : s.block.lapic c = Lapic.powerOn (u.lapics.getD c default) :=
    lapic_powerOn cfg u hc
  refine ⟨rfl, rfl, rfl, powerOn_inited cfg u, rfl, rfl, rfl, rfl, unfailed_powerOn cfg u, fun c hc => ?_, rfl,
    dataRead_of_version rfl, hshape.rtes_length, fun _ => rte_powerOn cfg u, step_of_no_turn rfl⟩
  refine ⟨status_powerOn cfg u hc, ?_, rfl, ?_⟩
  · rw [hcore c hc]
    exact ⟨rfl, rfl, rfl, rfl, rfl⟩
  · rw [readLapicReg, hcore c hc]
    rfl
end
